-- ==== Sys2Proof/Word.lean ====
section
/-! DEFINITION. The machine's word types (00_scope.md R10): bytes, 32-bit words, 128-bit cipher blocks and keys,
256-bit authentication keys. Only abbreviations: every conversion between them stands in Machine/Bytes.lean. -/

namespace Sys2Proof

/-- A byte: 8 bits, bit 7 most significant (R10). -/
abbrev Byte := BitVec 8

/-- A word: 32 bits, bit 0 least significant (R10). Registers, arguments and command words have this width. -/
abbrev Word := BitVec 32

/-- A 128-bit cipher block or cipher key; byte 0 of the byte string is bits 127..120 (R141). -/
abbrev Block := BitVec 128

/-- A 256-bit authentication key (R29); byte 0 of the byte string is bits 255..248. -/
abbrev AuthKey := BitVec 256

end Sys2Proof
end

