-- ==== Sys2Proof/Syntax.lean ====
section
/-! DEFINITION. The commands of the core (30_encoding.md R97): one constructor per row of spec/opcode_table.json. A slot
command carries its 4-bit SLOT field (R93); the arguments are not in the command word but in ARG_L (R24, R95). -/

namespace Sys2Proof

/-- The 18 commands of R97. -/
inductive Instr where
  /-- NOP, opcode 0x00 (R131). -/
  | nop
  /-- BC_INIT, opcode 0x01 (R143). -/
  | bcInit
  /-- BC_ENCRYPT_BLOCK, opcode 0x02 (R145). -/
  | bcEncryptBlock (slot : BitVec 4)
  /-- CTR_SET_KEY, opcode 0x10 (R167). -/
  | ctrSetKey (slot : BitVec 4)
  /-- CTR_SET_IV, opcode 0x11 (R168). -/
  | ctrSetIv (slot : BitVec 4)
  /-- CTR_SET_COUNTER, opcode 0x12 (R169). -/
  | ctrSetCounter (slot : BitVec 4)
  /-- CTR_ENCRYPT, opcode 0x13 (R170). -/
  | ctrEncrypt (slot : BitVec 4)
  /-- CTR_DECRYPT, opcode 0x14 (R171). -/
  | ctrDecrypt (slot : BitVec 4)
  /-- CTR_GET_STATE, opcode 0x15 (R172). -/
  | ctrGetState (slot : BitVec 4)
  /-- HMAC_INIT, opcode 0x20 (R217). -/
  | hmacInit
  /-- HMAC_UPDATE, opcode 0x21 (R218). -/
  | hmacUpdate
  /-- HMAC_FINAL, opcode 0x22 (R219). -/
  | hmacFinal
  /-- HKDF_EXTRACT, opcode 0x30 (R238). -/
  | hkdfExtract
  /-- HKDF_EXPAND, opcode 0x31 (R240). -/
  | hkdfExpand
  /-- SESSION_LOAD, opcode 0x40 (R260). -/
  | sessionLoad (slot : BitVec 4)
  /-- SESSION_CLEAR, opcode 0x41 (R261). -/
  | sessionClear (slot : BitVec 4)
  /-- SEAL, opcode 0x42 (R263). -/
  | sealPayload (slot : BitVec 4)
  /-- OPEN, opcode 0x43 (R268). -/
  | openPayload (slot : BitVec 4)
deriving DecidableEq, Repr

/-- The SLOT operand of a slot command; a command not marked *slot* in R97 has none. -/
def Instr.slot? : Instr → Option (BitVec 4)
  | .nop => none
  | .bcInit => none
  | .bcEncryptBlock s => some s
  | .ctrSetKey s => some s
  | .ctrSetIv s => some s
  | .ctrSetCounter s => some s
  | .ctrEncrypt s => some s
  | .ctrDecrypt s => some s
  | .ctrGetState s => some s
  | .hmacInit => none
  | .hmacUpdate => none
  | .hmacFinal => none
  | .hkdfExtract => none
  | .hkdfExpand => none
  | .sessionLoad s => some s
  | .sessionClear s => some s
  | .sealPayload s => some s
  | .openPayload s => some s

end Sys2Proof
end

