-- ==== Sys2Proof/Decode.lean ====
section
/-! DEFINITION. Decoding command words (30_encoding.md R91 to R101), and the encoder. A command is one 32-bit word
(R101); decoding is total, and every word either selects one command or is rejected by name. -/

namespace Sys2Proof

/-- One row of the opcode map (R97): its opcode, and the command it selects for a SLOT field. -/
structure OpRow where
  op : BitVec 8
  slotted : Bool
  build : BitVec 4 → Instr

/-- `mask(c)` (R100). -/
def OpRow.mask (r : OpRow) : Word := if r.slotted then 0xFFFFF0FF else 0xFFFFFFFF

/-- `match(c)` (R100): the opcode. -/
def OpRow.matchWord (r : OpRow) : Word := (0 : BitVec 24) ++ r.op

/-- The word selects the row (R100). -/
def OpRow.selects (r : OpRow) (w : Word) : Bool := (w &&& r.mask) == r.matchWord

/-- The opcode map (R97), in its order. -/
def opTable : List OpRow :=
  [ { op := 0x00, slotted := false, build := fun _ => .nop },
    { op := 0x01, slotted := false, build := fun _ => .bcInit },
    { op := 0x02, slotted := true, build := .bcEncryptBlock },
    { op := 0x10, slotted := true, build := .ctrSetKey },
    { op := 0x11, slotted := true, build := .ctrSetIv },
    { op := 0x12, slotted := true, build := .ctrSetCounter },
    { op := 0x13, slotted := true, build := .ctrEncrypt },
    { op := 0x14, slotted := true, build := .ctrDecrypt },
    { op := 0x15, slotted := true, build := .ctrGetState } ] ++
  [ { op := 0x20, slotted := false, build := fun _ => .hmacInit },
    { op := 0x21, slotted := false, build := fun _ => .hmacUpdate },
    { op := 0x22, slotted := false, build := fun _ => .hmacFinal },
    { op := 0x30, slotted := false, build := fun _ => .hkdfExtract },
    { op := 0x31, slotted := false, build := fun _ => .hkdfExpand },
    { op := 0x40, slotted := true, build := .sessionLoad },
    { op := 0x41, slotted := true, build := .sessionClear },
    { op := 0x42, slotted := true, build := .sealPayload },
    { op := 0x43, slotted := true, build := .openPayload } ]

/-- `OP = CMD_L[7:0]` (R92). -/
def opField (w : Word) : BitVec 8 := w.extractLsb' 0 8

/-- `SLOT = CMD_L[11:8]` (R93). -/
def slotField (w : Word) : BitVec 4 := w.extractLsb' 8 4

/-- `RES0 = CMD_L[31:12]` (R94). -/
def res0Field (w : Word) : BitVec 20 := w.extractLsb' 12 20

/-- Why a word is illegal (R98). The hardware reports all three alike, as ERR_ILLEGAL_COMMAND. -/
inductive DecodeError where
  /-- `RES0` is not 0 (R94). -/
  | reservedBits
  /-- The opcode is not in R97 (R98, R99). -/
  | reservedOpcode
  /-- `SLOT` is not 0 in a command that takes no slot (R93). -/
  | slotNotTaken
deriving DecidableEq, Repr

/-- The name of the rejection for a word that selects no row. -/
def rejection (w : Word) : DecodeError :=
  if res0Field w ≠ 0 then .reservedBits
  else if opTable.any (fun r => r.op == opField w) then .slotNotTaken
  else .reservedOpcode

/-- `decode(w)` (R100): the command of the row that selects the word, or the name of the rejection. -/
def decode (w : Word) : Except DecodeError Instr :=
  match opTable.find? (fun r => r.selects w) with
  | some r => .ok (r.build (slotField w))
  | none => .error (rejection w)

/-- The instruction the decoder reads from a row's bits, numbered as spec/opcode_table.json numbers them: a command is
one 32-bit word written to CMD, so the bits are that word, with the bits above `nbits` zero. -/
def decodeTableWord (nbits w : Nat) : Option Instr :=
  match decode (BitVec.ofNat 32 (w % 2 ^ nbits)) with
  | .ok i => some i
  | .error _ => none

/-- `CMDWORD(op, s)` (R91): `(s << 8) | op`, with `RES0 = 0`. -/
def cmdWord (op : BitVec 8) (slot : BitVec 4) : Word := (0 : BitVec 20) ++ slot ++ op

/-- The command word of an instruction (R91, R97). -/
def encode : Instr → Word
  | .nop => cmdWord 0x00 0
  | .bcInit => cmdWord 0x01 0
  | .bcEncryptBlock s => cmdWord 0x02 s
  | .ctrSetKey s => cmdWord 0x10 s
  | .ctrSetIv s => cmdWord 0x11 s
  | .ctrSetCounter s => cmdWord 0x12 s
  | .ctrEncrypt s => cmdWord 0x13 s
  | .ctrDecrypt s => cmdWord 0x14 s
  | .ctrGetState s => cmdWord 0x15 s
  | .hmacInit => cmdWord 0x20 0
  | .hmacUpdate => cmdWord 0x21 0
  | .hmacFinal => cmdWord 0x22 0
  | .hkdfExtract => cmdWord 0x30 0
  | .hkdfExpand => cmdWord 0x31 0
  | .sessionLoad s => cmdWord 0x40 s
  | .sessionClear s => cmdWord 0x41 s
  | .sealPayload s => cmdWord 0x42 s
  | .openPayload s => cmdWord 0x43 s

end Sys2Proof
end

