-- ==== Sys2Proof/Machine/Bytes.lean ====
section
/-! DEFINITION. Byte strings (00_scope.md R10): packing bytes into words and blocks and back, in the byte orders of
20_memory.md R69, and bytewise XOR. -/

namespace Sys2Proof.Machine

/-- `uBE(B)` (R10): the unsigned value of a byte string read big-endian. -/
def uBE (bs : List Byte) : Nat :=
  bs.foldl (fun acc b => acc * 256 + b.toNat) 0

/-- The w-bit value whose big-endian byte string is `bs`: byte 0 is the most significant (R69 (f), R141). -/
def ofBytes (w : Nat) (bs : List Byte) : BitVec w :=
  BitVec.ofNat w (uBE bs)

/-- The big-endian byte string of the low `8 * n` bits of `v` (R10): byte 0 is the most significant. -/
def toBytes {w : Nat} (n : Nat) (v : BitVec w) : List Byte :=
  (List.range n).map fun i => v.extractLsb' (8 * (n - 1 - i)) 8

/-- `BE32(v)` (R10). -/
def be32 (v : Word) : List Byte := toBytes 4 v

/-- `LE32(v)` (R10): the same four bytes, least significant first. -/
def le32 (v : Word) : List Byte := (be32 v).reverse

/-- `BE64(v)` (R10), of the low 64 bits of a natural number. -/
def be64 (v : Nat) : List Byte := toBytes 8 (BitVec.ofNat 64 v)

/-- Bytewise XOR, as long as the shorter string (R10; R164 XORs with as much keystream as there is input). -/
def xorBytes (a b : List Byte) : List Byte :=
  List.zipWith (· ^^^ ·) a b

/-- `0^n` (R10). -/
def zeros (n : Nat) : List Byte := List.replicate n 0

end Sys2Proof.Machine
end

