-- ==== Sys2Proof/Config.lean ====
section
/-! DEFINITION. What an implementation fixes (00_scope.md R7, R8), and the free values of the model: the block
primitive `E`, the primitive's answers beyond the ones State lists, the bytes a failed request leaves, and
`RETRY_BUDGET`. A free value is `opaque`: nothing can be proved of the value it has. -/

namespace Sys2Proof

namespace Config

/-- `BLOCK_BYTES` (R7, R8): bytes of a cipher block. -/
def blockBytes : Nat := 16

/-- `KEY_BYTES` (R7): bytes of a cipher key. -/
def keyBytes : Nat := 16

/-- `HASH_LEN` (R7, R8): bytes of a hash output. -/
def hashLen : Nat := 32

/-- `HASH_BLOCK` (R7): bytes of a hash block. -/
def hashBlock : Nat := 64

/-- `HKDF_MAX` (R7, R236): the most bytes one HKDF_EXPAND gives, 255 × 32. -/
def hkdfMax : Nat := 255 * 32

/-- `HMAC_MSG_MAX` (R7, R218): the longest message of one host HMAC stream, in bytes. -/
def hmacMsgMax : Nat := 2 ^ 61 - 65

/-- `W_CTR` (R7): bits of the counter field. -/
def wCtr : Nat := 32

/-- `CW` (R7): bytes of the counter on the wire and in the MAC input. -/
def cw : Nat := 4

/-- Bytes of a session image: cipher key 16, authentication key 32, nonce 16 (R260). -/
def sessionBytes : Nat := 64

end Config

/-- `CTR_WIRE_ORDER` (R7): the byte order of the wire counter. -/
inductive WireOrder where
  | be
  | le
deriving DecidableEq, Repr, Inhabited

/-- The synthesis parameters of R7 that have a default. One value is fixed for the whole life of a core. -/
structure Params where
  /-- `N_SESSIONS`, the number of session slots: 1 to 16. -/
  nSessions : Nat
  /-- `TAG_LEN`, the transmitted tag bytes: 1 to 32. -/
  tagLen : Nat
  /-- `CTR_WIRE_ORDER`. -/
  wireOrder : WireOrder
  /-- `BUF_BYTES`, the size of DBUF: 256 to 65536. -/
  bufBytes : Nat
deriving DecidableEq, Repr, Inhabited

/-- The defaults of R7: two slots, the whole 32-byte tag, big-endian wire counter, 2048 bytes of DBUF. -/
def Params.default : Params :=
  { nSessions := 2, tagLen := 32, wireOrder := .be, bufBytes := 2048 }

/-- The ranges of R7. -/
abbrev Params.Legal (p : Params) : Prop :=
  (1 ≤ p.nSessions ∧ p.nSessions ≤ 16) ∧ (1 ≤ p.tagLen ∧ p.tagLen ≤ 32) ∧ (256 ≤ p.bufBytes ∧ p.bufBytes ≤ 65536)

/-- One sample of the answer inputs of the primitive port (R141, R142): `good` is `bc_done` (or `bc_init_ok`), `bad` is
`bc_error` (or `bc_init_fail`). The data input `bc_out` is not here: with `bc_done` it is `E(key, blk)` (R150). -/
structure Sample where
  good : Bool
  bad : Bool
deriving DecidableEq, Repr, Inhabited

/-- What the environment draws for one request (R129, R150): the samples the port shows while the adapter polls, in
order, and the values of the output bytes that R297 leaves unspecified when this request fails. Past the end of
`samples` the port shows no answer; past the end of `residue` the byte is `Config.residueByte`. -/
structure Reply where
  samples : List Sample
  residue : List Byte
deriving DecidableEq, Repr, Inhabited

/-- FREE VALUE. The block primitive (R9): a deterministic function of key and block, not given by the spec (R6 (a)).
Notes 3. -/
opaque Config.E : Block → Block → Block

/-- FREE VALUE. The draw for the n-th request of the core's life when State lists no reply for it (R150). Notes 4. -/
opaque Config.reply : Nat → Reply

/-- FREE VALUE. Byte i of the output of a command whose n-th request failed, where the reply lists no byte (R297).
Notes 5. -/
opaque Config.residueByte : Nat → Nat → Byte

/-- FREE VALUE. `RETRY_BUDGET - 1`: the budget is an open parameter of which the spec says only that it is at least 1
(R7, D28), and CONFIG2 reports it in 32 bits (R30). DEDUCED, notes 6. -/
opaque Config.retryBudgetPred : Fin 4294967295

/-- `RETRY_BUDGET` (R7): the polls of the primitive before a timeout. -/
def Config.retryBudget : Nat := Config.retryBudgetPred.val + 1

end Sys2Proof
end

