-- ==== Sys2Proof/Machine/State.lean ====
section
/-! DEFINITION. The state of the core (10_state.md R21 to R44), the two other agents' side of it (the host's pending
acts, the primitive port), and the state after reset (R43, 70_reset_and_hazards.md R321). Plain data throughout. -/

namespace Sys2Proof.Machine

/-- `SEQ` (R23): the sequencing state that takes the place of a program counter. -/
inductive Seq where
  /-- No command is in progress. -/
  | idle
  /-- The latched command is in progress. -/
  | busy
deriving DecidableEq, Repr

/-- The error codes of R291, `STATUS.ERR`. Codes 8 to 15 are never written, so they have no constructor. -/
inductive ErrCode where
  | ok
  | primitiveTimeout
  | invalidLength
  | authFailure
  | primitiveError
  | illegalCommand
  | badState
  | badBuffer
deriving DecidableEq, Repr

/-- Five 32-bit argument words: `ARG[0..4]` (R34) and their latched copies `ARG_L[0..4]` (R24). -/
structure Args where
  a0 : Word
  a1 : Word
  a2 : Word
  a3 : Word
  a4 : Word
deriving DecidableEq, Repr

/-- A session slot (R26 to R29). -/
structure Slot where
  /-- `ENC_KEY` (R27). -/
  encKey : Block
  /-- `ENC_VALID` (R27). -/
  encValid : Bool
  /-- `CB`, the counter block the next keystream block would use (R28). -/
  cb : Block
  /-- `KS_LAST`, the last computed keystream block (R28). -/
  ksLast : Block
  /-- `AUTH_KEY` (R29). -/
  authKey : AuthKey
  /-- `AUTH_VALID` (R29). -/
  authValid : Bool
deriving DecidableEq, Repr

/-- An empty slot: the reset value of every slot (R27 to R29, R43) and what SESSION_CLEAR leaves (R261). -/
def Slot.empty : Slot :=
  { encKey := 0, encValid := false, cb := 0, ksLast := 0, authKey := 0, authValid := false }

/-- The HMAC context `HCTX` in its abstract form (R35): no context, or the 64-byte key block `K0` and the message bytes
absorbed since HMAC_INIT. -/
inductive Hctx where
  | idle
  | active (k0 : List Byte) (m : List Byte)
deriving DecidableEq, Repr

/-- DBUF (20_memory.md R62) as a list of (offset, byte) pairs in one canonical form: see Machine/Memory.lean. -/
abbrev Memory := List Host.Cell

/-- A request on the primitive port (R141, R142, R146). -/
inductive PortRequest where
  /-- `bc_init_req`. -/
  | init
  /-- `bc_start` with `bc_key` and `bc_blk`. -/
  | block (key : Block) (blk : Block)
deriving DecidableEq, Repr

/-- The primitive port: the third agent of R14 as the engine meets it. The MODEL's own fields, not the spec's:
`replies` are the draws of R129 and R150 for the coming requests, in order (when it runs out, the draw is the free value
`Config.reply`); `sent` is what an observer of the port has seen (R41 (e), R149), oldest first; `draws` counts the
requests of the core's life and is the argument of the free values. -/
structure PrimPort where
  replies : List Reply
  sent : List PortRequest
  draws : Nat
deriving DecidableEq, Repr

/-- The sizes of a host access (R64). -/
inductive AccessSize where
  | b1
  | b2
  | b4
deriving DecidableEq, Repr

/-- One host bus transaction at a 17-bit window offset (R61, R64). -/
inductive BusAccess where
  | read (off : BitVec 17) (size : AccessSize)
  | write (off : BitVec 17) (size : AccessSize) (data : Word)
deriving DecidableEq, Repr

/-- How a host bus transaction completed (R64). -/
inductive BusReply where
  /-- A read that completed `ok`, with its data. -/
  | readOk (data : Word)
  /-- A write that completed `ok`. -/
  | writeOk
  /-- `bus_error`: as a read it returns data 0 (R68). -/
  | busError
deriving DecidableEq, Repr

/-- What the outside does next (R14, R78, R303, R321): the host issues one access, the engine takes its completion step,
or `rst_n` is asserted and released with the DBUF contents `draw` (R63: a free draw at every reset). -/
inductive Input where
  | access (a : BusAccess)
  | engine
  | reset (draw : List Host.Cell)
deriving DecidableEq, Repr

/-- The state of the machine. The spec's own state is R21's tuple; `cfg`, `prim`, `inputs` and `busReply` are the
MODEL's (the synthesis parameters and the two other agents), as INVENTORY.md says line by line. -/
structure State where
  /-- MODEL's own: the synthesis parameters of R7, which no step changes. DESIGN CHOICE, notes 2. -/
  cfg : Params
  /-- `SEQ` (R23). -/
  seq : Seq
  /-- `CMD_L`, the last accepted command word (R24, R33). -/
  cmdL : Word
  /-- `ARG_L[0..4]` (R24). -/
  argL : Args
  /-- `ARG[0..4]` (R34). -/
  args : Args
  /-- `STATUS.DONE` (R25). -/
  done : Bool
  /-- `STATUS.CMD_OVF` (R25). -/
  cmdOvf : Bool
  /-- `STATUS.BUSY_ACC` (R25). -/
  busyAcc : Bool
  /-- `STATUS.ERR` (R25, R291). -/
  err : ErrCode
  /-- `CTRL.IRQ_EN` (R32). -/
  irqEn : Bool
  /-- `BC_ARMED` (R37), mirrored in STATUS. -/
  bcArmed : Bool
  /-- The session slots `S[0..N_SESSIONS-1]` (R26). -/
  slots : List Slot
  /-- `HCTX` (R35), mirrored in `STATUS.HMAC_ACTIVE`. -/
  hctx : Hctx
  /-- `DBUF` (R62). -/
  dbuf : Memory
  /-- MODEL's own: the primitive port. DESIGN CHOICE, notes 4 and 14. -/
  prim : PrimPort
  /-- MODEL's own: what the outside does next, in order; when it is empty the engine moves (R128: a command completes).
  DESIGN CHOICE, notes 7. -/
  inputs : List Input
  /-- MODEL's own: how the last host access completed (R64). DESIGN CHOICE, notes 14. -/
  busReply : Option BusReply
deriving DecidableEq, Repr

/-- Why the machine could stop with a fault. The core has no fault and no stuck state (60_exceptions.md R300;
93_implementation_defined.md, end of Part A), so nothing raises one: the type is empty, and that is safe. -/
inductive Fault where
deriving DecidableEq, Repr

/-- Why an instruction could have no meaning. -/
inductive Refusal where
  /-- An arm of `exec` whose instruction has no meaning yet. No arm raises it; raising it would be safe. -/
  | notModelled (mnemonic : String)
deriving DecidableEq, Repr

/-- All argument words zero (R43). -/
def Args.zero : Args := { a0 := 0, a1 := 0, a2 := 0, a3 := 0, a4 := 0 }

/-- The state reset leaves (R43, R321) in a core with parameters `p`, with the DBUF contents, the primitive and the
outside as given: reset fixes none of these three (R63, R321). -/
def State.afterReset (p : Params) (dbuf : Memory) (prim : PrimPort) (inputs : List Input) : State :=
  { cfg := p, seq := .idle, cmdL := 0, argL := Args.zero, args := Args.zero,
    done := false, cmdOvf := false, busyAcc := false, err := .ok, irqEn := false, bcArmed := false,
    slots := List.replicate p.nSessions Slot.empty, hctx := .idle, dbuf := dbuf,
    prim := prim, inputs := inputs, busReply := none }

/-- A primitive port nothing has used, with no reply listed: every answer is then the free draw. -/
def PrimPort.fresh : PrimPort := { replies := [], sent := [], draws := 0 }

/-- The machine right after its first reset, with the default parameters (R43, R321) and nothing listed in DBUF. -/
def State.reset : State := State.afterReset Params.default [] PrimPort.fresh []

end Sys2Proof.Machine
end

