-- ==== Sys2Proof/Machine/Memory.lean ====
section
/-! DEFINITION. DBUF (20_memory.md R62, R63): reading and writing bytes and byte strings, over the canonical list of
cells of State. -/

namespace Sys2Proof.Machine

/-- What an offset that is not listed reads as. DESIGN CHOICE (notes 1): the spec says each byte holds some value after
reset (R63); here an unlisted byte is zero, and a draw of other contents is a memory that lists them. -/
def Memory.blank : Byte := 0

/-- The byte at offset `a`. -/
def Memory.read : Memory → Nat → Byte
  | [], _ => Memory.blank
  | (b, v) :: m, a => if a = b then v else Memory.read m a

/-- DBUF with the byte `v` at offset `a`; the list stays canonical. -/
def Memory.write : Memory → Nat → Byte → Memory
  | [], a, v => if v = Memory.blank then [] else [(a, v)]
  | (b, w) :: m, a, v =>
    if a < b then (if v = Memory.blank then (b, w) :: m else (a, v) :: (b, w) :: m)
    else if a = b then (if v = Memory.blank then m else (a, v) :: m)
    else (b, w) :: Memory.write m a v

/-- `MemRead(a, n)` (R11): the byte string at offsets `a` to `a + n - 1`, first byte at the lowest offset (R69 (a)). -/
def Memory.readBytes (m : Memory) (a n : Nat) : List Byte :=
  (List.range n).map fun k => m.read (a + k)

/-- `MemWrite(a, n, B)` (R11), with `n` the length of the byte string. -/
def Memory.writeBytes : Memory → Nat → List Byte → Memory
  | m, _, [] => m
  | m, a, b :: bs => Memory.writeBytes (m.write a b) (a + 1) bs

/-- The canonical form from offset `lo` up to `hi`: offsets strictly rising, none outside, no blank byte listed. -/
def Memory.wfFrom (hi : Nat) : Nat → Memory → Bool
  | _, [] => true
  | lo, (a, v) :: m => decide (lo ≤ a) && decide (a < hi) && decide (v ≠ Memory.blank) && Memory.wfFrom hi (a + 1) m

/-- The canonical form of a DBUF of `n` bytes. -/
def Memory.wf (n : Nat) (m : Memory) : Bool := Memory.wfFrom n 0 m

/-- The canonical DBUF of `n` bytes that holds the drawn cells, a later cell over an earlier one; cells outside are
dropped and offsets not drawn are blank (R63: the draw at a reset). -/
def Memory.ofCells (n : Nat) (cells : List Host.Cell) : Memory :=
  cells.foldl (fun m c => if c.1 < n then m.write c.1 c.2 else m) []

end Sys2Proof.Machine
end

