-- ==== Sys2Proof/Machine/Ops.lean ====
section
/-! DEFINITION. The operations every command shares: accepting a command, ending it with an error code (the core's only
form of exception: 60_exceptions.md R300), validation, slot access, and one request on the primitive port. -/

namespace Sys2Proof.Machine

/-! ### The command cycle (40_command_cycle.md) -/

/-- Acceptance (R121): the word and the arguments are latched, DONE and ERR are cleared, SEQ becomes BUSY. -/
def State.accept (s : State) (w : Word) : State :=
  { s with cmdL := w, argL := s.args, done := false, err := .ok, seq := .busy }

/-- Completion (R127): the code goes to ERR, DONE is set, SEQ becomes IDLE. A `raise ERR_X` (R11) ends the command here
too: the core has no trap entry, saved pc or vector (R300), so this is all that taking an exception is. -/
def State.complete (s : State) (e : ErrCode) : State :=
  { s with err := e, done := true, seq := .idle }

/-- One validation check (R124): where it fails the command ends at once with `e` and no other effect (R296); where it
holds the command goes on to `next`. -/
def require (ok : Bool) (e : ErrCode) (s next : State) : State :=
  if ok then next else s.complete e

/-- Reset as an event (R321): every piece of state takes its reset value, DBUF is drawn (R63), a running command is
abandoned with none of its writes. The parameters, the primitive and what the outside does next are not the core's to
reset. -/
def State.resetBy (s : State) (draw : List Host.Cell) : State :=
  State.afterReset s.cfg (Memory.ofCells s.cfg.bufBytes draw) s.prim s.inputs

/-! ### Session slots (10_state.md R26) -/

/-- Slot `i`; an index outside the core's slots gives the empty slot (R93 rules such an index out first). -/
def State.slot (s : State) (i : BitVec 4) : Slot := s.slots.getD i.toNat Slot.empty

/-- The state with slot `i` replaced. -/
def State.setSlot (s : State) (i : BitVec 4) (x : Slot) : State :=
  { s with slots := s.slots.set i.toNat x }

/-- The SLOT rule of validation step V1 (R93): the core has the slot. -/
def State.hasSlot (s : State) (i : BitVec 4) : Bool := decide (i.toNat < s.cfg.nSessions)

/-! ### The primitive port (41_block_cipher.md) -/

/-- How a request ended (R147, R150). For an init request `error` is the outcome `fail`. -/
inductive Answer where
  | ok
  | error
  | timeout
deriving DecidableEq, Repr

/-- The bounded wait (R147): at most `budget` samples; the first that shows an answer ends the request, an error beside
a completion counts as an error (R148), and no answer within the budget is a timeout. -/
def pollAnswer : Nat → List Sample → Answer
  | 0, _ => .timeout
  | _ + 1, [] => .timeout
  | n + 1, x :: xs => if x.bad then .error else if x.good then .ok else pollAnswer n xs

/-- The bytes a failed request leaves in the command's output (R297): the reply's, then the free values of draw `n`. -/
structure Residue where
  listed : List Byte
  draw : Nat
deriving DecidableEq, Repr

/-- The first `len` bytes of a residue. -/
def Residue.bytes (r : Residue) (len : Nat) : List Byte :=
  (List.range len).map fun i => r.listed.getD i (Config.residueByte r.draw i)

/-- The draw for the next request: the first reply State lists, or the free value (R150). -/
def PrimPort.nextReply (p : PrimPort) : Reply :=
  match p.replies with
  | [] => Config.reply p.draws
  | r :: _ => r

/-- How the next request will end (R147). -/
def PrimPort.answer (p : PrimPort) : Answer := pollAnswer Config.retryBudget p.nextReply.samples

/-- The bytes the next request leaves in the output if it fails (R297). -/
def PrimPort.residue (p : PrimPort) : Residue :=
  { listed := p.nextReply.residue, draw := p.draws }

/-- The port after the request `q`: it was sent, and its draw is used up (R149). -/
def PrimPort.after (p : PrimPort) (q : PortRequest) : PrimPort :=
  { replies := p.replies.tail, sent := p.sent ++ [q], draws := p.draws + 1 }

/-- The error code a failed answer raises (R11, R151). -/
def Answer.code : Answer → ErrCode
  | .ok => .ok
  | .error => .primitiveError
  | .timeout => .primitiveTimeout

end Sys2Proof.Machine
end

