-- ==== Sys2Proof/Machine/Flags.lean ====
section
/-! DEFINITION. The values software reads as whole words and the core computes from its state: STATUS, SLOT_STATUS,
CTRL, the CONFIG registers (10_state.md R25, R30 to R32), and the interrupt output (60_exceptions.md R301). -/

namespace Sys2Proof.Machine

/-- The number of an error code (R291). -/
def ErrCode.code : ErrCode → BitVec 4
  | .ok => 0
  | .primitiveTimeout => 1
  | .invalidLength => 2
  | .authFailure => 3
  | .primitiveError => 4
  | .illegalCommand => 5
  | .badState => 6
  | .badBuffer => 7

/-- `STATUS.BUSY` (R23): 1 exactly when `SEQ = BUSY`. -/
def State.busyBit (s : State) : Bool :=
  match s.seq with
  | .idle => false
  | .busy => true

/-- `STATUS.HMAC_ACTIVE` (R35): 1 exactly when `HCTX` is ACTIVE. -/
def State.hmacActive (s : State) : Bool :=
  match s.hctx with
  | .idle => false
  | .active _ _ => true

/-- STATUS (R25): bits 31:10 reserved, 9 HMAC_ACTIVE, 8 BC_ARMED, 7:4 ERR, 3 BUSY_ACC, 2 CMD_OVF, 1 DONE, 0 BUSY. -/
def State.statusWord (s : State) : Word :=
  (0 : BitVec 22) ++ BitVec.ofBool s.hmacActive ++ BitVec.ofBool s.bcArmed ++ s.err.code ++
    BitVec.ofBool s.busyAcc ++ BitVec.ofBool s.cmdOvf ++ BitVec.ofBool s.done ++ BitVec.ofBool s.busyBit

/-- CTRL (R32): bit 0 IRQ_EN, the rest reserved. -/
def State.ctrlWord (s : State) : Word := (0 : BitVec 31) ++ BitVec.ofBool s.irqEn

/-- The validity bits of slots in order, two a slot: ENC_VALID below AUTH_VALID (R31). -/
def slotBits : List Slot → Nat
  | [] => 0
  | x :: xs => x.encValid.toNat + 2 * x.authValid.toNat + 4 * slotBits xs

/-- SLOT_STATUS (R31). -/
def State.slotStatusWord (s : State) : Word := BitVec.ofNat 32 (slotBits s.slots)

/-- CONFIG0 (R30): 31:24 W_CTR, 23:21 zero, 20 wire order LE, 19:16 CW, 15:8 TAG_LEN, 7:0 N_SESSIONS. -/
def State.config0Word (s : State) : Word :=
  BitVec.ofNat 8 Config.wCtr ++ (0 : BitVec 3) ++ BitVec.ofBool (decide (s.cfg.wireOrder = .le)) ++
    BitVec.ofNat 4 Config.cw ++ BitVec.ofNat 8 s.cfg.tagLen ++ BitVec.ofNat 8 s.cfg.nSessions

/-- CONFIG1 (R30): BUF_BYTES. -/
def State.config1Word (s : State) : Word := BitVec.ofNat 32 s.cfg.bufBytes

/-- CONFIG2 (R30): RETRY_BUDGET. -/
def config2Word : Word := BitVec.ofNat 32 Config.retryBudget

/-- The interrupt output (R301): `irq = STATUS.DONE ∧ CTRL.IRQ_EN`. -/
def State.irq (s : State) : Bool := s.done && s.irqEn

end Sys2Proof.Machine
end

