-- ==== Sys2Proof/Machine/Operands.lean ====
section
/-! DEFINITION. The operands of the commands (30_encoding.md R95, R96): the latched arguments by the role the table
gives them, DBUF buffers, the range check and the overlap rule (20_memory.md R72, R73). -/

namespace Sys2Proof.Machine

/-- A buffer of a command: a DBUF offset and a byte count (R72). -/
structure Buf where
  off : Nat
  len : Nat
deriving DecidableEq, Repr

/-- The range check (R72), on unbounded naturals: no 32-bit sum wraps. -/
def Buf.inRange (b : Buf) (p : Params) : Bool := decide (b.off + b.len ≤ p.bufBytes)

/-- Two buffers overlap (R73): both are non-empty and they share an offset. -/
def Buf.overlaps (a b : Buf) : Bool :=
  decide (0 < a.len) && decide (0 < b.len) && decide (a.off < b.off + b.len) && decide (b.off < a.off + a.len)

/-- The rule for an output and the primary data input (R73): the same start, or no overlap. -/
def Buf.inPlaceOrApart (src dst : Buf) : Bool :=
  decide (src.off = dst.off) || !(src.overlaps dst)

/-- The bytes of a buffer (R69 (a)). -/
def State.readBuf (s : State) (b : Buf) : List Byte := s.dbuf.readBytes b.off b.len

/-- `MemWrite` of a byte string at the start of a buffer (R11). -/
def State.writeBuf (s : State) (b : Buf) (bs : List Byte) : State :=
  { s with dbuf := s.dbuf.writeBytes b.off bs }

/-- ARG0, the offset of the primary input (R95). -/
def State.srcOff (s : State) : Nat := s.argL.a0.toNat

/-- ARG1, the offset of the output (R95). -/
def State.dstOff (s : State) : Nat := s.argL.a1.toNat

/-- ARG2, the primary length (R95). -/
def State.len (s : State) : Nat := s.argL.a2.toNat

/-- ARG3 as the offset of a second input (R95). -/
def State.auxOff (s : State) : Nat := s.argL.a3.toNat

/-- ARG3 as the 32-bit counter value, used whole (R96). -/
def State.counter (s : State) : Word := s.argL.a3

/-- ARG4 as a second length (R95). -/
def State.auxLen (s : State) : Nat := s.argL.a4.toNat

/-- ARG4 as the offset of the received tag (R95). -/
def State.tagOff (s : State) : Nat := s.argL.a4.toNat

/-- The primary input with the length of ARG2. -/
def State.srcBuf (s : State) : Buf := { off := s.srcOff, len := s.len }

/-- The primary input with a fixed length. -/
def State.srcFixed (s : State) (n : Nat) : Buf := { off := s.srcOff, len := n }

/-- The output with the length of ARG2. -/
def State.dstBuf (s : State) : Buf := { off := s.dstOff, len := s.len }

/-- The output with a fixed length. -/
def State.dstFixed (s : State) (n : Nat) : Buf := { off := s.dstOff, len := n }

/-- The second input, ARG3 and ARG4: the IKM of HKDF_EXTRACT, the info string of HKDF_EXPAND (R95). -/
def State.auxBuf (s : State) : Buf := { off := s.auxOff, len := s.auxLen }

/-- The received tag of OPEN, `TAG_LEN` bytes at ARG4 (R95). -/
def State.tagBuf (s : State) : Buf := { off := s.tagOff, len := s.cfg.tagLen }

/-- The length of a sealed payload (R256): `len + CW + TAG_LEN`. -/
def State.payloadLen (s : State) : Nat := s.len + Config.cw + s.cfg.tagLen

/-- The output of SEAL (R95): the whole payload at ARG1. -/
def State.payloadBuf (s : State) : Buf := { off := s.dstOff, len := s.payloadLen }

end Sys2Proof.Machine
end

