-- ==== Sys2Proof/Machine/Bus.lean ====
section
/-! DEFINITION. The host's side (20_memory.md R61 to R70, 30_encoding.md R102): the register map, register and DBUF
accesses, and their completion. -/

namespace Sys2Proof.Machine

/-- The registers of the host window (R102). -/
inductive Reg where
  | cmd
  | status
  | arg0
  | arg1
  | arg2
  | arg3
  | arg4
  | config0
  | config1
  | config2
  | slotStatus
  | ctrl
deriving DecidableEq, Repr

/-- The register map (R102); every other offset below the DBUF window is unmapped, `0x01C` among them. -/
def regAt (off : Nat) : Option Reg :=
  match off with
  | 0x000 => some .cmd
  | 0x004 => some .status
  | 0x008 => some .arg0
  | 0x00C => some .arg1
  | 0x010 => some .arg2
  | 0x014 => some .arg3
  | 0x018 => some .arg4
  | 0x020 => some .config0
  | 0x024 => some .config1
  | 0x028 => some .config2
  | 0x02C => some .slotStatus
  | 0x030 => some .ctrl
  | _ => none

/-- The first offset of the DBUF window (R61). -/
def dbufBase : Nat := 0x10000

/-- The bytes of an access (R64). -/
def AccessSize.bytes : AccessSize → Nat
  | .b1 => 1
  | .b2 => 2
  | .b4 => 4

/-- What an access reaches. -/
inductive Target where
  /-- An aligned 4-byte access to a register (R65). -/
  | reg (r : Reg)
  /-- A naturally aligned access inside DBUF, at DBUF offset `k` (R67). -/
  | dbuf (k : Nat)
  /-- An unmapped offset, or an access that breaks R65 or R67. -/
  | none
deriving DecidableEq, Repr

/-- The target of an access (R65, R67, R68). A register's offset is a multiple of 4, so an access at any other offset
reaches none. -/
def target (p : Params) (off : Nat) (size : AccessSize) : Target :=
  if dbufBase ≤ off then
    if (off - dbufBase) % size.bytes = 0 ∧ off - dbufBase + size.bytes ≤ p.bufBytes then .dbuf (off - dbufBase)
    else .none
  else
    match size, regAt off with
    | .b4, some r => .reg r
    | _, _ => .none

/-- A register read (R25, R30 to R34): no side effect (R74). -/
def readReg (s : State) : Reg → Word
  | .cmd => s.cmdL
  | .status => s.statusWord
  | .arg0 => s.args.a0
  | .arg1 => s.args.a1
  | .arg2 => s.args.a2
  | .arg3 => s.args.a3
  | .arg4 => s.args.a4
  | .config0 => s.config0Word
  | .config1 => s.config1Word
  | .config2 => config2Word
  | .slotStatus => s.slotStatusWord
  | .ctrl => s.ctrlWord

/-- A CMD write: a launch when IDLE (R121); dropped with CMD_OVF when BUSY (R122). -/
def writeCmd (s : State) (w : Word) : State :=
  match s.seq with
  | .idle => s.accept w
  | .busy => { s with cmdOvf := true }

/-- A STATUS write (R25): 1 clears DONE, CMD_OVF or BUSY_ACC; every other bit is ignored. -/
def writeStatus (s : State) (w : Word) : State :=
  { s with done := s.done && !w.getLsbD 1, cmdOvf := s.cmdOvf && !w.getLsbD 2, busyAcc := s.busyAcc && !w.getLsbD 3 }

/-- A register write (R25, R30 to R34); a write to a read-only register is ignored (R68). -/
def writeReg (s : State) (w : Word) : Reg → State
  | .cmd => writeCmd s w
  | .status => writeStatus s w
  | .arg0 => { s with args := { s.args with a0 := w } }
  | .arg1 => { s with args := { s.args with a1 := w } }
  | .arg2 => { s with args := { s.args with a2 := w } }
  | .arg3 => { s with args := { s.args with a3 := w } }
  | .arg4 => { s with args := { s.args with a4 := w } }
  | .config0 => s
  | .config1 => s
  | .config2 => s
  | .slotStatus => s
  | .ctrl => { s with irqEn := w.getLsbD 0 }

/-- The value of bytes read little-endian, `Σ B[j] · 2^(8j)` (R67). -/
def laneValue : List Byte → Nat
  | [] => 0
  | b :: bs => b.toNat + 256 * laneValue bs

/-- The low `n` bytes of a data word, byte `j` from bits `[8j+7:8j]` (R67). -/
def laneBytes (n : Nat) (w : Word) : List Byte := (List.range n).map fun j => w.extractLsb' (8 * j) 8

/-- A legal DBUF read (R66, R67): its data, and the state after it. The data bits above the access are zero: DESIGN
CHOICE, notes 17. -/
def readDbuf (s : State) (k n : Nat) : Word × State :=
  match s.seq with
  | .idle => (BitVec.ofNat 32 (laneValue (s.dbuf.readBytes k n)), s)
  | .busy => (0, { s with busyAcc := true })

/-- A legal DBUF write (R66, R67). -/
def writeDbuf (s : State) (k n : Nat) (w : Word) : State :=
  match s.seq with
  | .idle => { s with dbuf := s.dbuf.writeBytes k (laneBytes n w) }
  | .busy => { s with busyAcc := true }

/-- The completion of an access, as the host sees it. -/
def State.reply (s : State) (r : BusReply) : State := { s with busReply := some r }

/-- The data a completed access returns as a read (R64, R68): 0 on a `bus_error`. -/
def BusReply.readData : BusReply → Word
  | .readOk d => d
  | .writeOk => 0
  | .busError => 0

/-- One host bus transaction (R64 to R68). A `bus_error` changes no state of the core (R68). -/
def hostAccess (s : State) : BusAccess → State
  | .read off size =>
    match target s.cfg off.toNat size with
    | .reg r => s.reply (.readOk (readReg s r))
    | .dbuf k => (readDbuf s k size.bytes).2.reply (.readOk (readDbuf s k size.bytes).1)
    | .none => s.reply .busError
  | .write off size w =>
    match target s.cfg off.toNat size with
    | .reg r => (writeReg s w r).reply .writeOk
    | .dbuf k => (writeDbuf s k size.bytes w).reply .writeOk
    | .none => s.reply .busError

end Sys2Proof.Machine
end

