-- ==== Sys2Proof/Machine/BlockCipher.lean ====
section
/-! DEFINITION. The block-cipher adapter (41_block_cipher.md R141 to R154): one block request, BC_INIT and
BC_ENCRYPT_BLOCK. -/

namespace Sys2Proof.Machine

/-- How one block request `BC(key, blk)` ended (R146), with the port after it. -/
inductive BlockResult where
  | ok (out : Block) (p : PrimPort)
  | failed (e : ErrCode) (r : Residue) (p : PrimPort)

/-- `BC(key, blk)` (R146, R150): the value of an `ok` is `E(key, blk)`, a timeout or an error is propagated verbatim
(R151). -/
def PrimPort.requestBlock (p : PrimPort) (key blk : Block) : BlockResult :=
  match p.answer with
  | .ok => .ok (Config.E key blk) (p.after (.block key blk))
  | .error => .failed Answer.error.code p.residue (p.after (.block key blk))
  | .timeout => .failed Answer.timeout.code p.residue (p.after (.block key blk))

/-- `INITREQ()` (R142, R143): how the next request ends as an init request, and the port after it. -/
def PrimPort.requestInit (p : PrimPort) : Answer × PrimPort := (p.answer, p.after .init)

/-- The init request of BC_INIT (R143): BC_ARMED is set on `ok` and stays 0 otherwise. -/
def bcInitRequest (s : State) : State :=
  match s.prim.requestInit with
  | (.ok, p) => { s with bcArmed := true, prim := p }.complete .ok
  | (.error, p) => { s with prim := p }.complete Answer.error.code
  | (.timeout, p) => { s with prim := p }.complete Answer.timeout.code

/-- BC_INIT (R143): when already armed, a no-op that succeeds and makes no request. -/
def execBcInit (s : State) : Host.Outcome State Fault Refusal :=
  .next (if s.bcArmed then s.complete .ok else bcInitRequest s)

/-- The execution step of BC_ENCRYPT_BLOCK (R145), in the slot `x`; on a failure the 16 output bytes are unspecified
(R297). -/
def bcEncryptRun (x : Slot) (s : State) : State :=
  match s.prim.requestBlock x.encKey (ofBytes 128 (s.readBuf (s.srcFixed Config.blockBytes))) with
  | .ok out p =>
    ({ s with prim := p }.writeBuf (s.dstFixed Config.blockBytes) (toBytes 16 out)).complete .ok
  | .failed e r p =>
    ({ s with prim := p }.writeBuf (s.dstFixed Config.blockBytes) (r.bytes Config.blockBytes)).complete e

/-- V4 of BC_ENCRYPT_BLOCK (R145): both 16-byte buffers in range, in place or apart. -/
def bcEncryptBuffers (s : State) : Bool :=
  (s.srcFixed Config.blockBytes).inRange s.cfg && (s.dstFixed Config.blockBytes).inRange s.cfg &&
    (s.srcFixed Config.blockBytes).inPlaceOrApart (s.dstFixed Config.blockBytes)

/-- BC_ENCRYPT_BLOCK (R145): one block of DBUF under the slot's cipher key; CB and KS_LAST are not touched. -/
def execBcEncryptBlock (slot : BitVec 4) (s : State) : Host.Outcome State Fault Refusal :=
  .next <|
    require (s.hasSlot slot) .illegalCommand s <|
    require (bcEncryptBuffers s) .badBuffer s <|
    require ((s.slot slot).encValid && s.bcArmed) .badState s <|
    bcEncryptRun (s.slot slot) s

end Sys2Proof.Machine
end

