-- ==== Sys2Proof/Machine/Ctr.lean ====
section
/-! DEFINITION. The counter-mode engine (42_ctr.md R161 to R178): the counter block, the CTR stream, and the six CTR
commands. -/

namespace Sys2Proof.Machine

/-- `prefix(CB)` (R163): the fixed 96-bit per-session prefix, bytes 0 to 11. -/
def cbPrefix (cb : Block) : BitVec 96 := cb.extractLsb' 32 96

/-- `ctr(CB)` (R163): the 32-bit counter field, bytes 12 to 15 read big-endian. -/
def cbCtr (cb : Block) : Word := cb.extractLsb' 0 32

/-- `setctr(CB, c)` (R163). -/
def setCtr (cb : Block) (c : Word) : Block := cbPrefix cb ++ c

/-- `inc(CB)` (R163): the counter field plus 1 modulo 2^32, with no carry into the prefix (R174). -/
def incCb (cb : Block) : Block := setCtr cb (cbCtr cb + 1)

/-- The number of keystream blocks for `n` bytes (R164): `ceil(n / 16)`. -/
def blockCount (n : Nat) : Nat := (n + 15) / 16

/-- What `CTRSTREAM` (R164) returns: the output, the counter block after it and the last keystream block (none when
there was no block); or the failure of the first request that did not end `ok` (R176). -/
inductive StreamResult where
  | done (out : List Byte) (cb : Block) (ks : Option Block) (p : PrimPort)
  | failed (e : ErrCode) (r : Residue) (p : PrimPort)

/-- The block loop of `CTRSTREAM` (R164) over `n` blocks: the requests are made in increasing order (R149), the counter
is incremented after every block, and the XOR takes as many keystream bytes as input is left (R173). -/
def ctrBlocks (key : Block) : Nat → Block → List Byte → PrimPort → StreamResult
  | 0, cb, _, p => .done [] cb none p
  | n + 1, cb, x, p =>
    match p.requestBlock key cb with
    | .failed e r p1 => .failed e r p1
    | .ok ks p1 =>
      match ctrBlocks key n (incCb cb) (x.drop 16) p1 with
      | .failed e r p2 => .failed e r p2
      | .done y cb' last p2 => .done (xorBytes (x.take 16) (toBytes 16 ks) ++ y) cb' (some (last.getD ks)) p2

/-- `CTRSTREAM(K, CB_0, X)` (R164). -/
def ctrStream (key cb : Block) (x : List Byte) (p : PrimPort) : StreamResult :=
  ctrBlocks key (blockCount x.length) cb x p

/-- A slot after a successful stream (R165, R170): the next counter block, and the last keystream block if there was
one. -/
def Slot.advance (x : Slot) (cb : Block) (ks : Option Block) : Slot :=
  { x with cb := cb, ksLast := ks.getD x.ksLast }

/-- CTR_SET_KEY (R167): the key is immutable once set, so the slot must have none. -/
def execCtrSetKey (slot : BitVec 4) (s : State) : Host.Outcome State Fault Refusal :=
  .next <|
    require (s.hasSlot slot) .illegalCommand s <|
    require ((s.srcFixed Config.keyBytes).inRange s.cfg) .badBuffer s <|
    require (!(s.slot slot).encValid) .badState s <|
    (s.setSlot slot { s.slot slot with
      encKey := ofBytes 128 (s.readBuf (s.srcFixed Config.keyBytes)), encValid := true, ksLast := 0 }).complete .ok

/-- CTR_SET_IV (R168): the whole counter block, at any time. -/
def execCtrSetIv (slot : BitVec 4) (s : State) : Host.Outcome State Fault Refusal :=
  .next <|
    require (s.hasSlot slot) .illegalCommand s <|
    require ((s.srcFixed Config.blockBytes).inRange s.cfg) .badBuffer s <|
    (s.setSlot slot { s.slot slot with
      cb := ofBytes 128 (s.readBuf (s.srcFixed Config.blockBytes)) }).complete .ok

/-- CTR_SET_COUNTER (R169): the counter field only. -/
def execCtrSetCounter (slot : BitVec 4) (s : State) : Host.Outcome State Fault Refusal :=
  .next <|
    require (s.hasSlot slot) .illegalCommand s <|
    (s.setSlot slot { s.slot slot with cb := setCtr (s.slot slot).cb s.counter }).complete .ok

/-- V4 of CTR_ENCRYPT and CTR_DECRYPT (R170): both buffers in range, in place or apart. -/
def ctrBuffers (s : State) : Bool :=
  s.srcBuf.inRange s.cfg && s.dstBuf.inRange s.cfg && s.srcBuf.inPlaceOrApart s.dstBuf

/-- The execution step of CTR_ENCRYPT and CTR_DECRYPT (R170); on a failed request the slot keeps its values (R176) and
the output bytes are unspecified (R297). -/
def ctrRun (slot : BitVec 4) (s : State) : State :=
  match ctrStream (s.slot slot).encKey (s.slot slot).cb (s.readBuf s.srcBuf) s.prim with
  | .done y cb ks p =>
    (({ s with prim := p }.writeBuf s.dstBuf y).setSlot slot ((s.slot slot).advance cb ks)).complete .ok
  | .failed e r p => ({ s with prim := p }.writeBuf s.dstBuf (r.bytes s.len)).complete e

/-- CTR_ENCRYPT and CTR_DECRYPT, which are one function (R170, R171): the zero-length shortcut V2 (R166) comes before
every check but V1. -/
def ctrCommand (slot : BitVec 4) (s : State) : State :=
  require (s.hasSlot slot) .illegalCommand s <|
  if s.len = 0 then s.complete .ok
  else
    require (ctrBuffers s) .badBuffer s <|
    require ((s.slot slot).encValid && s.bcArmed) .badState s <|
    ctrRun slot s

/-- CTR_ENCRYPT (R170). -/
def execCtrEncrypt (slot : BitVec 4) (s : State) : Host.Outcome State Fault Refusal :=
  .next (ctrCommand slot s)

/-- CTR_DECRYPT (R171). -/
def execCtrDecrypt (slot : BitVec 4) (s : State) : Host.Outcome State Fault Refusal :=
  .next (ctrCommand slot s)

/-- CTR_GET_STATE (R172): `CB ‖ KS_LAST`, 32 bytes, whether or not the slot has a key. -/
def execCtrGetState (slot : BitVec 4) (s : State) : Host.Outcome State Fault Refusal :=
  .next <|
    require (s.hasSlot slot) .illegalCommand s <|
    require ((s.dstFixed 32).inRange s.cfg) .badBuffer s <|
    (s.writeBuf (s.dstFixed 32) (toBytes 16 (s.slot slot).cb ++ toBytes 16 (s.slot slot).ksLast)).complete .ok

end Sys2Proof.Machine
end

