-- ==== Sys2Proof/Machine/Sha256.lean ====
section
/-! DEFINITION. SHA-256, the core's internal compression hash (43_sha256.md R191 to R202), in its one-shot and its
incremental form. It has no command and no register of its own (R204). -/

namespace Sys2Proof.Machine

/-- `ROTR(x, n)` (R193). -/
def rotr (x : Word) (n : Nat) : Word := (x >>> n) ||| (x <<< (32 - n))

/-- `Ch` (R193). -/
def ch (x y z : Word) : Word := (x &&& y) ^^^ (~~~x &&& z)

/-- `Maj` (R193). -/
def maj (x y z : Word) : Word := (x &&& y) ^^^ (x &&& z) ^^^ (y &&& z)

/-- `Σ0` (R193). -/
def bigSigma0 (x : Word) : Word := rotr x 2 ^^^ rotr x 13 ^^^ rotr x 22

/-- `Σ1` (R193). -/
def bigSigma1 (x : Word) : Word := rotr x 6 ^^^ rotr x 11 ^^^ rotr x 25

/-- `σ0` (R193). -/
def smallSigma0 (x : Word) : Word := rotr x 7 ^^^ rotr x 18 ^^^ (x >>> 3)

/-- `σ1` (R193). -/
def smallSigma1 (x : Word) : Word := rotr x 17 ^^^ rotr x 19 ^^^ (x >>> 10)

/-- The round constants `K[0..63]` (R194), eight per line. -/
def roundConstants : List Word :=
  [0x428a2f98, 0x71374491, 0xb5c0fbcf, 0xe9b5dba5, 0x3956c25b, 0x59f111f1, 0x923f82a4, 0xab1c5ed5] ++
  [0xd807aa98, 0x12835b01, 0x243185be, 0x550c7dc3, 0x72be5d74, 0x80deb1fe, 0x9bdc06a7, 0xc19bf174] ++
  [0xe49b69c1, 0xefbe4786, 0x0fc19dc6, 0x240ca1cc, 0x2de92c6f, 0x4a7484aa, 0x5cb0a9dc, 0x76f988da] ++
  [0x983e5152, 0xa831c66d, 0xb00327c8, 0xbf597fc7, 0xc6e00bf3, 0xd5a79147, 0x06ca6351, 0x14292967] ++
  [0x27b70a85, 0x2e1b2138, 0x4d2c6dfc, 0x53380d13, 0x650a7354, 0x766a0abb, 0x81c2c92e, 0x92722c85] ++
  [0xa2bfe8a1, 0xa81a664b, 0xc24b8b70, 0xc76c51a3, 0xd192e819, 0xd6990624, 0xf40e3585, 0x106aa070] ++
  [0x19a4c116, 0x1e376c08, 0x2748774c, 0x34b0bcb5, 0x391c0cb3, 0x4ed8aa4a, 0x5b9cca4f, 0x682e6ff3] ++
  [0x748f82ee, 0x78a5636f, 0x84c87814, 0x8cc70208, 0x90befffa, 0xa4506ceb, 0xbef9a3f7, 0xc67178f2]

/-- The eight chaining words `H0..H7` (and the working words `a..h`) of SHA-256. -/
structure ChainValue where
  a : Word
  b : Word
  c : Word
  d : Word
  e : Word
  f : Word
  g : Word
  h : Word
deriving DecidableEq, Repr

/-- `IV256` (R195). -/
def iv256 : ChainValue :=
  { a := 0x6a09e667, b := 0xbb67ae85, c := 0x3c6ef372, d := 0xa54ff53a,
    e := 0x510e527f, f := 0x9b05688c, g := 0x1f83d9ab, h := 0x5be0cd19 }

/-- The 16 message words of a 64-byte block, each big-endian (R192). -/
def blockWords (b : List Byte) : List Word :=
  (List.range 16).map fun t => ofBytes 32 ((b.drop (4 * t)).take 4)

/-- `n` more words of the message schedule (R197) in front of `ws`, the words so far with the newest first:
`W[t-2]`, `W[t-7]`, `W[t-15]` and `W[t-16]` are its entries 1, 6, 14 and 15. -/
def extendSchedule : Nat → List Word → List Word
  | 0, ws => ws
  | n + 1, ws =>
    extendSchedule n
      ((smallSigma1 (ws.getD 1 0) + ws.getD 6 0 + smallSigma0 (ws.getD 14 0) + ws.getD 15 0) :: ws)

/-- The message schedule `W[0..63]` of a 64-byte block (R197). -/
def schedule (b : List Byte) : List Word :=
  (extendSchedule 48 (blockWords b).reverse).reverse

/-- One round of `COMPRESS` (R198), for a round constant and a schedule word. -/
def compressRound (v : ChainValue) (kw : Word × Word) : ChainValue :=
  let t1 := v.h + bigSigma1 v.e + ch v.e v.f v.g + kw.1 + kw.2
  let t2 := bigSigma0 v.a + maj v.a v.b v.c
  { a := t1 + t2, b := v.a, c := v.b, d := v.c, e := v.d + t1, f := v.e, g := v.f, h := v.g }

/-- `COMPRESS(H, B)` (R198). -/
def compress (v : ChainValue) (b : List Byte) : ChainValue :=
  let r := (roundConstants.zip (schedule b)).foldl compressRound v
  { a := v.a + r.a, b := v.b + r.b, c := v.c + r.c, d := v.d + r.d,
    e := v.e + r.e, f := v.f + r.f, g := v.g + r.g, h := v.h + r.h }

/-- `COMPRESS` over the first `n` 64-byte blocks of `p`, in order (R200). -/
def compressBlocks : Nat → ChainValue → List Byte → ChainValue
  | 0, v, _ => v
  | n + 1, v, p => compressBlocks n (compress v (p.take 64)) (p.drop 64)

/-- `DIGEST(H)` (R199). -/
def digest (v : ChainValue) : List Byte :=
  be32 v.a ++ be32 v.b ++ be32 v.c ++ be32 v.d ++ be32 v.e ++ be32 v.f ++ be32 v.g ++ be32 v.h

/-- The padding after a message of `l` bytes (R196): `0x80`, then `z = (55 - l) mod 64` zero bytes, then the bit count
as 8 big-endian bytes. -/
def padTail (l : Nat) : List Byte :=
  [0x80] ++ zeros ((119 - l % 64) % 64) ++ be64 (8 * l)

/-- `PAD(M)` (R196). -/
def pad (m : List Byte) : List Byte := m ++ padTail m.length

/-- `SHA256(M)` (R200): 32 bytes. -/
def sha256 (m : List Byte) : List Byte :=
  digest (compressBlocks ((pad m).length / 64) iv256 (pad m))

/-- The streaming state of R201, and the inner-hash registers `HH`, `HBUF`, `HCOUNT` of R36. -/
structure ShaStream where
  chain : ChainValue
  buf : List Byte
  count : Nat
deriving DecidableEq, Repr

/-- `SHA_START()` (R201). -/
def shaStart : ShaStream := { chain := iv256, buf := [], count := 0 }

/-- `SHA_ABSORB` (R201): whole 64-byte blocks are compressed, the rest is kept. -/
def shaAbsorb (s : ShaStream) (x : List Byte) : ShaStream :=
  let b := s.buf ++ x
  let n := b.length / 64
  { chain := compressBlocks n s.chain b, buf := b.drop (64 * n), count := s.count + x.length }

/-- `SHA_FINISH` (R201). -/
def shaFinish (s : ShaStream) : List Byte :=
  let t := s.buf ++ padTail s.count
  digest (compressBlocks (t.length / 64) s.chain t)

end Sys2Proof.Machine
end

