-- ==== Sys2Proof/Machine/Hmac.lean ====
section
/-! DEFINITION. The keyed-hash engine (44_hmac.md R211 to R225): HMAC-SHA256, the three HMAC commands over the abstract
context (10_state.md R35), and the concrete context registers (R36, R223) beside it. -/

namespace Sys2Proof.Machine

/-- The key block `K0(K)` (R212): 64 bytes. -/
def keyBlock (k : List Byte) : List Byte :=
  if Config.hashBlock < k.length then sha256 k ++ zeros (Config.hashBlock - Config.hashLen)
  else k ++ zeros (Config.hashBlock - k.length)

/-- The inner pad key `IPK = K0 ⊕ ipad` (R213, R214). -/
def innerPad (k0 : List Byte) : List Byte := k0.map (· ^^^ 0x36)

/-- The outer pad key `OPK = K0 ⊕ opad` (R213, R214). -/
def outerPad (k0 : List Byte) : List Byte := k0.map (· ^^^ 0x5c)

/-- HMAC from a key block (R216, R219). -/
def hmacOfBlock (k0 m : List Byte) : List Byte := sha256 (outerPad k0 ++ sha256 (innerPad k0 ++ m))

/-- `HMAC(K, M)` (R216): 32 bytes. -/
def hmac (k m : List Byte) : List Byte := hmacOfBlock (keyBlock k) m

/-- `HMAC(AUTH_KEY, M)` (R264): the authentication key is a 32-byte HMAC key, in a context of its own. -/
def hmacAuth (k : AuthKey) (m : List Byte) : List Byte := hmac (toBytes 32 k) m

/-- HMAC_INIT (R217): legal whether or not a context is active; a previous one is discarded. -/
def execHmacInit (s : State) : Host.Outcome State Fault Refusal :=
  .next <|
    require (s.srcBuf.inRange s.cfg) .badBuffer s <|
    { s with hctx := .active (keyBlock (s.readBuf s.srcBuf)) [] }.complete .ok

/-- V3 of HMAC_UPDATE (R218): an active stream stays within `HMAC_MSG_MAX`; with no context V3 passes. -/
def hmacLengthOk (s : State) : Bool :=
  match s.hctx with
  | .idle => true
  | .active _ m => decide (m.length + s.len ≤ Config.hmacMsgMax)

/-- HMAC_UPDATE from V5 on (R218): without an active context ERR_BAD_STATE, else the bytes are absorbed. -/
def hmacUpdateRun (s : State) : State :=
  match s.hctx with
  | .idle => s.complete .badState
  | .active k0 m => { s with hctx := .active k0 (m ++ s.readBuf s.srcBuf) }.complete .ok

/-- HMAC_UPDATE (R218). -/
def execHmacUpdate (s : State) : Host.Outcome State Fault Refusal :=
  .next <|
    require (hmacLengthOk s) .invalidLength s <|
    require (s.srcBuf.inRange s.cfg) .badBuffer s <|
    hmacUpdateRun s

/-- HMAC_FINAL from V5 on (R219): the whole 32-byte tag is written and the context is consumed. -/
def hmacFinalRun (s : State) : State :=
  match s.hctx with
  | .idle => s.complete .badState
  | .active k0 m =>
    ({ s with hctx := .idle }.writeBuf (s.dstFixed Config.hashLen) (hmacOfBlock k0 m)).complete .ok

/-- HMAC_FINAL (R219). -/
def execHmacFinal (s : State) : Host.Outcome State Fault Refusal :=
  .next <|
    require ((s.dstFixed Config.hashLen).inRange s.cfg) .badBuffer s <|
    hmacFinalRun s

/-! ### The concrete context (R36, R223) -/

/-- The concrete HMAC registers of R36: the inner hash's `HH`, `HBUF`, `HCOUNT`, and `HOPAD`. -/
structure HmacRegs where
  inner : ShaStream
  opad : List Byte
deriving DecidableEq, Repr

/-- HMAC_INIT on the concrete registers (R223). -/
def HmacRegs.start (k0 : List Byte) : HmacRegs :=
  { inner := { chain := compress iv256 (innerPad k0), buf := [], count := 64 }, opad := outerPad k0 }

/-- HMAC_UPDATE on the concrete registers (R223). -/
def HmacRegs.absorb (r : HmacRegs) (x : List Byte) : HmacRegs := { r with inner := shaAbsorb r.inner x }

/-- The tag HMAC_FINAL computes from the concrete registers (R223). -/
def HmacRegs.tag (r : HmacRegs) : List Byte := sha256 (r.opad ++ shaFinish r.inner)

end Sys2Proof.Machine
end

