-- ==== Sys2Proof/Machine/Codec.lean ====
section
/-! DEFINITION. Session slots and the authenticated payload codec (46_codec.md R256 to R276): SESSION_LOAD,
SESSION_CLEAR, SEAL and OPEN. -/

namespace Sys2Proof.Machine

/-- `enc_ctr(c)` (R258): the four wire bytes of a counter. -/
def encCtr (o : WireOrder) (c : Word) : List Byte :=
  match o with
  | .be => be32 c
  | .le => le32 c

/-- `TAG = trunc_TAG_LEN(HMAC(AUTH_KEY, CT ‖ enc_ctr(c)))` (R256, R257, R264): the whole 32 bytes are computed, the
leftmost `TAG_LEN` kept. -/
def payloadTag (p : Params) (k : AuthKey) (ct : List Byte) (c : Word) : List Byte :=
  (hmacAuth k (ct ++ encCtr p.wireOrder c)).take p.tagLen

/-- The sealed payload `CT ‖ WCTR ‖ TAG` (R256). -/
def payload (p : Params) (k : AuthKey) (ct : List Byte) (c : Word) : List Byte :=
  ct ++ encCtr p.wireOrder c ++ payloadTag p k ct c

/-- `CTEQ(T, R)` (R270): an OR-accumulator over every byte, with no early exit. -/
def ctEq (t r : List Byte) : Bool := (xorBytes t r).foldl (· ||| ·) 0 == 0

/-- The slot a session image loads (R260): cipher key 16, authentication key 32, nonce 16. -/
def Slot.ofImage (m : List Byte) : Slot :=
  { encKey := ofBytes 128 (m.take 16), encValid := true, cb := ofBytes 128 ((m.drop 48).take 16), ksLast := 0,
    authKey := ofBytes 256 ((m.drop 16).take 32), authValid := true }

/-- SESSION_LOAD (R260): keys are immutable once set, so the slot must be empty. -/
def execSessionLoad (slot : BitVec 4) (s : State) : Host.Outcome State Fault Refusal :=
  .next <|
    require (s.hasSlot slot) .illegalCommand s <|
    require ((s.srcFixed Config.sessionBytes).inRange s.cfg) .badBuffer s <|
    require (!(s.slot slot).encValid && !(s.slot slot).authValid) .badState s <|
    (s.setSlot slot (Slot.ofImage (s.readBuf (s.srcFixed Config.sessionBytes)))).complete .ok

/-- SESSION_CLEAR (R261): every field of the slot is zeroed; legal on an empty slot. -/
def execSessionClear (slot : BitVec 4) (s : State) : Host.Outcome State Fault Refusal :=
  .next <|
    require (s.hasSlot slot) .illegalCommand s <|
    (s.setSlot slot Slot.empty).complete .ok

/-- V5 of SEAL and OPEN (R263, R268): both keys, and the armed primitive if there may be a block request. -/
def codecReady (slot : BitVec 4) (s : State) : Bool :=
  (s.slot slot).encValid && (s.slot slot).authValid && (decide (s.len = 0) || s.bcArmed)

/-- The CTR stream of SEAL and OPEN (R262): from the slot's prefix and the counter operand. -/
def codecStream (slot : BitVec 4) (s : State) : StreamResult :=
  ctrStream (s.slot slot).encKey (setCtr (s.slot slot).cb s.counter) (s.readBuf s.srcBuf) s.prim

/-- V4 of SEAL (R263): plaintext and whole payload in range, in place or apart. -/
def sealBuffers (s : State) : Bool :=
  s.srcBuf.inRange s.cfg && s.payloadBuf.inRange s.cfg && s.srcBuf.inPlaceOrApart s.payloadBuf

/-- The execution step of SEAL (R263): the phases CP_CTR, CP_MAC, CP_WRITE of R272. A failed request leaves the slot
unchanged and the payload bytes unspecified (R297); `HCTX` is IDLE either way (R222). -/
def sealRun (slot : BitVec 4) (s : State) : State :=
  match codecStream slot s with
  | .done ct cb ks p =>
    (({ s with prim := p, hctx := .idle }.writeBuf s.payloadBuf
        (payload s.cfg (s.slot slot).authKey ct s.counter)).setSlot slot ((s.slot slot).advance cb ks)).complete .ok
  | .failed e r p =>
    ({ s with prim := p, hctx := .idle }.writeBuf s.payloadBuf (r.bytes s.payloadLen)).complete e

/-- SEAL (R263). -/
def execSealPayload (slot : BitVec 4) (s : State) : Host.Outcome State Fault Refusal :=
  .next <|
    require (s.hasSlot slot) .illegalCommand s <|
    require (sealBuffers s) .badBuffer s <|
    require (codecReady slot s) .badState s <|
    sealRun slot s

/-- V4 of OPEN (R268): ciphertext, plaintext and tag in range; ciphertext and plaintext in place or apart; plaintext
and tag apart. -/
def openBuffers (s : State) : Bool :=
  s.srcBuf.inRange s.cfg && s.dstBuf.inRange s.cfg && s.tagBuf.inRange s.cfg &&
    s.srcBuf.inPlaceOrApart s.dstBuf && !(s.dstBuf.overlaps s.tagBuf)

/-- The comparison of OPEN (R268): the tag recomputed over the ciphertext and the counter operand, with the received
tag. -/
def tagMatches (slot : BitVec 4) (s : State) : Bool :=
  ctEq (payloadTag s.cfg (s.slot slot).authKey (s.readBuf s.srcBuf) s.counter) (s.readBuf s.tagBuf)

/-- The decryption of OPEN after a match (R268, R272). -/
def openDecrypt (slot : BitVec 4) (s : State) : State :=
  match codecStream slot s with
  | .done pt cb ks p =>
    (({ s with prim := p, hctx := .idle }.writeBuf s.dstBuf pt).setSlot slot ((s.slot slot).advance cb ks)).complete .ok
  | .failed e r p =>
    ({ s with prim := p, hctx := .idle }.writeBuf s.dstBuf (r.bytes s.len)).complete e

/-- The execution step of OPEN (R268): verify, then decrypt. On a mismatch no request is made and nothing is written
but STATUS and `HCTX` (R271, R298). -/
def openRun (slot : BitVec 4) (s : State) : State :=
  if tagMatches slot s then openDecrypt slot s
  else { s with hctx := .idle }.complete .authFailure

/-- OPEN (R268). -/
def execOpenPayload (slot : BitVec 4) (s : State) : Host.Outcome State Fault Refusal :=
  .next <|
    require (s.hasSlot slot) .illegalCommand s <|
    require (openBuffers s) .badBuffer s <|
    require (codecReady slot s) .badState s <|
    openRun slot s

end Sys2Proof.Machine
end

