-- ==== Sys2Proof/Machine/Hkdf.lean ====
section
/-! DEFINITION. The key-derivation engine (45_hkdf.md R236 to R245): HKDF_EXTRACT and HKDF_EXPAND. -/

namespace Sys2Proof.Machine

/-- `EXTRACT(salt, IKM)` (R237): an empty salt stands for 32 zero bytes. -/
def hkdfExtract (salt ikm : List Byte) : List Byte :=
  hmac (if salt.length = 0 then zeros Config.hashLen else salt) ikm

/-- The passes X1 and X2 of the expand sequence (R242): `n` more blocks from the iteration byte `i` on, after the block
`t`. -/
def expandBlocks (prk info : List Byte) : Nat → Nat → List Byte → List Byte
  | 0, _, _ => []
  | n + 1, i, t =>
    let t' := hmac prk (t ++ info ++ [BitVec.ofNat 8 i])
    t' ++ expandBlocks prk info n (i + 1) t'

/-- `EXPAND(PRK, info, L)` (R237): `ceil(L / 32)` blocks from `i = 1` and `T(0)` empty, cut to `L` bytes. -/
def hkdfExpand (prk info : List Byte) (l : Nat) : List Byte :=
  (expandBlocks prk info ((l + 31) / 32) 1 []).take l

/-- V4 of HKDF_EXTRACT (R238): the three buffers in range, the output apart from salt and IKM. -/
def hkdfExtractBuffers (s : State) : Bool :=
  s.srcBuf.inRange s.cfg && s.auxBuf.inRange s.cfg && (s.dstFixed Config.hashLen).inRange s.cfg &&
    !((s.dstFixed Config.hashLen).overlaps s.srcBuf) && !((s.dstFixed Config.hashLen).overlaps s.auxBuf)

/-- HKDF_EXTRACT (R238): the PRK goes to DBUF; a host HMAC stream is lost (R222). -/
def execHkdfExtract (s : State) : Host.Outcome State Fault Refusal :=
  .next <|
    require (hkdfExtractBuffers s) .badBuffer s <|
    ({ s with hctx := .idle }.writeBuf (s.dstFixed Config.hashLen)
      (hkdfExtract (s.readBuf s.srcBuf) (s.readBuf s.auxBuf))).complete .ok

/-- V4 of HKDF_EXPAND (R240): PRK, info and output in range, the output apart from PRK and info. -/
def hkdfExpandBuffers (s : State) : Bool :=
  (s.srcFixed Config.hashLen).inRange s.cfg && s.auxBuf.inRange s.cfg && s.dstBuf.inRange s.cfg &&
    !(s.dstBuf.overlaps (s.srcFixed Config.hashLen)) && !(s.dstBuf.overlaps s.auxBuf)

/-- HKDF_EXPAND (R240): the ceiling V3 is checked before the buffers; `L = 0` writes nothing (R244). -/
def execHkdfExpand (s : State) : Host.Outcome State Fault Refusal :=
  .next <|
    require (decide (s.len ≤ Config.hkdfMax)) .invalidLength s <|
    require (hkdfExpandBuffers s) .badBuffer s <|
    ({ s with hctx := .idle }.writeBuf s.dstBuf
      (hkdfExpand (s.readBuf (s.srcFixed Config.hashLen)) (s.readBuf s.auxBuf) s.len)).complete .ok

end Sys2Proof.Machine
end

