-- ==== Sys2Proof/Machine/System.lean ====
section
/-! DEFINITION. NOP (40_command_cycle.md R131), the core's one command without an engine (R307). -/

namespace Sys2Proof.Machine

/-- NOP (R131): no effect but completing with ERR_OK. -/
def execNop (s : State) : Host.Outcome State Fault Refusal := .next (s.complete .ok)

end Sys2Proof.Machine
end

