-- ==== Sys2Proof/Machine/Dispatch.lean ====
section
/-! DEFINITION. The engine's completion step of each command (40_command_cycle.md R126, R129): one arm per command. -/

namespace Sys2Proof.Machine

def exec (i : Instr) (s : State) : Host.Outcome State Fault Refusal :=
  match i with
  | .nop => Sys2Proof.Machine.execNop s
  | .bcInit => Sys2Proof.Machine.execBcInit s
  | .bcEncryptBlock slot => Sys2Proof.Machine.execBcEncryptBlock slot s
  | .ctrSetKey slot => Sys2Proof.Machine.execCtrSetKey slot s
  | .ctrSetIv slot => Sys2Proof.Machine.execCtrSetIv slot s
  | .ctrSetCounter slot => Sys2Proof.Machine.execCtrSetCounter slot s
  | .ctrEncrypt slot => Sys2Proof.Machine.execCtrEncrypt slot s
  | .ctrDecrypt slot => Sys2Proof.Machine.execCtrDecrypt slot s
  | .ctrGetState slot => Sys2Proof.Machine.execCtrGetState slot s
  | .hmacInit => Sys2Proof.Machine.execHmacInit s
  | .hmacUpdate => Sys2Proof.Machine.execHmacUpdate s
  | .hmacFinal => Sys2Proof.Machine.execHmacFinal s
  | .hkdfExtract => Sys2Proof.Machine.execHkdfExtract s
  | .hkdfExpand => Sys2Proof.Machine.execHkdfExpand s
  | .sessionLoad slot => Sys2Proof.Machine.execSessionLoad slot s
  | .sessionClear slot => Sys2Proof.Machine.execSessionClear slot s
  | .sealPayload slot => Sys2Proof.Machine.execSealPayload slot s
  | .openPayload slot => Sys2Proof.Machine.execOpenPayload slot s

end Sys2Proof.Machine
end

