-- ==== Sys2Proof/Machine/Step.lean ====
section
/-! DEFINITION. One step of the machine: the host's next access, a reset, or the engine's completion step
(00_scope.md R14, 40_command_cycle.md R127, 60_exceptions.md R303). -/

namespace Sys2Proof.Machine

/-- The engine's turn: nothing to do when IDLE; when BUSY the latched word is decoded, an illegal word ends with
ERR_ILLEGAL_COMMAND (V1, R98), and any other command runs from acceptance to completion in one step (R127). -/
def engineStep (s : State) : Host.Outcome State Fault Refusal :=
  match s.seq with
  | .idle => .next s
  | .busy =>
    match decode s.cmdL with
    | .ok i => exec i s
    | .error _ => .next (s.complete .illegalCommand)

/-- One step: what the outside does next, in the order State lists it; the engine moves when nothing is listed. -/
def step (s : State) : Host.Outcome State Fault Refusal :=
  match s.inputs with
  | [] => engineStep s
  | .engine :: rest => engineStep { s with inputs := rest }
  | .access a :: rest => .next (hostAccess { s with inputs := rest } a)
  | .reset draw :: rest => .next ({ s with inputs := rest }.resetBy draw)

/-- The state in which the very next step runs the command word of the `nbits` bits `w`: that word has just been
accepted (R121), and the outside does nothing before the engine moves. DESIGN CHOICE, notes 8. -/
def State.withFetchWord (s : State) (nbits w : Nat) : State :=
  { s with inputs := [] }.accept (BitVec.ofNat 32 (w % 2 ^ nbits))

end Sys2Proof.Machine
end

