-- ==== Sys2Proof/WellFormed.lean ====
section
/-! DEFINITION. Well-formed commands (30_encoding.md R93): the one check that depends on a parameter, that a slot
command names a slot the core has. Every other condition on a command word is settled by decoding (R100). -/

namespace Sys2Proof

/-- R93: a slot command's index is below `N_SESSIONS`; the other commands have no index to check. -/
def Instr.wellFormed (p : Params) (i : Instr) : Bool :=
  match i.slot? with
  | none => true
  | some s => decide (s.toNat < p.nSessions)

end Sys2Proof
end

