-- ==== Sys2Proof/Safety.lean ====
section
/-! DEFINITION. The terms claims use: the invariant of the machine, what a command leaves unchanged, when the primitive
answers, the keystream as a function, and the causes of the validation errors as the spec's tables list them. Nothing
here is used by the machine. -/

namespace Sys2Proof.Machine

/-! ### The invariant -/

/-- A slot the commands can leave (R27, R29, R44, R259): an unset key is zero, and there is no authentication key
without a cipher key. -/
abbrev Slot.Legal (x : Slot) : Prop :=
  (x.encValid = false → x.encKey = 0) ∧ (x.authValid = false → x.authKey = 0) ∧
    (x.authValid = true → x.encValid = true)

/-- A context the commands can leave (R35, R212, R218): the key block has 64 bytes, the message is within its ceiling. -/
def Hctx.legal (h : Hctx) : Bool :=
  match h with
  | .idle => true
  | .active k0 m => decide (k0.length = 64) && decide (m.length ≤ Config.hmacMsgMax)

/-- The invariant of the core: legal parameters, one slot per session, legal slots, a legal context, DBUF canonical and
inside `BUF_BYTES`, and while a command runs DONE and ERR read 0 (R121, R330). -/
abbrev State.Inv (s : State) : Prop :=
  s.cfg.Legal ∧ s.slots.length = s.cfg.nSessions ∧ (∀ x ∈ s.slots, x.Legal) ∧ s.hctx.legal = true ∧
    s.dbuf.wf s.cfg.bufBytes = true ∧ (s.seq = .busy → s.done = false ∧ s.err = .ok)

/-! ### What a command leaves -/

/-- The command ended with the code `e` (R127). -/
abbrev Ended (e : ErrCode) (t : State) : Prop := t.err = e ∧ t.done = true ∧ t.seq = .idle

/-- What no command writes (R22, R130): the parameters, CMD_L, ARG_L, ARG, CMD_OVF, BUSY_ACC, IRQ_EN, and the outside's
own fields. -/
abbrev SameHostSide (s t : State) : Prop :=
  t.cfg = s.cfg ∧ t.cmdL = s.cmdL ∧ t.argL = s.argL ∧ t.args = s.args ∧ t.cmdOvf = s.cmdOvf ∧
    t.busyAcc = s.busyAcc ∧ t.irqEn = s.irqEn ∧ t.inputs = s.inputs ∧ t.busReply = s.busReply

/-- Every slot but `i` is as before. -/
abbrev SameSlotsBut (i : BitVec 4) (s t : State) : Prop :=
  t.slots.length = s.slots.length ∧ ∀ j : BitVec 4, j ≠ i → t.slot j = s.slot j

/-- Every DBUF byte reads as before. -/
abbrev SameDbuf (s t : State) : Prop := ∀ a : Nat, t.dbuf.read a = s.dbuf.read a

/-- Every DBUF byte outside the `n` bytes at `off` reads as before. -/
abbrev SameDbufOutside (off n : Nat) (s t : State) : Prop :=
  ∀ a : Nat, a < off ∨ off + n ≤ a → t.dbuf.read a = s.dbuf.read a

/-! ### The primitive and the keystream -/

/-- The next `n` requests are answered `ok`: State lists a reply for each, and each ends so within the budget. -/
abbrev PrimPort.okFor (p : PrimPort) (n : Nat) : Prop :=
  n ≤ p.replies.length ∧ ∀ r ∈ p.replies.take n, pollAnswer Config.retryBudget r.samples = .ok

/-- Request number `j`, counted from 0, is the first that fails: State lists `ok` replies for the `j` before it, and for
it the reply `x`, which does not end `ok` within the budget. -/
abbrev PrimPort.failsAt (p : PrimPort) (j : Nat) (x : Reply) : Prop :=
  p.okFor j ∧ p.replies[j]? = some x ∧ pollAnswer Config.retryBudget x.samples ≠ .ok

/-- The counter block `n` blocks after `cb`: the counter field plus `n` modulo 2^32, the same prefix (R163, R165). -/
def incBy (cb : Block) (n : Nat) : Block := setCtr cb (cbCtr cb + BitVec.ofNat 32 n)

/-- The wire counter (R258), spelled out. -/
def wireCounter (p : Params) (c : Word) : List Byte :=
  if p.wireOrder = .be then toBytes 4 c else (toBytes 4 c).reverse

/-- The first `n` counter blocks from `cb` on, in order (R149, R164). -/
def counterBlocks (cb : Block) (n : Nat) : List Block := (List.range n).map (incBy cb)

/-- The first `n` keystream blocks as bytes (R162, R164). -/
def keystream (key cb : Block) (n : Nat) : List Byte :=
  ((counterBlocks cb n).map fun b => toBytes 16 (Config.E key b)).flatten

/-- CTR of `x` (R164): as many keystream bytes as there is input. -/
def ctrOf (key cb : Block) (x : List Byte) : List Byte :=
  xorBytes x (keystream key cb (blockCount x.length))

/-- The port after `n` block requests under `key` on the counter blocks from `cb` on. -/
def PrimPort.afterBlocks (p : PrimPort) (key cb : Block) (n : Nat) : PrimPort :=
  { replies := p.replies.drop n, sent := p.sent ++ (counterBlocks cb n).map (PortRequest.block key),
    draws := p.draws + n }

/-- A slot after CTR over `n` bytes from the counter block `cb` (R165, R170, R263): the next counter block, and the last
keystream block if there was one. -/
def Slot.afterCtr (x : Slot) (cb : Block) (n : Nat) : Slot :=
  { x with
    cb := incBy cb (blockCount n),
    ksLast := if n = 0 then x.ksLast else Config.E x.encKey (incBy cb (blockCount n - 1)) }

/-! ### What the host may see -/

/-- The state with every secret of R42 blanked: the keys of the slots, and what `HCTX` holds. -/
def State.publicView (s : State) : State :=
  { s with
    slots := s.slots.map fun x => { x with encKey := 0, authKey := 0 },
    hctx := match s.hctx with
      | .idle => .idle
      | .active _ _ => .active [] [] }

/-- The offsets of the registers (R102). -/
def registerOffsets : List Nat :=
  [0x000, 0x004, 0x008, 0x00C, 0x010, 0x014, 0x018, 0x020, 0x024, 0x028, 0x02C, 0x030]

/-- An access the core answers `ok` (R65, R67): a 4-byte access to a register, or a naturally aligned access inside
DBUF. -/
abbrev LegalAccess (p : Params) (off : Nat) (size : AccessSize) : Prop :=
  (size = .b4 ∧ off ∈ registerOffsets) ∨
    (0x10000 ≤ off ∧ (off - 0x10000) % size.bytes = 0 ∧ off - 0x10000 + size.bytes ≤ p.bufBytes)

/-! ### The causes of the validation errors -/

/-- The input buffers of a command, the primary one first (R95). -/
def inputsOf (i : Instr) (s : State) : List Buf :=
  match i with
  | .nop => []
  | .bcInit => []
  | .bcEncryptBlock _ => [⟨s.argL.a0.toNat, 16⟩]
  | .ctrSetKey _ => [⟨s.argL.a0.toNat, 16⟩]
  | .ctrSetIv _ => [⟨s.argL.a0.toNat, 16⟩]
  | .ctrSetCounter _ => []
  | .ctrEncrypt _ => [⟨s.argL.a0.toNat, s.argL.a2.toNat⟩]
  | .ctrDecrypt _ => [⟨s.argL.a0.toNat, s.argL.a2.toNat⟩]
  | .ctrGetState _ => []
  | .hmacInit => [⟨s.argL.a0.toNat, s.argL.a2.toNat⟩]
  | .hmacUpdate => [⟨s.argL.a0.toNat, s.argL.a2.toNat⟩]
  | .hmacFinal => []
  | .hkdfExtract => [⟨s.argL.a0.toNat, s.argL.a2.toNat⟩, ⟨s.argL.a3.toNat, s.argL.a4.toNat⟩]
  | .hkdfExpand => [⟨s.argL.a0.toNat, 32⟩, ⟨s.argL.a3.toNat, s.argL.a4.toNat⟩]
  | .sessionLoad _ => [⟨s.argL.a0.toNat, 64⟩]
  | .sessionClear _ => []
  | .sealPayload _ => [⟨s.argL.a0.toNat, s.argL.a2.toNat⟩]
  | .openPayload _ => [⟨s.argL.a0.toNat, s.argL.a2.toNat⟩, ⟨s.argL.a4.toNat, s.cfg.tagLen⟩]

/-- The output buffer of a command, if it has one (R95). -/
def outputOf (i : Instr) (s : State) : List Buf :=
  match i with
  | .nop => []
  | .bcInit => []
  | .bcEncryptBlock _ => [⟨s.argL.a1.toNat, 16⟩]
  | .ctrSetKey _ => []
  | .ctrSetIv _ => []
  | .ctrSetCounter _ => []
  | .ctrEncrypt _ => [⟨s.argL.a1.toNat, s.argL.a2.toNat⟩]
  | .ctrDecrypt _ => [⟨s.argL.a1.toNat, s.argL.a2.toNat⟩]
  | .ctrGetState _ => [⟨s.argL.a1.toNat, 32⟩]
  | .hmacInit => []
  | .hmacUpdate => []
  | .hmacFinal => [⟨s.argL.a1.toNat, 32⟩]
  | .hkdfExtract => [⟨s.argL.a1.toNat, 32⟩]
  | .hkdfExpand => [⟨s.argL.a1.toNat, s.argL.a2.toNat⟩]
  | .sessionLoad _ => []
  | .sessionClear _ => []
  | .sealPayload _ => [⟨s.argL.a1.toNat, s.argL.a2.toNat + 4 + s.cfg.tagLen⟩]
  | .openPayload _ => [⟨s.argL.a1.toNat, s.argL.a2.toNat⟩]

/-- The commands whose primary input may start where the output does (R73). -/
def mayRunInPlace (i : Instr) : Bool :=
  match i with
  | .bcEncryptBlock _ => true
  | .ctrEncrypt _ => true
  | .ctrDecrypt _ => true
  | .sealPayload _ => true
  | .openPayload _ => true
  | _ => false

/-- Two buffers share a byte. -/
abbrev Buf.Meets (a b : Buf) : Prop :=
  ∃ x : Nat, (a.off ≤ x ∧ x < a.off + a.len) ∧ (b.off ≤ x ∧ x < b.off + b.len)

/-- V4 fails (R72, R73): some buffer reaches past `BUF_BYTES`, or the output shares a byte with an input that is not
the primary one run in place. -/
abbrev BufferCause (i : Instr) (s : State) : Prop :=
  (∃ b ∈ inputsOf i s ++ outputOf i s, s.cfg.bufBytes < b.off + b.len) ∨
    (∃ o ∈ outputOf i s, ∃ b ∈ (inputsOf i s).take 1, b.Meets o ∧ ¬(mayRunInPlace i = true ∧ b.off = o.off)) ∨
    (∃ o ∈ outputOf i s, ∃ b ∈ (inputsOf i s).drop 1, b.Meets o)

/-- V3 fails (R294). -/
def LengthCause (i : Instr) (s : State) : Prop :=
  match i with
  | .hkdfExpand => 8160 < s.argL.a2.toNat
  | .hmacUpdate => ∃ k0 m, s.hctx = .active k0 m ∧ 2 ^ 61 - 65 < m.length + s.argL.a2.toNat
  | _ => False

/-- V5 fails (R295). -/
def StateCause (i : Instr) (s : State) : Prop :=
  match i with
  | .bcEncryptBlock n => (s.slot n).encValid = false ∨ s.bcArmed = false
  | .ctrSetKey n => (s.slot n).encValid = true
  | .ctrEncrypt n => (s.slot n).encValid = false ∨ s.bcArmed = false
  | .ctrDecrypt n => (s.slot n).encValid = false ∨ s.bcArmed = false
  | .hmacUpdate => s.hctx = .idle
  | .hmacFinal => s.hctx = .idle
  | .sessionLoad n => (s.slot n).encValid = true ∨ (s.slot n).authValid = true
  | .sealPayload n =>
    (s.slot n).encValid = false ∨ (s.slot n).authValid = false ∨ (0 < s.argL.a2.toNat ∧ s.bcArmed = false)
  | .openPayload n =>
    (s.slot n).encValid = false ∨ (s.slot n).authValid = false ∨ (0 < s.argL.a2.toNat ∧ s.bcArmed = false)
  | _ => False

/-- The tag check of OPEN fails (R268): the received tag is not the one the ciphertext and the counter operand give. -/
def TagCause (i : Instr) (s : State) : Prop :=
  match i with
  | .openPayload n =>
    s.dbuf.readBytes s.argL.a4.toNat s.cfg.tagLen ≠
      (hmac (toBytes 32 (s.slot n).authKey)
        (s.dbuf.readBytes s.argL.a0.toNat s.argL.a2.toNat ++ wireCounter s.cfg s.argL.a3)).take s.cfg.tagLen
  | _ => False

/-- The most requests a command makes (R128). -/
def requestBound (i : Instr) (s : State) : Nat :=
  match i with
  | .bcInit => 1
  | .bcEncryptBlock _ => 1
  | .ctrEncrypt _ => (s.argL.a2.toNat + 15) / 16
  | .ctrDecrypt _ => (s.argL.a2.toNat + 15) / 16
  | .sealPayload _ => (s.argL.a2.toNat + 15) / 16
  | .openPayload _ => (s.argL.a2.toNat + 15) / 16
  | _ => 0

/-- The zero-length shortcut V2 (R124, R166). -/
def ZeroLengthCtr (i : Instr) (s : State) : Prop :=
  match i with
  | .ctrEncrypt _ => s.argL.a2 = 0
  | .ctrDecrypt _ => s.argL.a2 = 0
  | _ => False

end Sys2Proof.Machine
end

