-- ==== Sys2Proof/Certificates/Slice0/Obligations.lean ====
section
/-! DEFINITION. The statements for the provers. Each is about every state, or every command, it can be about; the names
it uses beyond the machine's own are those of Sys2Proof/Safety.lean. -/

open Sys2Proof Sys2Proof.Machine

/-! ### Encoding and decoding (30_encoding.md) -/

/-- Decoding and encoding agree both ways, for every command with every SLOT value and for every command word. -/
def Obligations.DecodeAndEncodeAgree : Prop :=
  (∀ i : Instr, decode (encode i) = .ok i) ∧ ∀ (w : Word) (i : Instr), decode w = .ok i → encode i = w

/-- R100: a word selects the row its masked bits match, with the SLOT bits as operand; a word that matches no row is
illegal; the OPs of the rows differ, so no two rows match one word. The check against `N_SESSIONS` is no part of decoding. -/
def Obligations.DecodeFollowsMaskAndMatch : Prop :=
  (∀ w : Word,
    (∀ r ∈ opTable, w &&& (if r.slotted then 0xFFFFF0FF#32 else 0xFFFFFFFF#32) = r.op.setWidth 32 →
      decode w = .ok (r.build ((w >>> 8).setWidth 4))) ∧
    ((∀ r ∈ opTable, w &&& (if r.slotted then 0xFFFFF0FF#32 else 0xFFFFFFFF#32) ≠ r.op.setWidth 32) →
      ∃ e, decode w = .error e) ∧
    ∀ r ∈ opTable, ∀ q ∈ opTable,
      w &&& (if r.slotted then 0xFFFFF0FF#32 else 0xFFFFFFFF#32) = r.op.setWidth 32 →
      w &&& (if q.slotted then 0xFFFFF0FF#32 else 0xFFFFFFFF#32) = q.op.setWidth 32 → r = q) ∧
  (opTable.map fun r => r.op).Nodup

/-- Command words of the opcode map, one of each family, read as the table gives them, and three illegal words, which
are refused. The NAMES of the three refusals are the model's own (DESIGN CHOICE, notes 16); the hardware reports each as
ERR_ILLEGAL_COMMAND (R98). -/
def Obligations.CommandWordsOfEachFamilyDecode : Prop :=
  decode 0x00000000 = .ok .nop ∧ decode 0x00000001 = .ok .bcInit ∧ decode 0x00000102 = .ok (.bcEncryptBlock 1) ∧
    decode 0x00000F13 = .ok (.ctrEncrypt 15) ∧ decode 0x00000021 = .ok .hmacUpdate ∧
    decode 0x00000031 = .ok .hkdfExpand ∧ decode 0x00000142 = .ok (.sealPayload 1) ∧
    decode 0x00000043 = .ok (.openPayload 0) ∧ decode 0x00000005 = .error .reservedOpcode ∧
    decode 0x00001000 = .error .reservedBits ∧ decode 0x00000101 = .error .slotNotTaken

/-- R98: at the engine's turn, a latched word with a reserved opcode, with `RES0` not 0 or with an illegal SLOT ends with
ERR_ILLEGAL_COMMAND and no other effect; every other word selects one command, and that command runs. -/
def Obligations.IllegalCommandWordsOnlySetStatus : Prop :=
  ∀ s : State, s.seq = .busy → s.inputs = [] →
    let op := s.cmdL.extractLsb' 0 8
    let slot := s.cmdL.extractLsb' 8 4
    let plain : List (BitVec 8) := [0x00, 0x01, 0x20, 0x21, 0x22, 0x30, 0x31]
    let slotted : List (BitVec 8) := [0x02, 0x10, 0x11, 0x12, 0x13, 0x14, 0x15, 0x40, 0x41, 0x42, 0x43]
    let illegal : Prop := s.cmdL.extractLsb' 12 20 ≠ 0 ∨ op ∉ plain ++ slotted ∨ (op ∈ plain ∧ slot ≠ 0) ∨
      (op ∈ slotted ∧ s.cfg.nSessions ≤ slot.toNat)
    (illegal → step s = .next { s with err := .illegalCommand, done := true, seq := .idle }) ∧
      (¬illegal → ∃ i, decode s.cmdL = .ok i ∧ i.wellFormed s.cfg = true ∧ step s = exec i s)

/-- When a command is in progress and the latched word decodes to `i`, the engine's step is `exec i`: with nothing else
listed, at the very state; as a listed turn of the engine, at the state with that turn taken off the list. -/
def Obligations.StepRunsTheDecodedCommand : Prop :=
  ∀ (s : State) (i : Instr), s.seq = .busy → decode s.cmdL = .ok i →
    (s.inputs = [] → step s = exec i s) ∧
      ∀ rest, s.inputs = .engine :: rest → step s = exec i { s with inputs := rest }

/-! ### The command cycle (40_command_cycle.md) -/

/-- R121: a CMD write while IDLE latches the word and the arguments, clears DONE and ERR and makes SEQ BUSY, for every
word. The engine's step after it validates that word: an illegal one ends there, any other runs its command. -/
def Obligations.CmdWriteWhenIdleIsAccepted : Prop :=
  ∀ (s : State) (w : Word) (rest : List Input), s.seq = .idle →
    let t : State := { s with
      inputs := rest, cmdL := w, argL := s.args, done := false, err := .ok, seq := .busy, busReply := some .writeOk }
    step { s with inputs := .access (.write 0x000 .b4 w) :: rest } = .next t ∧
      (rest = [] →
        (∀ e, decode w = .error e → step t = .next { t with err := .illegalCommand, done := true, seq := .idle }) ∧
        ∀ i, decode w = .ok i → step t = exec i t)

/-- R122: a CMD write while BUSY completes `ok` and changes nothing but CMD_OVF. -/
def Obligations.CmdWriteWhenBusyIsDropped : Prop :=
  ∀ (s : State) (w : Word) (rest : List Input), s.seq = .busy →
    step { s with inputs := .access (.write 0x000 .b4 w) :: rest } =
      .next { s with inputs := rest, cmdOvf := true, busReply := some .writeOk }

/-- Whatever command runs and however it ends: no host register, no latched argument, no overrun flag and no parameter is
written, DONE is set and SEQ is IDLE. -/
def Obligations.CommandsWriteNoHostRegister : Prop :=
  ∀ (i : Instr) (s t : State), exec i s = .next t → SameHostSide s t ∧ t.done = true ∧ t.seq = .idle

/-- Every command completes, in one step, with at most the requests R128 counts, all added after the earlier ones. -/
def Obligations.EveryCommandCompletesWithinItsRequests : Prop :=
  ∀ (i : Instr) (s : State), ∃ t new, exec i s = .next t ∧ t.seq = .idle ∧ t.done = true ∧
    t.prim.sent = s.prim.sent ++ new ∧ new.length ≤ requestBound i s

/-- The machine never stops: every state has a next one, whatever the host, the command word and the primitive do. -/
def Obligations.EveryStepAnswersNext : Prop :=
  ∀ s : State, ∃ t, step s = .next t ∧ t.cfg = s.cfg

/-- The invariant of the machine is kept by every step, from every state that has it. -/
def Obligations.StepKeepsTheInvariant : Prop :=
  ∀ s t : State, s.Inv → step s = .next t → t.Inv

/-- NOP ends with ERR_OK and changes nothing but DONE, ERR and SEQ. -/
def Obligations.NopOnlyCompletes : Prop :=
  ∀ s : State, exec .nop s = .next { s with err := .ok, done := true, seq := .idle }

/-- R124, R294, R295: the first failing check gives the code. V1 the slot, V2 the zero-length shortcut, V3 the length
ceilings, V4 the buffers, V5 the state; past all of them the code is ERR_OK or one of the execution's three. -/
def Obligations.ValidationFollowsTheOrder : Prop :=
  ∀ (i : Instr) (s : State), ∃ t, exec i s = .next t ∧
    (i.wellFormed s.cfg = false → t.err = .illegalCommand) ∧
    (i.wellFormed s.cfg = true →
      (ZeroLengthCtr i s → t.err = .ok) ∧
      (¬ZeroLengthCtr i s →
        (LengthCause i s → t.err = .invalidLength) ∧
        (¬LengthCause i s →
          (BufferCause i s → t.err = .badBuffer) ∧
          (¬BufferCause i s →
            (StateCause i s → t.err = .badState) ∧
            (¬StateCause i s →
              t.err = .ok ∨ t.err = .primitiveTimeout ∨ t.err = .primitiveError ∨ t.err = .authFailure)))))

/-! ### What an error leaves (60_exceptions.md) -/

/-- R296: a command that ends with a validation error changes no state but DONE and ERR, and SEQ back to IDLE. -/
def Obligations.ValidationErrorsChangeOnlyStatus : Prop :=
  ∀ (i : Instr) (s t : State), exec i s = .next t →
    (t.err = .invalidLength ∨ t.err = .illegalCommand ∨ t.err = .badState ∨ t.err = .badBuffer) →
    t = { s with err := t.err, done := true, seq := .idle }

/-- A command that fails at the primitive leaves every slot and BC_ARMED as they were (so a failed BC_INIT leaves it 0),
HCTX idle after SEAL and OPEN and as it was after the rest, and every DBUF byte outside its output as it was. -/
def Obligations.PrimitiveFailureRollsBack : Prop :=
  ∀ (i : Instr) (s t : State), exec i s = .next t → (t.err = .primitiveTimeout ∨ t.err = .primitiveError) →
    t.slots = s.slots ∧ t.bcArmed = s.bcArmed ∧ (i = .bcInit → t.bcArmed = false) ∧
      (((∃ n, i = .sealPayload n) ∨ ∃ n, i = .openPayload n) → t.hctx = .idle) ∧
      ((∀ n, i ≠ .sealPayload n) → (∀ n, i ≠ .openPayload n) → t.hctx = s.hctx) ∧
      ∀ a : Nat, (∀ o ∈ outputOf i s, a < o.off ∨ o.off + o.len ≤ a) → t.dbuf.read a = s.dbuf.read a

/-- A command that has an output and fails at its request number `j`, counted from 0, after `j` requests that were
answered `ok`: it ends with the code of that failure, no request follows the failed one, every output byte is what the
environment drew for it with the failed reply, so it can be anything (the model's form of a free value: DESIGN CHOICE,
notes 4 and 5), and the slots are as before. OPEN gets to its requests when the received tag is the recomputed one. -/
def Obligations.FailedOutputIsWhateverWasDrawn : Prop :=
  ∀ (i : Instr) (s : State) (o : Buf) (j : Nat) (x : Reply), s.Inv → i.wellFormed s.cfg = true →
    ¬ZeroLengthCtr i s → ¬LengthCause i s → ¬BufferCause i s → ¬StateCause i s → ¬TagCause i s →
    outputOf i s = [o] → j < requestBound i s → s.prim.failsAt j x →
    ∃ t new, exec i s = .next t ∧
      Ended (if pollAnswer Config.retryBudget x.samples = .error then .primitiveError else .primitiveTimeout) t ∧
      t.prim.sent = s.prim.sent ++ new ∧ new.length = j + 1 ∧
      (∀ (k : Nat) (b : Byte), k < o.len → x.residue[k]? = some b → t.dbuf.read (o.off + k) = b) ∧
      SameDbufOutside o.off o.len s t ∧ t.slots = s.slots

/-! ### Reset (70_reset_and_hazards.md) -/

/-- A reset leaves every piece of state at its reset value, abandons a running command, and empties every slot the core
has; the parameters stay. -/
def Obligations.ResetLeavesTheTabulatedValues : Prop :=
  ∀ (s : State) (draw : List Host.Cell) (rest : List Input), ∃ t,
    step { s with inputs := .reset draw :: rest } = .next t ∧
    t.seq = .idle ∧ t.cmdL = 0 ∧ t.args = Args.zero ∧ t.argL = Args.zero ∧ t.statusWord = 0 ∧ t.ctrlWord = 0 ∧
    t.slotStatusWord = 0 ∧ t.slots.length = s.cfg.nSessions ∧
    (∀ n : BitVec 4, n.toNat < s.cfg.nSessions →
      (t.slot n).encKey = 0 ∧ (t.slot n).encValid = false ∧ (t.slot n).cb = 0 ∧ (t.slot n).ksLast = 0 ∧
        (t.slot n).authKey = 0 ∧ (t.slot n).authValid = false) ∧
    t.bcArmed = false ∧ t.hctx = .idle ∧ t.irq = false ∧ t.cfg = s.cfg ∧ t.inputs = rest

/-- The contents of DBUF after a reset are free: any canonical memory of the core's size can be drawn. -/
def Obligations.ResetCanDrawAnyDbuf : Prop :=
  ∀ (s : State) (m : Memory) (rest : List Input), m.wf s.cfg.bufBytes = true →
    ∃ draw t, step { s with inputs := .reset draw :: rest } = .next t ∧ t.dbuf = m

/-- The state after reset has the invariant: for the named reset state, whose parameters and zero DBUF are the model's
choice (notes 1, 2), and for every legal choice of parameters and contents of DBUF. -/
def Obligations.ResetHasTheInvariant : Prop :=
  State.reset.Inv ∧ ∀ (p : Params) (m : Memory) (q : PrimPort) (l : List Input), p.Legal → m.wf p.bufBytes = true →
    (State.afterReset p m q l).Inv

/-! ### The host's accesses (20_memory.md, 10_state.md) -/

/-- R68: an access that is not legal completes with `bus_error`, changes no state of the core and reads as 0; a write to
a read-only register completes `ok` and is ignored, and so is a write to the read-only bits of STATUS and CTRL. -/
def Obligations.BusErrorsChangeNothing : Prop :=
  ∀ (s : State) (off : BitVec 17) (size : AccessSize) (w : Word) (rest : List Input),
    (¬LegalAccess s.cfg off.toNat size →
      step { s with inputs := .access (.read off size) :: rest } =
        .next { s with inputs := rest, busReply := some .busError } ∧
      step { s with inputs := .access (.write off size w) :: rest } =
        .next { s with inputs := rest, busReply := some .busError }) ∧
    BusReply.busError.readData = 0 ∧
    (off.toNat ∈ [0x020, 0x024, 0x028, 0x02C] →
      step { s with inputs := .access (.write off .b4 w) :: rest } =
        .next { s with inputs := rest, busReply := some .writeOk }) ∧
    (w &&& 0x0000000E#32 = 0 →
      step { s with inputs := .access (.write 0x004 .b4 w) :: rest } =
        .next { s with inputs := rest, busReply := some .writeOk }) ∧
    step { s with inputs := .access (.write 0x030 .b4 w) :: rest } =
      step { s with inputs := .access (.write 0x030 .b4 (w &&& 1)) :: rest }

/-- R66: a legal DBUF access while BUSY completes `ok`, reads as 0 for every byte, writes nothing and sets BUSY_ACC. A read
of `n` bytes is answered on the data bits `[8n-1:0]` (R67); of the bits above, the spec says nothing and neither does
this. -/
def Obligations.DbufAccessWhileBusyIsBlocked : Prop :=
  ∀ (s : State) (off : BitVec 17) (size : AccessSize) (w : Word) (rest : List Input), s.seq = .busy →
    0x10000 ≤ off.toNat → LegalAccess s.cfg off.toNat size →
    (∃ v, step { s with inputs := .access (.read off size) :: rest } =
      .next { s with inputs := rest, busyAcc := true, busReply := some (.readOk v) } ∧
      ∀ j < size.bytes, v.extractLsb' (8 * j) 8 = 0) ∧
    step { s with inputs := .access (.write off size w) :: rest } =
      .next { s with inputs := rest, busyAcc := true, busReply := some .writeOk }

/-- R67: a DBUF access of `n` bytes at DBUF offset `k` while IDLE. In bounds and aligned, a read gives the bytes in
little-endian lanes and a write sets exactly those bytes; else it is a `bus_error`. -/
def Obligations.DbufAccessWhileIdleUsesLittleEndianLanes : Prop :=
  ∀ (s : State) (off : BitVec 17) (size : AccessSize) (w : Word) (rest : List Input) (k : Nat), s.Inv →
    s.seq = .idle → off.toNat = 0x10000 + k →
    let lanes : Nat := ((List.range size.bytes).map fun j => (s.dbuf.read (k + j)).toNat * 2 ^ (8 * j)).sum
    (k % size.bytes = 0 ∧ k + size.bytes ≤ s.cfg.bufBytes →
      (∃ v, step { s with inputs := .access (.read off size) :: rest } =
        .next { s with inputs := rest, busReply := some (.readOk v) } ∧ v.toNat % 2 ^ (8 * size.bytes) = lanes) ∧
      ∃ t, step { s with inputs := .access (.write off size w) :: rest } = .next t ∧
        (∀ j < size.bytes, t.dbuf.read (k + j) = w.extractLsb' (8 * j) 8) ∧ SameDbufOutside k size.bytes s t ∧
        t = { s with inputs := rest, busReply := some .writeOk, dbuf := t.dbuf }) ∧
    (¬(k % size.bytes = 0 ∧ k + size.bytes ≤ s.cfg.bufBytes) →
      step { s with inputs := .access (.read off size) :: rest } =
        .next { s with inputs := rest, busReply := some .busError } ∧
      step { s with inputs := .access (.write off size w) :: rest } =
        .next { s with inputs := rest, busReply := some .busError })

/-- R70: a wide DBUF read gives the same bytes as the 1-byte reads at its offsets, the first in the lowest lane; a wide
write leaves DBUF as the 1-byte writes of its bytes do. -/
def Obligations.WideDbufAccessIsItsByteAccesses : Prop :=
  ∀ (s : State) (off : BitVec 17) (size : AccessSize) (w : Word), s.seq = .idle → 0x10000 ≤ off.toNat →
    LegalAccess s.cfg off.toNat size →
    (∀ j < size.bytes, ∃ t u v b, step { s with inputs := [.access (.read off size)] } = .next t ∧
      t.busReply = some (.readOk v) ∧
      step { s with inputs := [.access (.read (off + BitVec.ofNat 17 j) .b1)] } = .next u ∧
      u.busReply = some (.readOk b) ∧ b.extractLsb' 0 8 = v.extractLsb' (8 * j) 8) ∧
    let byteWrite : Nat → Input := fun j =>
      .access (.write (off + BitVec.ofNat 17 j) .b1 ((w.extractLsb' (8 * j) 8).setWidth 32))
    ∃ t u, step { s with inputs := [.access (.write off size w)] } = .next t ∧
      core.run size.bytes { s with inputs := (List.range size.bytes).map byteWrite } = .next u ∧ t.dbuf = u.dbuf

/-- STATUS: every field at its place, ERR with the number of its code (R291), BC_ARMED at bit 8 and HMAC_ACTIVE at bit 9,
the reserved bits 31 to 10 zero; and a write clears exactly the RW1C bits written as 1, whatever SEQ is. -/
def Obligations.StatusFieldsAndWriteOneToClear : Prop :=
  (∀ s : State, s.statusWord.getLsbD 0 = decide (s.seq = .busy) ∧ s.statusWord.getLsbD 1 = s.done ∧
    s.statusWord.getLsbD 2 = s.cmdOvf ∧ s.statusWord.getLsbD 3 = s.busyAcc ∧
    s.statusWord.extractLsb' 4 4 = (match s.err with
      | .ok => 0#4
      | .primitiveTimeout => 1#4
      | .invalidLength => 2#4
      | .authFailure => 3#4
      | .primitiveError => 4#4
      | .illegalCommand => 5#4
      | .badState => 6#4
      | .badBuffer => 7#4) ∧
    s.statusWord.getLsbD 8 = s.bcArmed ∧
    s.statusWord.getLsbD 9 = decide (s.hctx ≠ .idle) ∧ s.statusWord.extractLsb' 10 22 = 0) ∧
  ∀ (s : State) (w : Word) (rest : List Input),
    step { s with inputs := .access (.read 0x004 .b4) :: rest } =
      .next { s with inputs := rest, busReply := some (.readOk s.statusWord) } ∧
    step { s with inputs := .access (.write 0x004 .b4 w) :: rest } =
      .next { s with
        inputs := rest, busReply := some .writeOk,
        done := if w.getLsbD 1 then false else s.done,
        cmdOvf := if w.getLsbD 2 then false else s.cmdOvf,
        busyAcc := if w.getLsbD 3 then false else s.busyAcc }

/-- The completion interrupt is DONE and IRQ_EN. Completion raises it when it is enabled; writing 1 to DONE, accepting
the next command, writing IRQ_EN = 0 and reset drop it. -/
def Obligations.InterruptIsDoneAndEnabled : Prop :=
  (∀ s : State, s.irq = (s.statusWord.getLsbD 1 && s.ctrlWord.getLsbD 0)) ∧
  (∀ (i : Instr) (s t : State), exec i s = .next t → t.irq = s.irqEn) ∧
  ∀ (s : State) (w : Word) (draw : List Host.Cell) (rest : List Input),
    (w.getLsbD 1 = true → ∃ t, step { s with inputs := .access (.write 0x004 .b4 w) :: rest } = .next t ∧
      t.irq = false) ∧
    (s.seq = .idle → ∃ t, step { s with inputs := .access (.write 0x000 .b4 w) :: rest } = .next t ∧ t.irq = false) ∧
    (w.getLsbD 0 = false → ∃ t, step { s with inputs := .access (.write 0x030 .b4 w) :: rest } = .next t ∧
      t.irq = false) ∧
    ∃ t, step { s with inputs := .reset draw :: rest } = .next t ∧ t.irq = false

/-- R30: the CONFIG registers report the parameters, writes to them are ignored, and they read the same at all times:
no step changes a parameter. -/
def Obligations.ConfigRegistersReportTheParameters : Prop :=
  (∀ s : State, s.cfg.Legal →
    (s.config0Word.extractLsb' 0 8).toNat = s.cfg.nSessions ∧ (s.config0Word.extractLsb' 8 8).toNat = s.cfg.tagLen ∧
    s.config0Word.extractLsb' 16 4 = 4 ∧ s.config0Word.getLsbD 20 = decide (s.cfg.wireOrder = .le) ∧
    s.config0Word.extractLsb' 21 3 = 0 ∧ s.config0Word.extractLsb' 24 8 = 32 ∧
    s.config1Word.toNat = s.cfg.bufBytes ∧ config2Word.toNat = Config.retryBudget) ∧
  (∀ (s : State) (rest : List Input) (w : Word),
    step { s with inputs := .access (.read 0x020 .b4) :: rest } =
      .next { s with inputs := rest, busReply := some (.readOk s.config0Word) } ∧
    step { s with inputs := .access (.read 0x024 .b4) :: rest } =
      .next { s with inputs := rest, busReply := some (.readOk s.config1Word) } ∧
    step { s with inputs := .access (.read 0x028 .b4) :: rest } =
      .next { s with inputs := rest, busReply := some (.readOk config2Word) } ∧
    ∀ off ∈ [0x020#17, 0x024#17, 0x028#17],
      step { s with inputs := .access (.write off .b4 w) :: rest } =
        .next { s with inputs := rest, busReply := some .writeOk }) ∧
  ∀ s t : State, step s = .next t → t.cfg = s.cfg

/-- R31: bit 2n of SLOT_STATUS is ENC_VALID of slot n and bit 2n+1 its AUTH_VALID; bits of absent slots read 0, writes
are ignored, and the reset value is 0. -/
def Obligations.SlotStatusReportsTheValidBits : Prop :=
  (∀ (s : State) (n : BitVec 4), s.Inv →
    s.slotStatusWord.getLsbD (2 * n.toNat) = (decide (n.toNat < s.cfg.nSessions) && (s.slot n).encValid) ∧
    s.slotStatusWord.getLsbD (2 * n.toNat + 1) = (decide (n.toNat < s.cfg.nSessions) && (s.slot n).authValid)) ∧
  (∀ (s : State) (w : Word) (rest : List Input),
    step { s with inputs := .access (.read 0x02C .b4) :: rest } =
      .next { s with inputs := rest, busReply := some (.readOk s.slotStatusWord) } ∧
    step { s with inputs := .access (.write 0x02C .b4 w) :: rest } =
      .next { s with inputs := rest, busReply := some .writeOk }) ∧
  State.reset.slotStatusWord = 0 ∧ ∀ (s : State) (draw : List Host.Cell), (s.resetBy draw).slotStatusWord = 0

/-- ARG, CTRL and CMD reads and ARG and CTRL writes, whatever SEQ is: an ARG write changes ARG and not ARG_L, a CTRL
write sets IRQ_EN from bit 0, and CMD reads as the last accepted word. -/
def Obligations.ArgAndCtrlAccessesAtAnyTime : Prop :=
  ∀ (s : State) (w : Word) (rest : List Input),
    step { s with inputs := .access (.write 0x008 .b4 w) :: rest } =
      .next { s with inputs := rest, busReply := some .writeOk, args := { s.args with a0 := w } } ∧
    step { s with inputs := .access (.write 0x00C .b4 w) :: rest } =
      .next { s with inputs := rest, busReply := some .writeOk, args := { s.args with a1 := w } } ∧
    step { s with inputs := .access (.write 0x010 .b4 w) :: rest } =
      .next { s with inputs := rest, busReply := some .writeOk, args := { s.args with a2 := w } } ∧
    step { s with inputs := .access (.write 0x014 .b4 w) :: rest } =
      .next { s with inputs := rest, busReply := some .writeOk, args := { s.args with a3 := w } } ∧
    step { s with inputs := .access (.write 0x018 .b4 w) :: rest } =
      .next { s with inputs := rest, busReply := some .writeOk, args := { s.args with a4 := w } } ∧
    step { s with inputs := .access (.write 0x030 .b4 w) :: rest } =
      .next { s with inputs := rest, busReply := some .writeOk, irqEn := w.getLsbD 0 } ∧
    (∀ q ∈ [(0x000#17, s.cmdL), (0x008#17, s.args.a0), (0x00C#17, s.args.a1), (0x010#17, s.args.a2),
        (0x014#17, s.args.a3), (0x018#17, s.args.a4), (0x030#17, s.ctrlWord)],
      step { s with inputs := .access (.read q.1 .b4) :: rest } =
        .next { s with inputs := rest, busReply := some (.readOk q.2) }) ∧
    s.ctrlWord.getLsbD 0 = s.irqEn ∧ s.ctrlWord.extractLsb' 1 31 = 0

/-- No host access tells two states apart that differ only in keys and in what HCTX holds: the replies are the same, and
the states after it again differ in nothing else. -/
def Obligations.HostAccessesDoNotSeeTheSecrets : Prop :=
  ∀ (s s' : State) (a : BusAccess) (rest : List Input), s.publicView = s'.publicView → ∃ t t',
    step { s with inputs := .access a :: rest } = .next t ∧ step { s' with inputs := .access a :: rest } = .next t' ∧
      t.busReply = t'.busReply ∧ t.publicView = t'.publicView

/-! ### The block-cipher adapter (41_block_cipher.md) -/

/-- The bounded wait: the first sample within the budget that shows an answer decides, a sample that shows both counts as
an error, and with no answer within the budget the request times out. -/
def Obligations.FirstAnswerWithinTheBudgetDecides : Prop :=
  ∀ (n : Nat) (l : List Sample),
    ((∀ x ∈ l.take n, x.good = false ∧ x.bad = false) → pollAnswer n l = .timeout) ∧
    ∀ (k : Nat) (x : Sample), k < n → l[k]? = some x → (x.good = true ∨ x.bad = true) →
      (∀ y ∈ l.take k, y.good = false ∧ y.bad = false) →
      pollAnswer n l = if x.bad then .error else .ok

/-- BC_INIT: armed, it succeeds and makes no request; not armed, it makes one init request and arms exactly on `ok`. -/
def Obligations.BcInitArmsOnOk : Prop :=
  ∀ s : State,
    (s.bcArmed = true → exec .bcInit s = .next { s with err := .ok, done := true, seq := .idle }) ∧
    (s.bcArmed = false → s.prim.answer = .ok →
      exec .bcInit s = .next { s with
        bcArmed := true, err := .ok, done := true, seq := .idle,
        prim := { replies := s.prim.replies.tail, sent := s.prim.sent ++ [.init], draws := s.prim.draws + 1 } }) ∧
    (s.bcArmed = false → s.prim.answer ≠ .ok →
      exec .bcInit s = .next { s with
        err := if s.prim.answer = .error then .primitiveError else .primitiveTimeout, done := true, seq := .idle,
        prim := { replies := s.prim.replies.tail, sent := s.prim.sent ++ [.init], draws := s.prim.draws + 1 } })

/-- BC_ENCRYPT_BLOCK writes `E(ENC_KEY, block)` to its 16 output bytes, in place or apart, with one block request, and
changes no slot. -/
def Obligations.BcEncryptBlockWritesTheCipherBlock : Prop :=
  ∀ (n : BitVec 4) (s : State), s.Inv → n.toNat < s.cfg.nSessions →
    let src := s.argL.a0.toNat
    let dst := s.argL.a1.toNat
    let blk := ofBytes 128 (s.dbuf.readBytes src 16)
    src + 16 ≤ s.cfg.bufBytes → dst + 16 ≤ s.cfg.bufBytes → (src = dst ∨ src + 16 ≤ dst ∨ dst + 16 ≤ src) →
    (s.slot n).encValid = true → s.bcArmed = true → s.prim.answer = .ok →
    ∃ t, exec (.bcEncryptBlock n) s = .next t ∧ Ended .ok t ∧
      t.dbuf.readBytes dst 16 = toBytes 16 (Config.E (s.slot n).encKey blk) ∧ SameDbufOutside dst 16 s t ∧
      t.prim.sent = s.prim.sent ++ [.block (s.slot n).encKey blk] ∧
      t.slots = s.slots ∧ t.hctx = s.hctx ∧ t.bcArmed = s.bcArmed ∧ SameHostSide s t

/-! ### The counter-mode engine (42_ctr.md) -/

/-- R163: the counter field is the last four bytes read big-endian, the prefix the first twelve; setting and
incrementing the counter keep the prefix, and the increment is modulo 2^32. -/
def Obligations.CounterFieldIsTheLastFourBytes : Prop :=
  (∀ (cb : Block) (c : Word),
    toBytes 12 (cbPrefix cb) = (toBytes 16 cb).take 12 ∧
    (cbCtr cb).toNat = uBE ((toBytes 16 cb).drop 12) ∧
    toBytes 16 (setCtr cb c) = (toBytes 16 cb).take 12 ++ be32 c ∧
    toBytes 16 (incCb cb) = (toBytes 16 cb).take 12 ++ be32 (BitVec.ofNat 32 (((cbCtr cb).toNat + 1) % 2 ^ 32)) ∧
    cbPrefix (incCb cb) = cbPrefix cb) ∧
  incCb 0xf0f1f2f3f4f5f6f7f8f9fafbfcfdfeff#128 = 0xf0f1f2f3f4f5f6f7f8f9fafbfcfdff00#128

/-- CTR_SET_KEY on a slot with no key loads the 16 bytes at ARG0, sets ENC_VALID and zeroes KS_LAST; CB and the
authentication key stay. -/
def Obligations.CtrSetKeyLoadsTheCipherKey : Prop :=
  ∀ (n : BitVec 4) (s : State), s.Inv → n.toNat < s.cfg.nSessions → s.argL.a0.toNat + 16 ≤ s.cfg.bufBytes →
    (s.slot n).encValid = false →
    ∃ t, exec (.ctrSetKey n) s = .next t ∧ Ended .ok t ∧
      toBytes 16 (t.slot n).encKey = s.dbuf.readBytes s.argL.a0.toNat 16 ∧
      t.slot n = { s.slot n with encKey := (t.slot n).encKey, encValid := true, ksLast := 0 } ∧
      SameSlotsBut n s t ∧ SameDbuf s t ∧ t.prim = s.prim ∧ t.hctx = s.hctx ∧ t.bcArmed = s.bcArmed ∧ SameHostSide s t

/-- CTR_SET_IV loads the whole counter block from the 16 bytes at ARG0, whether or not a key is set. -/
def Obligations.CtrSetIvLoadsTheCounterBlock : Prop :=
  ∀ (n : BitVec 4) (s : State), s.Inv → n.toNat < s.cfg.nSessions → s.argL.a0.toNat + 16 ≤ s.cfg.bufBytes →
    ∃ t, exec (.ctrSetIv n) s = .next t ∧ Ended .ok t ∧
      toBytes 16 (t.slot n).cb = s.dbuf.readBytes s.argL.a0.toNat 16 ∧
      t.slot n = { s.slot n with cb := (t.slot n).cb } ∧
      SameSlotsBut n s t ∧ SameDbuf s t ∧ t.prim = s.prim ∧ t.hctx = s.hctx ∧ t.bcArmed = s.bcArmed ∧ SameHostSide s t

/-- R169: CTR_SET_COUNTER sets the counter field to ARG3, any value, and keeps the prefix and KS_LAST; its only error is an
illegal slot. Its word is `0x00000s12`. -/
def Obligations.CtrSetCounterSetsTheCounterField : Prop :=
  ∀ (n : BitVec 4) (s : State), encode (.ctrSetCounter n) = 0x12#32 + n.setWidth 32 * 0x100#32 ∧ (s.Inv →
    (n.toNat < s.cfg.nSessions →
      ∃ t, exec (.ctrSetCounter n) s = .next t ∧ Ended .ok t ∧
        toBytes 16 (t.slot n).cb = (toBytes 16 (s.slot n).cb).take 12 ++ be32 s.argL.a3 ∧
        t.slot n = { s.slot n with cb := (t.slot n).cb } ∧
        SameSlotsBut n s t ∧ SameDbuf s t ∧ t.prim = s.prim ∧ t.hctx = s.hctx ∧ t.bcArmed = s.bcArmed ∧
        SameHostSide s t) ∧
    (s.cfg.nSessions ≤ n.toNat →
      exec (.ctrSetCounter n) s = .next { s with err := .illegalCommand, done := true, seq := .idle }))

/-- CTR_ENCRYPT and CTR_DECRYPT of `len > 0` bytes: the output is the input XOR the keystream, the counter block advances
by the number of blocks, KS_LAST is the last keystream block, and the requests are the counter blocks in order. -/
def Obligations.CtrEncryptAndDecryptXorTheKeystream : Prop :=
  ∀ (i : Instr) (n : BitVec 4) (s : State), (i = .ctrEncrypt n ∨ i = .ctrDecrypt n) → s.Inv →
    n.toNat < s.cfg.nSessions →
    let src := s.argL.a0.toNat
    let dst := s.argL.a1.toNat
    let len := s.argL.a2.toNat
    let key := (s.slot n).encKey
    let cb := (s.slot n).cb
    0 < len → src + len ≤ s.cfg.bufBytes → dst + len ≤ s.cfg.bufBytes →
    (src = dst ∨ src + len ≤ dst ∨ dst + len ≤ src) →
    (s.slot n).encValid = true → s.bcArmed = true → s.prim.okFor ((len + 15) / 16) →
    ∃ t, exec i s = .next t ∧ Ended .ok t ∧
      t.dbuf.readBytes dst len = xorBytes (s.dbuf.readBytes src len) (keystream key cb ((len + 15) / 16)) ∧
      SameDbufOutside dst len s t ∧
      t.slot n = { s.slot n with
        cb := setCtr cb (cbCtr cb + BitVec.ofNat 32 ((len + 15) / 16)),
        ksLast := Config.E key (incBy cb ((len + 15) / 16 - 1)) } ∧
      SameSlotsBut n s t ∧
      t.prim.sent = s.prim.sent ++ (counterBlocks cb ((len + 15) / 16)).map (.block key) ∧
      t.hctx = s.hctx ∧ t.bcArmed = s.bcArmed ∧ SameHostSide s t

/-- R166: CTR_ENCRYPT and CTR_DECRYPT with length 0 succeed and change nothing else, whatever the offsets, the key and
BC_ARMED are; only an illegal command word still fails, for its slot or for its bits. -/
def Obligations.ZeroLengthCtrAlwaysSucceeds : Prop :=
  (∀ (i : Instr) (n : BitVec 4) (s : State), (i = .ctrEncrypt n ∨ i = .ctrDecrypt n) → s.argL.a2 = 0 →
    (n.toNat < s.cfg.nSessions → exec i s = .next { s with err := .ok, done := true, seq := .idle }) ∧
    (s.cfg.nSessions ≤ n.toNat → exec i s = .next { s with err := .illegalCommand, done := true, seq := .idle })) ∧
  ∀ s : State, s.seq = .busy → s.inputs = [] → s.argL.a2 = 0 →
    (s.cmdL.extractLsb' 0 8 = 0x13 ∨ s.cmdL.extractLsb' 0 8 = 0x14) → s.cmdL.extractLsb' 12 20 ≠ 0 →
    step s = .next { s with err := .illegalCommand, done := true, seq := .idle }

/-- R177: the CTR stream is its own inverse from the same counter block; so CTR_DECRYPT, given what CTR_ENCRYPT wrote
and the same key and counter block, restores the plaintext. -/
def Obligations.CtrIsItsOwnInverse : Prop :=
  (∀ (key cb : Block) (x y : List Byte) (cb' : Block) (ks : Option Block) (p p' q : PrimPort),
    ctrStream key cb x p = .done y cb' ks p' → q.okFor (blockCount x.length) →
    ∃ q', ctrStream key cb y q = .done x cb' ks q') ∧
  ∀ (n m : BitVec 4) (s t u : State), s.Inv → u.Inv → exec (.ctrEncrypt n) s = .next t → t.err = .ok →
    m.toNat < u.cfg.nSessions → u.argL.a2 = s.argL.a2 → 0 < s.argL.a2.toNat → ¬BufferCause (.ctrDecrypt m) u →
    u.bcArmed = true → (u.slot m).encValid = true → (u.slot m).encKey = (s.slot n).encKey →
    (u.slot m).cb = (s.slot n).cb → u.prim.okFor (blockCount s.argL.a2.toNat) →
    u.dbuf.readBytes u.argL.a0.toNat s.argL.a2.toNat = t.dbuf.readBytes s.argL.a1.toNat s.argL.a2.toNat →
    ∃ v, exec (.ctrDecrypt m) u = .next v ∧ v.err = .ok ∧
      v.dbuf.readBytes u.argL.a1.toNat s.argL.a2.toNat = s.dbuf.readBytes s.argL.a0.toNat s.argL.a2.toNat

/-- Encrypting `a` and then `b` from the counter block it leaves gives the same bytes and the same final counter block as
encrypting `a ‖ b`, when `a` is a whole number of blocks. -/
def Obligations.CtrOfWholeBlocksContinues : Prop :=
  ∀ (key cb : Block) (a b : List Byte) (p q r : PrimPort) (ya yb : List Byte) (cb1 cb2 : Block) (ka kb : Option Block),
    a.length % 16 = 0 → ctrStream key cb a p = .done ya cb1 ka q → ctrStream key cb1 b q = .done yb cb2 kb r →
    ∃ k, ctrStream key cb (a ++ b) p = .done (ya ++ yb) cb2 k r

/-- CTR_GET_STATE writes `CB ‖ KS_LAST` to its 32 output bytes, key or no key. -/
def Obligations.CtrGetStateWritesCounterAndKeystream : Prop :=
  ∀ (n : BitVec 4) (s : State), s.Inv → n.toNat < s.cfg.nSessions → s.argL.a1.toNat + 32 ≤ s.cfg.bufBytes →
    ∃ t, exec (.ctrGetState n) s = .next t ∧ Ended .ok t ∧
      t.dbuf.readBytes s.argL.a1.toNat 16 = toBytes 16 (s.slot n).cb ∧
      t.dbuf.readBytes (s.argL.a1.toNat + 16) 16 = toBytes 16 (s.slot n).ksLast ∧
      SameDbufOutside s.argL.a1.toNat 32 s t ∧
      t.slots = s.slots ∧ t.prim = s.prim ∧ t.hctx = s.hctx ∧ t.bcArmed = s.bcArmed ∧ SameHostSide s t

/-! ### SHA-256 and HMAC (43_sha256.md, 44_hmac.md) -/

/-- R203: the three reference digests. -/
def Obligations.ShaReferenceDigests : Prop :=
  ofBytes 256 (sha256 []) = 0xe3b0c44298fc1c149afbf4c8996fb92427ae41e4649b934ca495991b7852b855#256 ∧
  ofBytes 256 (sha256 [0x61, 0x62, 0x63]) =
    0xba7816bf8f01cfea414140de5dae2223b00361a396177a9cb410ff61f20015ad#256 ∧
  ofBytes 256 (sha256 (toBytes 56
    0x6162636462636465636465666465666765666768666768696768696a68696a6b696a6b6c6a6b6c6d6b6c6d6e6c6d6e6f6d6e6f706e6f7071#448)) =
    0x248d6a61d20638b8e5c026930c3e6039a33ce45964ff2167f6ecedd419db06c1#256

/-- The incremental hash gives the one-shot hash, for every way of cutting the message into chunks, empty ones too. -/
def Obligations.IncrementalShaIsOneShotSha : Prop :=
  ∀ chunks : List (List Byte), shaFinish (chunks.foldl shaAbsorb shaStart) = sha256 chunks.flatten

/-- The concrete HMAC registers, started under a key and given any chunks, hold what R36 says they hold and finish with
the tag of the abstract context: `HMAC` of the key and of the whole message. -/
def Obligations.ConcreteHmacContextGivesTheSameTag : Prop :=
  ∀ (k : List Byte) (chunks : List (List Byte)),
    let regs := chunks.foldl HmacRegs.absorb (HmacRegs.start (keyBlock k))
    regs.tag = hmac k chunks.flatten ∧ regs.inner.count = 64 + chunks.flatten.length ∧ regs.inner.buf.length < 64 ∧
      regs.opad = outerPad (keyBlock k)

/-- The key block has 64 bytes; a key of up to 64 bytes is padded with zeros, so zeros at its end change nothing; a
longer key counts as its 32-byte hash. -/
def Obligations.KeyBlockPadsOrHashes : Prop :=
  ∀ k : List Byte, (keyBlock k).length = 64 ∧
    (k.length ≤ 64 → (keyBlock k).take k.length = k ∧ (keyBlock k).drop k.length = List.replicate (64 - k.length) 0 ∧
      ∀ j, k.length + j ≤ 64 → keyBlock (k ++ List.replicate j 0) = keyBlock k) ∧
    (64 < k.length → keyBlock k = sha256 k ++ List.replicate 32 0 ∧ keyBlock k = keyBlock (sha256 k))

/-- HMAC_INIT starts a context under the key block of the key bytes, with an empty message, whether or not a context was
active. -/
def Obligations.HmacInitStartsAContext : Prop :=
  ∀ s : State, s.argL.a0.toNat + s.argL.a2.toNat ≤ s.cfg.bufBytes →
    ∃ t, exec .hmacInit s = .next t ∧ Ended .ok t ∧
      t.hctx = .active (keyBlock (s.dbuf.readBytes s.argL.a0.toNat s.argL.a2.toNat)) [] ∧
      t.slots = s.slots ∧ SameDbuf s t ∧ t.prim = s.prim ∧ t.bcArmed = s.bcArmed ∧ SameHostSide s t

/-- HMAC_UPDATE appends its bytes to the message of the active context. -/
def Obligations.HmacUpdateAppends : Prop :=
  ∀ (s : State) (k0 m : List Byte), s.hctx = .active k0 m → m.length + s.argL.a2.toNat ≤ 2 ^ 61 - 65 →
    s.argL.a0.toNat + s.argL.a2.toNat ≤ s.cfg.bufBytes →
    ∃ t, exec .hmacUpdate s = .next t ∧ Ended .ok t ∧
      t.hctx = .active k0 (m ++ s.dbuf.readBytes s.argL.a0.toNat s.argL.a2.toNat) ∧
      t.slots = s.slots ∧ SameDbuf s t ∧ t.prim = s.prim ∧ t.bcArmed = s.bcArmed ∧ SameHostSide s t

/-- HMAC_FINAL writes the 32 bytes of the tag and consumes the context: another HMAC_FINAL, with any arguments, fails with
ERR_BAD_STATE where its output is in range. -/
def Obligations.HmacFinalWritesTheTagOnce : Prop :=
  ∀ (s : State) (k0 m : List Byte), s.Inv → s.hctx = .active k0 m → s.argL.a1.toNat + 32 ≤ s.cfg.bufBytes →
    ∃ t, exec .hmacFinal s = .next t ∧ Ended .ok t ∧
      t.dbuf.readBytes s.argL.a1.toNat 32 =
        sha256 (k0.map (· ^^^ 0x5c) ++ sha256 (k0.map (· ^^^ 0x36) ++ m)) ∧
      SameDbufOutside s.argL.a1.toNat 32 s t ∧ t.hctx = .idle ∧
      t.slots = s.slots ∧ t.prim = s.prim ∧ t.bcArmed = s.bcArmed ∧ SameHostSide s t ∧
      ∀ l : Args, l.a1.toNat + 32 ≤ s.cfg.bufBytes →
        exec .hmacFinal { t with argL := l } =
          .next { t with argL := l, err := .badState, done := true, seq := .idle }

/-- The lifecycle of HCTX: what every command leaves in it, for every way the command can end, and reset. -/
def Obligations.HmacContextLifecycle : Prop :=
  (∀ (i : Instr) (s t : State), exec i s = .next t →
    ((t.err = .illegalCommand ∨ t.err = .invalidLength ∨ t.err = .badBuffer ∨ t.err = .badState) → t.hctx = s.hctx) ∧
    (t.err ≠ .illegalCommand → t.err ≠ .invalidLength → t.err ≠ .badBuffer → t.err ≠ .badState →
      match i with
      | .hmacInit => t.hctx = .active (keyBlock (s.dbuf.readBytes s.argL.a0.toNat s.argL.a2.toNat)) []
      | .hmacUpdate => ∃ k0 m, s.hctx = .active k0 m ∧
          t.hctx = .active k0 (m ++ s.dbuf.readBytes s.argL.a0.toNat s.argL.a2.toNat)
      | .hmacFinal => s.hctx ≠ .idle ∧ t.hctx = .idle
      | .hkdfExtract => t.hctx = .idle
      | .hkdfExpand => t.hctx = .idle
      | .sealPayload _ => t.hctx = .idle
      | .openPayload _ => t.hctx = .idle
      | _ => t.hctx = s.hctx) ∧
    (s.hctx = .idle → (i = .hmacUpdate ∨ i = .hmacFinal) → t.err = .badBuffer ∨ t.err = .badState)) ∧
  ∀ (s : State) (draw : List Host.Cell) (rest : List Input), ∃ t,
    step { s with inputs := .reset draw :: rest } = .next t ∧ t.hctx = .idle

/-! ### HKDF (45_hkdf.md) -/

/-- HKDF_EXTRACT writes the 32-byte PRK, `HMAC` of the salt (32 zero bytes when it is empty) and the IKM, and leaves HCTX
idle. -/
def Obligations.HkdfExtractWritesThePrk : Prop :=
  ∀ s : State, s.Inv →
    let salt := s.dbuf.readBytes s.argL.a0.toNat s.argL.a2.toNat
    let ikm := s.dbuf.readBytes s.argL.a3.toNat s.argL.a4.toNat
    let dst := s.argL.a1.toNat
    ¬BufferCause .hkdfExtract s →
    ∃ t, exec .hkdfExtract s = .next t ∧ Ended .ok t ∧
      t.dbuf.readBytes dst 32 = hmac (if s.argL.a2 = 0 then List.replicate 32 0 else salt) ikm ∧
      SameDbufOutside dst 32 s t ∧ t.hctx = .idle ∧
      t.slots = s.slots ∧ t.prim = s.prim ∧ t.bcArmed = s.bcArmed ∧ SameHostSide s t

/-- HKDF_EXPAND writes `L` bytes of the chain `T(1) ‖ T(2) ‖ …`, where `T(i) = HMAC(PRK, T(i-1) ‖ info ‖ i)`: byte `32 i + j`
of the output is byte `j` of `T(i + 1)`. It leaves HCTX idle; with `L = 0` no byte is written. -/
def Obligations.HkdfExpandWritesTheChain : Prop :=
  ∀ s : State, s.Inv →
    let prk := s.dbuf.readBytes s.argL.a0.toNat 32
    let info := s.dbuf.readBytes s.argL.a3.toNat s.argL.a4.toNat
    let dst := s.argL.a1.toNat
    let len := s.argL.a2.toNat
    len ≤ 8160 → ¬BufferCause .hkdfExpand s →
    ∃ t, exec .hkdfExpand s = .next t ∧ Ended .ok t ∧
      (∀ chain : Nat → List Byte, chain 0 = [] →
        (∀ i, chain (i + 1) = hmac prk (chain i ++ info ++ [BitVec.ofNat 8 (i + 1)])) →
        ∀ i j, j < 32 → 32 * i + j < len → (chain (i + 1))[j]? = some (t.dbuf.read (dst + (32 * i + j)))) ∧
      SameDbufOutside dst len s t ∧ t.hctx = .idle ∧
      t.slots = s.slots ∧ t.prim = s.prim ∧ t.bcArmed = s.bcArmed ∧ SameHostSide s t

/-- R243: a shorter expansion is a prefix of a longer one. -/
def Obligations.ShorterExpansionIsAPrefix : Prop :=
  ∀ (prk info : List Byte) (l1 l2 : Nat), l1 ≤ l2 → l2 ≤ 8160 →
    hkdfExpand prk info l1 = (hkdfExpand prk info l2).take l1 ∧ (hkdfExpand prk info l2).length = l2

/-! ### Sessions and the codec (46_codec.md) -/

/-- SESSION_LOAD on an empty slot loads cipher key, authentication key and counter block from the 64-byte image, zeroes
KS_LAST and sets both valid bits. -/
def Obligations.SessionLoadFillsAnEmptySlot : Prop :=
  ∀ (n : BitVec 4) (s : State), s.Inv → n.toNat < s.cfg.nSessions → s.argL.a0.toNat + 64 ≤ s.cfg.bufBytes →
    (s.slot n).encValid = false → (s.slot n).authValid = false →
    ∃ t, exec (.sessionLoad n) s = .next t ∧ Ended .ok t ∧
      toBytes 16 (t.slot n).encKey = s.dbuf.readBytes s.argL.a0.toNat 16 ∧
      toBytes 32 (t.slot n).authKey = s.dbuf.readBytes (s.argL.a0.toNat + 16) 32 ∧
      toBytes 16 (t.slot n).cb = s.dbuf.readBytes (s.argL.a0.toNat + 48) 16 ∧
      (t.slot n).ksLast = 0 ∧ (t.slot n).encValid = true ∧ (t.slot n).authValid = true ∧
      SameSlotsBut n s t ∧ SameDbuf s t ∧ t.prim = s.prim ∧ t.hctx = s.hctx ∧ t.bcArmed = s.bcArmed ∧ SameHostSide s t

/-- SESSION_CLEAR zeroes every field of a slot, loaded or empty. -/
def Obligations.SessionClearEmptiesASlot : Prop :=
  ∀ (n : BitVec 4) (s : State), s.Inv → n.toNat < s.cfg.nSessions →
    ∃ t, exec (.sessionClear n) s = .next t ∧ Ended .ok t ∧
      t.slot n = { encKey := 0, encValid := false, cb := 0, ksLast := 0, authKey := 0, authValid := false } ∧
      SameSlotsBut n s t ∧ SameDbuf s t ∧ t.prim = s.prim ∧ t.hctx = s.hctx ∧ t.bcArmed = s.bcArmed ∧ SameHostSide s t

/-- SEAL writes `CT ‖ WCTR ‖ TAG`: the CTR stream from the slot's prefix and the counter operand, the counter in the wire
order, and the leftmost TAG_LEN bytes of the HMAC over both. The slot ends at the counter block after the message, HCTX
idle. With no plaintext there is no request and KS_LAST stays. -/
def Obligations.SealWritesThePayload : Prop :=
  ∀ (n : BitVec 4) (s : State), s.Inv → n.toNat < s.cfg.nSessions →
    let src := s.argL.a0.toNat
    let dst := s.argL.a1.toNat
    let len := s.argL.a2.toNat
    let key := (s.slot n).encKey
    let cb := setCtr (s.slot n).cb s.argL.a3
    let ct := ctrOf key cb (s.dbuf.readBytes src len)
    let wire := wireCounter s.cfg s.argL.a3
    ¬BufferCause (.sealPayload n) s →
    (s.slot n).encValid = true → (s.slot n).authValid = true → (0 < len → s.bcArmed = true) →
    s.prim.okFor ((len + 15) / 16) →
    ∃ t, exec (.sealPayload n) s = .next t ∧ Ended .ok t ∧
      t.dbuf.readBytes dst (len + 4 + s.cfg.tagLen) =
        ct ++ wire ++ (hmac (toBytes 32 (s.slot n).authKey) (ct ++ wire)).take s.cfg.tagLen ∧
      SameDbufOutside dst (len + 4 + s.cfg.tagLen) s t ∧
      t.slot n = (s.slot n).afterCtr cb len ∧ SameSlotsBut n s t ∧
      t.prim.sent = s.prim.sent ++ (counterBlocks cb ((len + 15) / 16)).map (.block key) ∧
      t.hctx = .idle ∧ t.bcArmed = s.bcArmed ∧ SameHostSide s t

/-- OPEN of a payload whose tag is the one the ciphertext and the counter operand give writes the plaintext, with the
slot at the counter block after the message and HCTX idle. With no ciphertext there is no request. -/
def Obligations.OpenWritesThePlaintext : Prop :=
  ∀ (n : BitVec 4) (s : State), s.Inv → n.toNat < s.cfg.nSessions →
    let src := s.argL.a0.toNat
    let dst := s.argL.a1.toNat
    let len := s.argL.a2.toNat
    let key := (s.slot n).encKey
    let cb := setCtr (s.slot n).cb s.argL.a3
    let ct := s.dbuf.readBytes src len
    ¬BufferCause (.openPayload n) s →
    (s.slot n).encValid = true → (s.slot n).authValid = true → (0 < len → s.bcArmed = true) →
    s.dbuf.readBytes s.argL.a4.toNat s.cfg.tagLen =
      (hmac (toBytes 32 (s.slot n).authKey) (ct ++ wireCounter s.cfg s.argL.a3)).take s.cfg.tagLen →
    s.prim.okFor ((len + 15) / 16) →
    ∃ t, exec (.openPayload n) s = .next t ∧ Ended .ok t ∧
      t.dbuf.readBytes dst len = ctrOf key cb ct ∧ SameDbufOutside dst len s t ∧
      t.slot n = (s.slot n).afterCtr cb len ∧ SameSlotsBut n s t ∧
      t.prim.sent = s.prim.sent ++ (counterBlocks cb ((len + 15) / 16)).map (.block key) ∧
      t.hctx = .idle ∧ t.bcArmed = s.bcArmed ∧ SameHostSide s t

/-- R271: where the tags differ, OPEN ends with ERR_AUTH_FAILURE and changes nothing but STATUS and HCTX: no request, no
DBUF byte, no slot. An OPEN that made a request or changed a DBUF byte had tags that match. And no other command ever
ends with that code, nor OPEN with any other effect beside it. -/
def Obligations.TagMismatchChangesNothing : Prop :=
  (∀ (n : BitVec 4) (s : State), s.Inv →
    let received := s.dbuf.readBytes s.argL.a4.toNat s.cfg.tagLen
    let recomputed := (hmac (toBytes 32 (s.slot n).authKey)
      (s.dbuf.readBytes s.argL.a0.toNat s.argL.a2.toNat ++ wireCounter s.cfg s.argL.a3)).take s.cfg.tagLen
    (n.toNat < s.cfg.nSessions → ¬BufferCause (.openPayload n) s → ¬StateCause (.openPayload n) s →
      received ≠ recomputed →
      exec (.openPayload n) s = .next { s with hctx := .idle, err := .authFailure, done := true, seq := .idle }) ∧
    ∀ t, exec (.openPayload n) s = .next t → (t.prim ≠ s.prim ∨ ¬SameDbuf s t) → received = recomputed) ∧
  ∀ (i : Instr) (s t : State), exec i s = .next t → t.err = .authFailure →
    (∃ n, i = .openPayload n) ∧ t = { s with hctx := .idle, err := .authFailure, done := true, seq := .idle }

/-- The OR-accumulator over all bytes is zero exactly when two strings of one length are equal. -/
def Obligations.TagComparisonIsEquality : Prop :=
  ∀ t r : List Byte, t.length = r.length → (ctEq t r = true ↔ t = r)

/-- R273: what SEAL wrote, OPEN opens. Slot `m` of the opening state holds the session of slot `n` of the sealing one
(the keys and the prefix; the counter field may differ), its ARGs name the ciphertext, the counter and the tag that
SEAL wrote, and every request is answered: then OPEN ends with ERR_OK, writes the plaintext, and both slots end with the
same counter field, the counter plus the number of blocks. The two states may be of one machine or of two. -/
def Obligations.OpenUndoesSeal : Prop :=
  ∀ (n m : BitVec 4) (s t u : State), s.Inv → u.Inv → exec (.sealPayload n) s = .next t → t.err = .ok →
    u.cfg = s.cfg → m.toNat < u.cfg.nSessions → u.bcArmed = true →
    (u.slot m).encValid = true → (u.slot m).authValid = true →
    (u.slot m).encKey = (s.slot n).encKey → (u.slot m).authKey = (s.slot n).authKey →
    cbPrefix (u.slot m).cb = cbPrefix (s.slot n).cb →
    u.argL.a2 = s.argL.a2 → u.argL.a3 = s.argL.a3 → ¬BufferCause (.openPayload m) u →
    u.dbuf.readBytes u.argL.a0.toNat s.argL.a2.toNat = t.dbuf.readBytes s.argL.a1.toNat s.argL.a2.toNat →
    u.dbuf.readBytes u.argL.a4.toNat s.cfg.tagLen =
      t.dbuf.readBytes (s.argL.a1.toNat + s.argL.a2.toNat + 4) s.cfg.tagLen →
    u.prim.okFor (blockCount s.argL.a2.toNat) →
    ∃ v, exec (.openPayload m) u = .next v ∧ v.err = .ok ∧
      v.dbuf.readBytes u.argL.a1.toNat s.argL.a2.toNat = s.dbuf.readBytes s.argL.a0.toNat s.argL.a2.toNat ∧
      cbCtr (t.slot n).cb = s.argL.a3 + BitVec.ofNat 32 (blockCount s.argL.a2.toNat) ∧
      cbCtr (v.slot m).cb = cbCtr (t.slot n).cb
end

