-- ==== Sys2Proof/Laws/Bytes.lean ====
section
/-! SUPPORT. Byte strings: lengths, packing and unpacking are inverse, and XOR is its own inverse. -/

namespace Sys2Proof.Machine

@[simp] theorem length_toBytes {w : Nat} (n : Nat) (v : BitVec w) : (toBytes n v).length = n := by simp [toBytes]

@[simp] theorem length_be32 (v : Word) : (be32 v).length = 4 := length_toBytes 4 v

@[simp] theorem length_le32 (v : Word) : (le32 v).length = 4 := by simp [le32]

@[simp] theorem length_be64 (n : Nat) : (be64 n).length = 8 := length_toBytes 8 _

@[simp] theorem length_zeros (n : Nat) : (zeros n).length = n := by simp [zeros]

@[simp] theorem length_xorBytes (a b : List Byte) : (xorBytes a b).length = min a.length b.length := by simp [xorBytes]

@[simp] theorem uBE_nil : uBE [] = 0 := rfl

/-- A byte more at the right end is a digit more. -/
theorem uBE_concat (bs : List Byte) (b : Byte) : uBE (bs ++ [b]) = uBE bs * 256 + b.toNat := by
  simp [uBE]

/-- `n` bytes make a number below `256^n`. -/
theorem uBE_lt (bs : List Byte) : uBE bs < 256 ^ bs.length := by
  induction bs using List.reverseRecOn with
  | nil => simp
  | append_singleton bs b ih =>
    have hb := b.isLt
    rw [uBE_concat, List.length_append, List.length_singleton, Nat.pow_succ]
    omega

/-- Byte `i` of a byte string is the digit of its number at that place. -/
theorem uBE_digit {bs : List Byte} {i : Nat} (h : i < bs.length) :
    uBE bs / 256 ^ (bs.length - 1 - i) % 256 = bs[i].toNat := by
  induction bs using List.reverseRecOn with
  | nil => simp at h
  | append_singleton bs b ih =>
    have hb := b.isLt
    rw [uBE_concat]
    simp only [List.length_append, List.length_singleton] at h ⊢
    by_cases hi : i = bs.length
    · subst hi
      simp
      omega
    · have hlt : i < bs.length := by omega
      have he : bs.length + 1 - 1 - i = (bs.length - 1 - i) + 1 := by omega
      rw [List.getElem_append_left hlt, ← ih hlt, he, Nat.pow_succ', ← Nat.div_div_eq_div_mul]
      congr 2
      omega

/-- Packing a byte string and unpacking it gives it back. -/
theorem toBytes_ofBytes {w n : Nat} {bs : List Byte} (hl : bs.length = n) (hw : w = 8 * n) :
    toBytes n (ofBytes w bs) = bs := by
  refine List.ext_getElem (by simp [hl]) fun i h1 h2 => ?_
  apply BitVec.eq_of_toNat_eq
  have hlt : uBE bs < 2 ^ w := by
    have := uBE_lt bs
    rwa [hl, show (256 : Nat) = 2 ^ 8 from rfl, ← Nat.pow_mul, ← hw] at this
  simp only [toBytes, ofBytes, List.getElem_map, List.getElem_range, BitVec.extractLsb'_toNat, BitVec.toNat_ofNat,
    Nat.mod_eq_of_lt hlt, Nat.shiftRight_eq_div_pow]
  rw [← uBE_digit h2, hl, show (256 : Nat) = 2 ^ 8 from rfl, ← Nat.pow_mul]

/-- Equal byte strings come from equal values: unpacking loses nothing. -/
theorem toBytes_injective {w n : Nat} (hw : w ≤ 8 * n) {u v : BitVec w} (h : toBytes n u = toBytes n v) : u = v := by
  apply BitVec.eq_of_getLsbD_eq
  intro k hk
  have hi : n - 1 - k / 8 < n := by omega
  have hb := congrArg (fun l => l.getD (n - 1 - k / 8) 0) h
  simp only [toBytes, List.getD, List.getElem?_map, List.getElem?_range hi, Option.map_some, Option.getD_some] at hb
  have he := congrArg (fun b : Byte => b.getLsbD (k % 8)) hb
  have h8 : k % 8 < 8 := Nat.mod_lt _ (by decide)
  have hk' : 8 * (n - 1 - (n - 1 - k / 8)) + k % 8 = k := by omega
  simpa [BitVec.getLsbD_extractLsb', h8, hk'] using he

/-- XOR with the same string twice gives the first back, as far as the string reaches. -/
theorem xorBytes_xorBytes {x k : List Byte} (h : x.length ≤ k.length) : xorBytes (xorBytes x k) k = x := by
  refine List.ext_getElem (by simp; omega) fun i h1 h2 => ?_
  simp [xorBytes]

/-- XOR of the parts is XOR of the whole, when the left parts are of one length. -/
theorem xorBytes_append {a b k l : List Byte} (h : a.length = k.length) :
    xorBytes (a ++ b) (k ++ l) = xorBytes a k ++ xorBytes b l := by
  simp [xorBytes, List.zipWith_append h]

/-- XOR looks only at as much of the second string as the first is long. -/
theorem xorBytes_append_right {a k : List Byte} (l : List Byte) (h : a.length ≤ k.length) :
    xorBytes a (k ++ l) = xorBytes a k := by
  refine List.ext_getElem (by simp; omega) fun i h1 h2 => ?_
  simp only [length_xorBytes] at h2
  simp [xorBytes, List.getElem_append_left (show i < k.length by omega)]

@[simp] theorem xorBytes_nil_left (k : List Byte) : xorBytes [] k = [] := by simp [xorBytes]

end Sys2Proof.Machine
end

