-- ==== Sys2Proof/Laws/Memory.lean ====
section
/-! SUPPORT. DBUF: read after write, the frame of a write, and the canonical form, which every operation keeps. -/

namespace Sys2Proof.Machine

/-- Below its first listed offset a canonical memory is blank. -/
theorem Memory.read_eq_blank_of_wfFrom {hi lo a : Nat} {m : Memory} (h : Memory.wfFrom hi lo m = true) (ha : a < lo) :
    m.read a = Memory.blank := by
  induction m generalizing lo with
  | nil => rfl
  | cons c m ih =>
    obtain ⟨b, v⟩ := c
    simp only [Memory.wfFrom, Bool.and_eq_true, decide_eq_true_eq] at h
    have : a ≠ b := by omega
    simp only [Memory.read, if_neg this]
    exact ih h.2 (by omega)

/-- Read after write, at the byte written. -/
theorem Memory.read_write_same {hi lo : Nat} {m : Memory} (h : Memory.wfFrom hi lo m = true) (a : Nat) (v : Byte) :
    (m.write a v).read a = v := by
  induction m generalizing lo with
  | nil => by_cases hv : v = Memory.blank <;> simp [Memory.write, Memory.read, hv]
  | cons c m ih =>
    obtain ⟨b, w⟩ := c
    simp only [Memory.wfFrom, Bool.and_eq_true, decide_eq_true_eq] at h
    rcases Nat.lt_trichotomy a b with hab | hab | hab
    · by_cases hv : v = Memory.blank
      · have : a ≠ b := by omega
        simp [Memory.write, Memory.read, hab, hv, this, read_eq_blank_of_wfFrom h.2 (by omega : a < b + 1)]
      · simp [Memory.write, Memory.read, hab, hv]
    · subst hab
      by_cases hv : v = Memory.blank
      · simp [Memory.write, hv, read_eq_blank_of_wfFrom h.2 (by omega : a < a + 1)]
      · simp [Memory.write, Memory.read, hv]
    · have h1 : ¬ a < b := by omega
      have h2 : a ≠ b := by omega
      simp [Memory.write, Memory.read, h1, h2, ih h.2]

/-- A write leaves every other byte alone, in any list. -/
theorem Memory.read_write_other (m : Memory) {a x : Nat} (v : Byte) (hx : x ≠ a) : (m.write a v).read x = m.read x := by
  induction m with
  | nil => by_cases hv : v = Memory.blank <;> simp [Memory.write, Memory.read, hv, hx]
  | cons c m ih =>
    obtain ⟨b, w⟩ := c
    simp only [Memory.write]
    split
    · split <;> simp [Memory.read, hx]
    · split
      · next hab =>
        subst hab
        split <;> simp [Memory.read, hx]
      · simp only [Memory.read, ih]

/-- A canonical memory is canonical from any lower offset. -/
theorem Memory.wfFrom_mono {hi lo lo' : Nat} {m : Memory} (h : Memory.wfFrom hi lo m = true) (hl : lo' ≤ lo) :
    Memory.wfFrom hi lo' m = true := by
  cases m with
  | nil => rfl
  | cons c m =>
    simp only [Memory.wfFrom, Bool.and_eq_true, decide_eq_true_eq] at h ⊢
    exact ⟨⟨⟨by omega, h.1.1.2⟩, h.1.2⟩, h.2⟩

/-- A write inside the bounds keeps the canonical form. -/
theorem Memory.wfFrom_write {hi lo a : Nat} {m : Memory} (v : Byte) (h : Memory.wfFrom hi lo m = true) (hlo : lo ≤ a)
    (hhi : a < hi) : Memory.wfFrom hi lo (m.write a v) = true := by
  induction m generalizing lo with
  | nil => by_cases hv : v = Memory.blank <;> simp [Memory.write, Memory.wfFrom, hv, hlo, hhi]
  | cons c m ih =>
    obtain ⟨b, w⟩ := c
    simp only [Memory.wfFrom, Bool.and_eq_true, decide_eq_true_eq] at h
    obtain ⟨⟨⟨h1, h2⟩, h3⟩, h4⟩ := h
    simp only [Memory.write]
    split
    · next hab =>
      split
      · simp [Memory.wfFrom, h1, h2, h3, h4]
      · next hv => simp [Memory.wfFrom, hlo, hhi, hv, h2, h3, h4]; omega
    · split
      · next hab =>
        subst hab
        split
        · exact Memory.wfFrom_mono h4 (by omega)
        · next hv => simp [Memory.wfFrom, h1, h2, hv, h4]
      · have := ih h4 (by omega : b + 1 ≤ a)
        simp [Memory.wfFrom, h1, h2, h3, this]

/-- A byte-string write keeps the canonical form. -/
theorem Memory.wf_writeBytes {n a : Nat} {m : Memory} {bs : List Byte} (h : m.wf n = true) (hb : a + bs.length ≤ n) :
    (m.writeBytes a bs).wf n = true := by
  induction bs generalizing m a with
  | nil => exact h
  | cons b bs ih =>
    simp only [List.length_cons] at hb
    exact ih (Memory.wfFrom_write b h (Nat.zero_le _) (by omega)) (by omega)

/-- A byte-string write leaves every byte outside it alone. -/
theorem Memory.read_writeBytes_other (m : Memory) {a x : Nat} (bs : List Byte) (hx : x < a ∨ a + bs.length ≤ x) :
    (m.writeBytes a bs).read x = m.read x := by
  induction bs generalizing m a with
  | nil => rfl
  | cons b bs ih =>
    simp only [List.length_cons] at hx
    rw [Memory.writeBytes, ih (m.write a b) (by omega), Memory.read_write_other m b (by omega)]

/-- A byte string written reads back byte by byte. -/
theorem Memory.read_writeBytes_inside {n a k : Nat} {m : Memory} {bs : List Byte} (h : m.wf n = true)
    (hb : a + bs.length ≤ n) (hk : k < bs.length) : (m.writeBytes a bs).read (a + k) = bs[k] := by
  induction bs generalizing m a k with
  | nil => simp at hk
  | cons b bs ih =>
    simp only [List.length_cons] at hb hk
    have hw := Memory.wfFrom_write b h (Nat.zero_le _) (by omega : a < n)
    cases k with
    | zero =>
      rw [Memory.writeBytes, Memory.read_writeBytes_other _ bs (by omega)]
      exact Memory.read_write_same h a b
    | succ k =>
      have := ih (a := a + 1) (k := k) hw (by omega) (by omega)
      simpa [Memory.writeBytes, Nat.add_assoc, Nat.add_comm 1 k] using this

@[simp] theorem Memory.length_readBytes (m : Memory) (a n : Nat) : (m.readBytes a n).length = n := by
  simp [Memory.readBytes]

/-- Read after write, for a byte string (R11). -/
theorem Memory.readBytes_writeBytes_same {n a : Nat} {m : Memory} {bs : List Byte} (h : m.wf n = true)
    (hb : a + bs.length ≤ n) : (m.writeBytes a bs).readBytes a bs.length = bs := by
  refine List.ext_getElem (by simp) fun k h1 h2 => ?_
  simp only [Memory.readBytes, List.getElem_map, List.getElem_range]
  exact Memory.read_writeBytes_inside h hb h2

/-- Bytes that all read alike make the same byte string. -/
theorem Memory.readBytes_congr {m m' : Memory} {a n : Nat} (h : ∀ k, k < n → m'.read (a + k) = m.read (a + k)) :
    m'.readBytes a n = m.readBytes a n := by
  simp only [Memory.readBytes]
  exact List.map_congr_left fun k hk => h k (List.mem_range.mp hk)

/-- The draw of a reset is canonical (R63). -/
theorem Memory.wf_ofCells (n : Nat) (cells : List Host.Cell) : (Memory.ofCells n cells).wf n = true := by
  suffices h : ∀ (m : Memory), m.wf n = true →
      (cells.foldl (fun m c => if c.1 < n then m.write c.1 c.2 else m) m).wf n = true from h [] rfl
  induction cells with
  | nil => exact fun m h => h
  | cons c cells ih =>
    intro m h
    refine ih _ ?_
    dsimp only
    split
    · next hc => exact Memory.wfFrom_write c.2 h (Nat.zero_le _) hc
    · exact h

end Sys2Proof.Machine
end

