-- ==== Sys2Proof/Laws/State.lean ====
section
/-! SUPPORT. One lemma per field per update of State, so that no proof unfolds a record update. -/

namespace Sys2Proof.Machine

variable (s : State)

/-! ### `State.complete` -/

@[simp] theorem State.complete_cfg (e : ErrCode) : (s.complete e).cfg = s.cfg := rfl
@[simp] theorem State.complete_seq (e : ErrCode) : (s.complete e).seq = .idle := rfl
@[simp] theorem State.complete_cmdL (e : ErrCode) : (s.complete e).cmdL = s.cmdL := rfl
@[simp] theorem State.complete_argL (e : ErrCode) : (s.complete e).argL = s.argL := rfl
@[simp] theorem State.complete_args (e : ErrCode) : (s.complete e).args = s.args := rfl
@[simp] theorem State.complete_done (e : ErrCode) : (s.complete e).done = true := rfl
@[simp] theorem State.complete_cmdOvf (e : ErrCode) : (s.complete e).cmdOvf = s.cmdOvf := rfl
@[simp] theorem State.complete_busyAcc (e : ErrCode) : (s.complete e).busyAcc = s.busyAcc := rfl
@[simp] theorem State.complete_err (e : ErrCode) : (s.complete e).err = e := rfl
@[simp] theorem State.complete_irqEn (e : ErrCode) : (s.complete e).irqEn = s.irqEn := rfl
@[simp] theorem State.complete_bcArmed (e : ErrCode) : (s.complete e).bcArmed = s.bcArmed := rfl
@[simp] theorem State.complete_slots (e : ErrCode) : (s.complete e).slots = s.slots := rfl
@[simp] theorem State.complete_hctx (e : ErrCode) : (s.complete e).hctx = s.hctx := rfl
@[simp] theorem State.complete_dbuf (e : ErrCode) : (s.complete e).dbuf = s.dbuf := rfl
@[simp] theorem State.complete_prim (e : ErrCode) : (s.complete e).prim = s.prim := rfl
@[simp] theorem State.complete_inputs (e : ErrCode) : (s.complete e).inputs = s.inputs := rfl
@[simp] theorem State.complete_busReply (e : ErrCode) : (s.complete e).busReply = s.busReply := rfl

/-! ### `State.accept` -/

@[simp] theorem State.accept_cfg (w : Word) : (s.accept w).cfg = s.cfg := rfl
@[simp] theorem State.accept_seq (w : Word) : (s.accept w).seq = .busy := rfl
@[simp] theorem State.accept_cmdL (w : Word) : (s.accept w).cmdL = w := rfl
@[simp] theorem State.accept_argL (w : Word) : (s.accept w).argL = s.args := rfl
@[simp] theorem State.accept_args (w : Word) : (s.accept w).args = s.args := rfl
@[simp] theorem State.accept_done (w : Word) : (s.accept w).done = false := rfl
@[simp] theorem State.accept_cmdOvf (w : Word) : (s.accept w).cmdOvf = s.cmdOvf := rfl
@[simp] theorem State.accept_busyAcc (w : Word) : (s.accept w).busyAcc = s.busyAcc := rfl
@[simp] theorem State.accept_err (w : Word) : (s.accept w).err = .ok := rfl
@[simp] theorem State.accept_irqEn (w : Word) : (s.accept w).irqEn = s.irqEn := rfl
@[simp] theorem State.accept_bcArmed (w : Word) : (s.accept w).bcArmed = s.bcArmed := rfl
@[simp] theorem State.accept_slots (w : Word) : (s.accept w).slots = s.slots := rfl
@[simp] theorem State.accept_hctx (w : Word) : (s.accept w).hctx = s.hctx := rfl
@[simp] theorem State.accept_dbuf (w : Word) : (s.accept w).dbuf = s.dbuf := rfl
@[simp] theorem State.accept_prim (w : Word) : (s.accept w).prim = s.prim := rfl
@[simp] theorem State.accept_inputs (w : Word) : (s.accept w).inputs = s.inputs := rfl
@[simp] theorem State.accept_busReply (w : Word) : (s.accept w).busReply = s.busReply := rfl

/-! ### `State.setSlot` -/

@[simp] theorem State.setSlot_cfg (i : BitVec 4) (x : Slot) : (s.setSlot i x).cfg = s.cfg := rfl
@[simp] theorem State.setSlot_seq (i : BitVec 4) (x : Slot) : (s.setSlot i x).seq = s.seq := rfl
@[simp] theorem State.setSlot_cmdL (i : BitVec 4) (x : Slot) : (s.setSlot i x).cmdL = s.cmdL := rfl
@[simp] theorem State.setSlot_argL (i : BitVec 4) (x : Slot) : (s.setSlot i x).argL = s.argL := rfl
@[simp] theorem State.setSlot_args (i : BitVec 4) (x : Slot) : (s.setSlot i x).args = s.args := rfl
@[simp] theorem State.setSlot_done (i : BitVec 4) (x : Slot) : (s.setSlot i x).done = s.done := rfl
@[simp] theorem State.setSlot_cmdOvf (i : BitVec 4) (x : Slot) : (s.setSlot i x).cmdOvf = s.cmdOvf := rfl
@[simp] theorem State.setSlot_busyAcc (i : BitVec 4) (x : Slot) : (s.setSlot i x).busyAcc = s.busyAcc := rfl
@[simp] theorem State.setSlot_err (i : BitVec 4) (x : Slot) : (s.setSlot i x).err = s.err := rfl
@[simp] theorem State.setSlot_irqEn (i : BitVec 4) (x : Slot) : (s.setSlot i x).irqEn = s.irqEn := rfl
@[simp] theorem State.setSlot_bcArmed (i : BitVec 4) (x : Slot) : (s.setSlot i x).bcArmed = s.bcArmed := rfl
@[simp] theorem State.setSlot_slots (i : BitVec 4) (x : Slot) : (s.setSlot i x).slots = s.slots.set i.toNat x := rfl
@[simp] theorem State.setSlot_hctx (i : BitVec 4) (x : Slot) : (s.setSlot i x).hctx = s.hctx := rfl
@[simp] theorem State.setSlot_dbuf (i : BitVec 4) (x : Slot) : (s.setSlot i x).dbuf = s.dbuf := rfl
@[simp] theorem State.setSlot_prim (i : BitVec 4) (x : Slot) : (s.setSlot i x).prim = s.prim := rfl
@[simp] theorem State.setSlot_inputs (i : BitVec 4) (x : Slot) : (s.setSlot i x).inputs = s.inputs := rfl
@[simp] theorem State.setSlot_busReply (i : BitVec 4) (x : Slot) : (s.setSlot i x).busReply = s.busReply := rfl

/-! ### `State.writeBuf` -/

@[simp] theorem State.writeBuf_cfg (b : Buf) (bs : List Byte) : (s.writeBuf b bs).cfg = s.cfg := rfl
@[simp] theorem State.writeBuf_seq (b : Buf) (bs : List Byte) : (s.writeBuf b bs).seq = s.seq := rfl
@[simp] theorem State.writeBuf_cmdL (b : Buf) (bs : List Byte) : (s.writeBuf b bs).cmdL = s.cmdL := rfl
@[simp] theorem State.writeBuf_argL (b : Buf) (bs : List Byte) : (s.writeBuf b bs).argL = s.argL := rfl
@[simp] theorem State.writeBuf_args (b : Buf) (bs : List Byte) : (s.writeBuf b bs).args = s.args := rfl
@[simp] theorem State.writeBuf_done (b : Buf) (bs : List Byte) : (s.writeBuf b bs).done = s.done := rfl
@[simp] theorem State.writeBuf_cmdOvf (b : Buf) (bs : List Byte) : (s.writeBuf b bs).cmdOvf = s.cmdOvf := rfl
@[simp] theorem State.writeBuf_busyAcc (b : Buf) (bs : List Byte) : (s.writeBuf b bs).busyAcc = s.busyAcc := rfl
@[simp] theorem State.writeBuf_err (b : Buf) (bs : List Byte) : (s.writeBuf b bs).err = s.err := rfl
@[simp] theorem State.writeBuf_irqEn (b : Buf) (bs : List Byte) : (s.writeBuf b bs).irqEn = s.irqEn := rfl
@[simp] theorem State.writeBuf_bcArmed (b : Buf) (bs : List Byte) : (s.writeBuf b bs).bcArmed = s.bcArmed := rfl
@[simp] theorem State.writeBuf_slots (b : Buf) (bs : List Byte) : (s.writeBuf b bs).slots = s.slots := rfl
@[simp] theorem State.writeBuf_hctx (b : Buf) (bs : List Byte) : (s.writeBuf b bs).hctx = s.hctx := rfl
@[simp] theorem State.writeBuf_dbuf (b : Buf) (bs : List Byte) : (s.writeBuf b bs).dbuf = s.dbuf.writeBytes b.off bs := rfl
@[simp] theorem State.writeBuf_prim (b : Buf) (bs : List Byte) : (s.writeBuf b bs).prim = s.prim := rfl
@[simp] theorem State.writeBuf_inputs (b : Buf) (bs : List Byte) : (s.writeBuf b bs).inputs = s.inputs := rfl
@[simp] theorem State.writeBuf_busReply (b : Buf) (bs : List Byte) : (s.writeBuf b bs).busReply = s.busReply := rfl

/-! ### `State.reply` -/

@[simp] theorem State.reply_cfg (r : BusReply) : (s.reply r).cfg = s.cfg := rfl
@[simp] theorem State.reply_seq (r : BusReply) : (s.reply r).seq = s.seq := rfl
@[simp] theorem State.reply_cmdL (r : BusReply) : (s.reply r).cmdL = s.cmdL := rfl
@[simp] theorem State.reply_argL (r : BusReply) : (s.reply r).argL = s.argL := rfl
@[simp] theorem State.reply_args (r : BusReply) : (s.reply r).args = s.args := rfl
@[simp] theorem State.reply_done (r : BusReply) : (s.reply r).done = s.done := rfl
@[simp] theorem State.reply_cmdOvf (r : BusReply) : (s.reply r).cmdOvf = s.cmdOvf := rfl
@[simp] theorem State.reply_busyAcc (r : BusReply) : (s.reply r).busyAcc = s.busyAcc := rfl
@[simp] theorem State.reply_err (r : BusReply) : (s.reply r).err = s.err := rfl
@[simp] theorem State.reply_irqEn (r : BusReply) : (s.reply r).irqEn = s.irqEn := rfl
@[simp] theorem State.reply_bcArmed (r : BusReply) : (s.reply r).bcArmed = s.bcArmed := rfl
@[simp] theorem State.reply_slots (r : BusReply) : (s.reply r).slots = s.slots := rfl
@[simp] theorem State.reply_hctx (r : BusReply) : (s.reply r).hctx = s.hctx := rfl
@[simp] theorem State.reply_dbuf (r : BusReply) : (s.reply r).dbuf = s.dbuf := rfl
@[simp] theorem State.reply_prim (r : BusReply) : (s.reply r).prim = s.prim := rfl
@[simp] theorem State.reply_inputs (r : BusReply) : (s.reply r).inputs = s.inputs := rfl
@[simp] theorem State.reply_busReply (r : BusReply) : (s.reply r).busReply = some r := rfl

/-! ### `State.resetBy` -/

@[simp] theorem State.resetBy_cfg (d : List Host.Cell) : (s.resetBy d).cfg = s.cfg := rfl
@[simp] theorem State.resetBy_seq (d : List Host.Cell) : (s.resetBy d).seq = .idle := rfl
@[simp] theorem State.resetBy_cmdL (d : List Host.Cell) : (s.resetBy d).cmdL = 0 := rfl
@[simp] theorem State.resetBy_argL (d : List Host.Cell) : (s.resetBy d).argL = Args.zero := rfl
@[simp] theorem State.resetBy_args (d : List Host.Cell) : (s.resetBy d).args = Args.zero := rfl
@[simp] theorem State.resetBy_done (d : List Host.Cell) : (s.resetBy d).done = false := rfl
@[simp] theorem State.resetBy_cmdOvf (d : List Host.Cell) : (s.resetBy d).cmdOvf = false := rfl
@[simp] theorem State.resetBy_busyAcc (d : List Host.Cell) : (s.resetBy d).busyAcc = false := rfl
@[simp] theorem State.resetBy_err (d : List Host.Cell) : (s.resetBy d).err = .ok := rfl
@[simp] theorem State.resetBy_irqEn (d : List Host.Cell) : (s.resetBy d).irqEn = false := rfl
@[simp] theorem State.resetBy_bcArmed (d : List Host.Cell) : (s.resetBy d).bcArmed = false := rfl
@[simp] theorem State.resetBy_slots (d : List Host.Cell) : (s.resetBy d).slots = List.replicate s.cfg.nSessions Slot.empty := rfl
@[simp] theorem State.resetBy_hctx (d : List Host.Cell) : (s.resetBy d).hctx = .idle := rfl
@[simp] theorem State.resetBy_dbuf (d : List Host.Cell) : (s.resetBy d).dbuf = Memory.ofCells s.cfg.bufBytes d := rfl
@[simp] theorem State.resetBy_prim (d : List Host.Cell) : (s.resetBy d).prim = s.prim := rfl
@[simp] theorem State.resetBy_inputs (d : List Host.Cell) : (s.resetBy d).inputs = s.inputs := rfl
@[simp] theorem State.resetBy_busReply (d : List Host.Cell) : (s.resetBy d).busReply = none := rfl

/-! ### Slots -/

@[simp] theorem State.complete_slot (e : ErrCode) (j : BitVec 4) : (s.complete e).slot j = s.slot j := rfl
@[simp] theorem State.writeBuf_slot (b : Buf) (bs : List Byte) (j : BitVec 4) : (s.writeBuf b bs).slot j = s.slot j := rfl

/-- A slot the core has reads back what was written to it. -/
theorem State.setSlot_slot_same {s : State} {i : BitVec 4} (x : Slot) (h : i.toNat < s.slots.length) :
    (s.setSlot i x).slot i = x := by
  simp [State.slot, h]

/-- The other slots read as before. -/
theorem State.setSlot_slot_other {s : State} {i j : BitVec 4} (x : Slot) (h : j ≠ i) :
    (s.setSlot i x).slot j = s.slot j := by
  have hn : i.toNat ≠ j.toNat := fun e => h (BitVec.eq_of_toNat_eq e.symm)
  simp [State.slot, List.getD, hn]

/-- A slot the core has is one of its slots. -/
theorem State.slot_mem {s : State} {i : BitVec 4} (h : i.toNat < s.slots.length) : s.slot i ∈ s.slots := by
  simp [State.slot, List.getD, List.getElem?_eq_getElem h]

end Sys2Proof.Machine
end

