-- ==== Sys2Proof/Laws/Ops.lean ====
section
/-! SUPPORT. What the shared operations can do, said once: a validation check, the bounded wait, one request on the
primitive port, and the buffer rules. -/

namespace Sys2Proof.Machine

/-! ### Validation -/

@[simp] theorem require_true (e : ErrCode) (s t : State) : require true e s t = t := rfl

@[simp] theorem require_false (e : ErrCode) (s t : State) : require false e s t = s.complete e := rfl

/-- A check that holds hands over to what follows it; one that fails ends the command with its code. -/
theorem require_cases (ok : Bool) (e : ErrCode) (s t : State) :
    (ok = true ∧ require ok e s t = t) ∨ (ok = false ∧ require ok e s t = s.complete e) := by
  cases ok <;> simp

/-! ### The primitive port -/

@[simp] theorem pollAnswer_nil (n : Nat) : pollAnswer n [] = .timeout := by cases n <;> rfl

@[simp] theorem Residue.length_bytes (r : Residue) (n : Nat) : (r.bytes n).length = n := by simp [Residue.bytes]

/-- A residue the reply lists whole is what the reply lists (R129). -/
theorem Residue.bytes_listed (l : List Byte) (d : Nat) : (Residue.mk l d).bytes l.length = l := by
  refine List.ext_getElem (by simp) fun i h1 h2 => ?_
  simp [Residue.bytes, h2]

/-- A byte the reply lists is the byte the failed request leaves (R297). -/
theorem Residue.getElem_bytes {r : Residue} {n k : Nat} {b : Byte} (h : r.listed[k]? = some b)
    (hk : k < (r.bytes n).length) : (r.bytes n)[k] = b := by
  simp [Residue.bytes, h]

/-- One block request: it is sent, and it ends `ok` with the primitive's value, or fails with one of two codes. -/
theorem PrimPort.requestBlock_cases (p : PrimPort) (key blk : Block) :
    (p.answer = .ok ∧ p.requestBlock key blk = .ok (Config.E key blk) (p.after (.block key blk))) ∨
      (p.answer = .error ∧ p.requestBlock key blk = .failed .primitiveError p.residue (p.after (.block key blk))) ∨
      (p.answer = .timeout ∧ p.requestBlock key blk = .failed .primitiveTimeout p.residue (p.after (.block key blk))) := by
  unfold PrimPort.requestBlock
  cases h : p.answer <;> simp [Answer.code]

/-- A failed block request has one of the two primitive codes. -/
theorem PrimPort.requestBlock_failed {p : PrimPort} {key blk : Block} {e : ErrCode} {r : Residue} {q : PrimPort}
    (h : p.requestBlock key blk = .failed e r q) :
    (e = .primitiveError ∨ e = .primitiveTimeout) ∧ r = p.residue ∧ q = p.after (.block key blk) := by
  rcases p.requestBlock_cases key blk with ⟨_, h'⟩ | ⟨_, h'⟩ | ⟨_, h'⟩ <;> rw [h'] at h <;> cases h <;> simp

/-- A listed reply that answers `ok` makes the next request answer `ok`. -/
theorem PrimPort.answer_of_okFor {p : PrimPort} {n : Nat} (h : p.okFor (n + 1)) :
    p.answer = .ok ∧ ∀ q, (p.after q).okFor n := by
  obtain ⟨hl, hr⟩ := h
  cases hp : p.replies with
  | nil => simp [hp] at hl
  | cons r rs =>
    simp only [hp, List.take_succ_cons, List.mem_cons, forall_eq_or_imp] at hr
    simp only [hp, List.length_cons] at hl
    refine ⟨by simpa [PrimPort.answer, PrimPort.nextReply, hp] using hr.1, fun q => ?_⟩
    simp only [PrimPort.okFor, PrimPort.after, hp, List.tail_cons]
    exact ⟨by omega, hr.2⟩

/-- Where the first request fails, it is the next one, and it fails with its own reply. -/
theorem PrimPort.answer_of_failsAt_zero {p : PrimPort} {x : Reply} (h : p.failsAt 0 x) :
    p.answer = pollAnswer Config.retryBudget x.samples ∧ p.answer ≠ .ok ∧ p.residue = ⟨x.residue, p.draws⟩ := by
  obtain ⟨_, hx, hf⟩ := h
  cases hp : p.replies with
  | nil => simp [hp] at hx
  | cons r rs =>
    simp only [hp, List.getElem?_cons_zero, Option.some.injEq] at hx
    subst hx
    simp [PrimPort.answer, PrimPort.residue, PrimPort.nextReply, hp, hf]

/-- Where a later request fails, the next one is answered `ok`, and the failing one is one nearer. -/
theorem PrimPort.answer_of_failsAt_succ {p : PrimPort} {j : Nat} {x : Reply} (h : p.failsAt (j + 1) x) :
    p.answer = .ok ∧ ∀ q, (p.after q).failsAt j x := by
  obtain ⟨hok, hx, hf⟩ := h
  obtain ⟨ha, hn⟩ := PrimPort.answer_of_okFor hok
  refine ⟨ha, fun q => ⟨hn q, ?_, hf⟩⟩
  simpa [PrimPort.after, List.getElem?_tail] using hx

/-! ### Buffers -/

/-- Two buffers overlap (R73) exactly when they share a byte. -/
theorem Buf.overlaps_iff (a b : Buf) : a.overlaps b = true ↔ a.Meets b := by
  simp only [Buf.overlaps, Bool.and_eq_true, decide_eq_true_eq, Buf.Meets]
  constructor
  · rintro ⟨⟨⟨h1, h2⟩, h3⟩, h4⟩
    exact ⟨max a.off b.off, by omega, by omega⟩
  · rintro ⟨x, hx, hy⟩
    omega

/-- Apart is apart both ways. -/
theorem Buf.overlaps_comm (a b : Buf) : a.overlaps b = b.overlaps a := by
  rw [Bool.eq_iff_iff, Buf.overlaps_iff, Buf.overlaps_iff]
  exact ⟨fun ⟨x, h, k⟩ => ⟨x, k, h⟩, fun ⟨x, h, k⟩ => ⟨x, k, h⟩⟩

@[simp] theorem State.length_readBuf (s : State) (b : Buf) : (s.readBuf b).length = b.len := by simp [State.readBuf]

end Sys2Proof.Machine
end

