-- ==== Sys2Proof/Laws/Stream.lean ====
section
/-! SUPPORT. The counter block and the CTR stream: what the stream gives when every request is answered, what it can
give at all, and the keystream as a function. -/

namespace Sys2Proof.Machine

/-! ### The counter block -/

/-- The bits of a counter block whose counter field is set: 31 to 0 are the counter's, the rest as before. -/
theorem getLsbD_setCtr (cb : Block) (c : Word) (i : Nat) :
    (setCtr cb c).getLsbD i = if i < 32 then c.getLsbD i else cb.getLsbD i := by
  have h := BitVec.getLsbD_append (x := cb.extractLsb' 32 96) (y := c) (i := i)
  refine Eq.trans h ?_
  by_cases hi : i < 32
  · simp [hi]
  · have h' : 32 + (i - 32) = i := by omega
    by_cases h128 : i - 32 < 96
    · simp [hi, h', h128]
    · simp [hi, h128, BitVec.getLsbD_of_ge cb i (by omega)]

@[simp] theorem cbPrefix_setCtr (cb : Block) (c : Word) : cbPrefix (setCtr cb c) = cbPrefix cb := by
  apply BitVec.eq_of_getLsbD_eq
  intro i hi
  simp [cbPrefix, getLsbD_setCtr]

@[simp] theorem cbCtr_setCtr (cb : Block) (c : Word) : cbCtr (setCtr cb c) = c := by
  apply BitVec.eq_of_getLsbD_eq
  intro i hi
  simp [cbCtr, getLsbD_setCtr, hi]

/-- A counter block is its prefix and its counter field. -/
theorem setCtr_cbCtr (cb : Block) : setCtr cb (cbCtr cb) = cb := by
  apply BitVec.eq_of_getLsbD_eq
  intro i hi
  simp only [getLsbD_setCtr, cbCtr]
  split
  · next h => simp [h]
  · rfl

@[simp] theorem setCtr_setCtr (cb : Block) (c d : Word) : setCtr (setCtr cb c) d = setCtr cb d := by
  apply BitVec.eq_of_getLsbD_eq
  intro i hi
  simp only [getLsbD_setCtr]
  split <;> rfl

@[simp] theorem incBy_zero (cb : Block) : incBy cb 0 = cb := by simp [incBy, setCtr_cbCtr]

theorem incBy_incCb (cb : Block) (n : Nat) : incBy (incCb cb) n = incBy cb (n + 1) := by
  have h : cbCtr cb + 1#32 + BitVec.ofNat 32 n = cbCtr cb + BitVec.ofNat 32 (n + 1) := by
    rw [BitVec.ofNat_add, BitVec.add_assoc, BitVec.add_comm 1#32]
  unfold incBy incCb
  rw [cbCtr_setCtr, setCtr_setCtr]
  exact congrArg (setCtr cb) h

@[simp] theorem counterBlocks_zero (cb : Block) : counterBlocks cb 0 = [] := rfl

theorem counterBlocks_succ (cb : Block) (n : Nat) : counterBlocks cb (n + 1) = cb :: counterBlocks (incCb cb) n := by
  have h : ∀ k, (incBy cb ∘ Nat.succ) k = incBy (incCb cb) k := fun k => by rw [incBy_incCb]; rfl
  unfold counterBlocks
  rw [List.range_succ_eq_map, List.map_cons, List.map_map, incBy_zero, funext h]

@[simp] theorem length_counterBlocks (cb : Block) (n : Nat) : (counterBlocks cb n).length = n := by simp [counterBlocks]

@[simp] theorem keystream_zero (key cb : Block) : keystream key cb 0 = [] := rfl

theorem keystream_succ (key cb : Block) (n : Nat) :
    keystream key cb (n + 1) = toBytes 16 (Config.E key cb) ++ keystream key (incCb cb) n := by
  simp [keystream, counterBlocks_succ]

@[simp] theorem length_keystream (key cb : Block) (n : Nat) : (keystream key cb n).length = 16 * n := by
  induction n generalizing cb with
  | zero => rfl
  | succ n ih => rw [keystream_succ]; simp [ih]; omega

theorem le_blockCount (n : Nat) : n ≤ 16 * blockCount n := by simp only [blockCount]; omega

@[simp] theorem length_ctrOf (key cb : Block) (x : List Byte) : (ctrOf key cb x).length = x.length := by
  have := le_blockCount x.length
  simp [ctrOf]
  omega

/-! ### The stream -/

@[simp] theorem PrimPort.afterBlocks_zero (p : PrimPort) (key cb : Block) : p.afterBlocks key cb 0 = p := by
  simp [PrimPort.afterBlocks]

theorem PrimPort.afterBlocks_succ (p : PrimPort) (key cb : Block) (n : Nat) :
    (p.after (.block key cb)).afterBlocks key (incCb cb) n = p.afterBlocks key cb (n + 1) := by
  simp [PrimPort.afterBlocks, PrimPort.after, counterBlocks_succ, List.drop_tail, Nat.add_comm, Nat.add_left_comm]

/-- The last keystream block of `n`, if there is one (R164). -/
def lastBlock (key cb : Block) (n : Nat) : Option Block :=
  if n = 0 then none else some (Config.E key (incBy cb (n - 1)))

theorem lastBlock_succ (key cb : Block) (n : Nat) :
    some ((lastBlock key (incCb cb) n).getD (Config.E key cb)) = lastBlock key cb (n + 1) := by
  cases n with
  | zero => simp [lastBlock]
  | succ n => simp [lastBlock, incBy_incCb]

/-- The block loop when it ends: its output, its counter block, its last keystream block and the requests it made. -/
theorem ctrBlocks_done {key : Block} {n : Nat} {cb : Block} {x : List Byte} {p : PrimPort} {y : List Byte} {cb' : Block}
    {ks : Option Block} {q : PrimPort} (h : ctrBlocks key n cb x p = .done y cb' ks q) :
    y = xorBytes x (keystream key cb n) ∧ cb' = incBy cb n ∧ ks = lastBlock key cb n ∧ q = p.afterBlocks key cb n := by
  induction n generalizing cb x p y cb' ks q with
  | zero =>
    simp only [ctrBlocks, StreamResult.done.injEq] at h
    obtain ⟨rfl, rfl, rfl, rfl⟩ := h
    simp [lastBlock, xorBytes]
  | succ n ih =>
    simp only [ctrBlocks] at h
    rcases p.requestBlock_cases key cb with ⟨_, hr⟩ | ⟨_, hr⟩ | ⟨_, hr⟩ <;> simp only [hr] at h
    · cases hb : ctrBlocks key n (incCb cb) (x.drop 16) (p.after (.block key cb)) with
      | failed e r p2 => simp [hb] at h
      | done y1 cb1 ks1 p1 =>
        obtain ⟨hy, hc, hk, hq⟩ := ih hb
        simp only [hb, StreamResult.done.injEq] at h
        obtain ⟨rfl, rfl, rfl, rfl⟩ := h
        refine ⟨?_, by rw [hc, incBy_incCb], by rw [hk, lastBlock_succ], by rw [hq, PrimPort.afterBlocks_succ]⟩
        rw [keystream_succ, hy]
        by_cases hx : x.length ≤ 16
        · rw [List.drop_eq_nil_of_le hx, List.take_of_length_le hx, xorBytes_nil_left, List.append_nil,
            xorBytes_append_right _ (by simpa using hx)]
        · conv_rhs => rw [← List.take_append_drop 16 x]
          rw [xorBytes_append (by simp; omega)]
    · cases h
    · cases h

/-- The block loop when a request fails: the code is one of the two primitive codes, and the requests before it were
answered (R176). -/
theorem ctrBlocks_failed {key : Block} {n : Nat} {cb : Block} {x : List Byte} {p : PrimPort} {e : ErrCode} {r : Residue}
    {q : PrimPort} (h : ctrBlocks key n cb x p = .failed e r q) :
    (e = .primitiveError ∨ e = .primitiveTimeout) ∧ ∃ j, j < n ∧ q = p.afterBlocks key cb (j + 1) := by
  induction n generalizing cb x p e r q with
  | zero => cases h
  | succ n ih =>
    simp only [ctrBlocks] at h
    rcases p.requestBlock_cases key cb with ⟨_, hr⟩ | ⟨_, hr⟩ | ⟨_, hr⟩ <;> simp only [hr] at h
    · cases hb : ctrBlocks key n (incCb cb) (x.drop 16) (p.after (.block key cb)) with
      | done y1 cb1 ks1 p1 => simp [hb] at h
      | failed e1 r1 p1 =>
        obtain ⟨he, j, hj, hq⟩ := ih hb
        simp only [hb, StreamResult.failed.injEq] at h
        obtain ⟨rfl, rfl, rfl⟩ := h
        exact ⟨he, j + 1, by omega, by rw [hq, PrimPort.afterBlocks_succ]⟩
    · cases h
      exact ⟨.inl rfl, 0, by omega, by rw [← PrimPort.afterBlocks_succ, PrimPort.afterBlocks_zero]⟩
    · cases h
      exact ⟨.inr rfl, 0, by omega, by rw [← PrimPort.afterBlocks_succ, PrimPort.afterBlocks_zero]⟩

/-- The block loop when request `j` is the first that fails: its code, its residue, and no request after it (R176). -/
theorem ctrBlocks_of_failsAt {key : Block} {n j : Nat} {cb : Block} {y : List Byte} {p : PrimPort} {x : Reply}
    (hj : j < n) (h : p.failsAt j x) :
    ctrBlocks key n cb y p =
      .failed (pollAnswer Config.retryBudget x.samples).code ⟨x.residue, p.draws + j⟩ (p.afterBlocks key cb (j + 1)) := by
  induction n generalizing j cb y p with
  | zero => omega
  | succ n ih =>
    cases j with
    | zero =>
      obtain ⟨ha, hne, hr⟩ := PrimPort.answer_of_failsAt_zero h
      rw [← ha, ← PrimPort.afterBlocks_succ, PrimPort.afterBlocks_zero]
      unfold ctrBlocks PrimPort.requestBlock
      cases hp : p.answer
      · exact absurd hp hne
      · simp [hr]
      · simp [hr]
    | succ j =>
      obtain ⟨ha, hn⟩ := PrimPort.answer_of_failsAt_succ h
      have := ih (j := j) (cb := incCb cb) (y := y.drop 16) (by omega) (hn (.block key cb))
      have hd : (p.after (.block key cb)).draws + j = p.draws + (j + 1) := by simp only [PrimPort.after]; omega
      rw [PrimPort.afterBlocks_succ, hd] at this
      simp only [ctrBlocks, PrimPort.requestBlock, ha, this]

/-- The block loop ends when every request is answered `ok`. -/
theorem ctrBlocks_of_okFor {key : Block} {n : Nat} {cb : Block} {x : List Byte} {p : PrimPort} (h : p.okFor n) :
    ctrBlocks key n cb x p =
      .done (xorBytes x (keystream key cb n)) (incBy cb n) (lastBlock key cb n) (p.afterBlocks key cb n) := by
  have hd : ∃ y cb' ks q, ctrBlocks key n cb x p = .done y cb' ks q := by
    induction n generalizing cb x p with
    | zero => exact ⟨_, _, _, _, rfl⟩
    | succ n ih =>
      obtain ⟨ha, hn⟩ := PrimPort.answer_of_okFor h
      obtain ⟨y, cb', ks, q, hb⟩ := ih (cb := incCb cb) (x := x.drop 16) (hn (.block key cb))
      simp [ctrBlocks, PrimPort.requestBlock, ha, hb]
  obtain ⟨y, cb', ks, q, hd⟩ := hd
  obtain ⟨rfl, rfl, rfl, rfl⟩ := ctrBlocks_done hd
  exact hd

/-- The stream when it ends (R164, R165). -/
theorem ctrStream_done {key cb : Block} {x : List Byte} {p : PrimPort} {y : List Byte} {cb' : Block} {ks : Option Block}
    {q : PrimPort} (h : ctrStream key cb x p = .done y cb' ks q) :
    y = ctrOf key cb x ∧ cb' = incBy cb (blockCount x.length) ∧ ks = lastBlock key cb (blockCount x.length) ∧
      q = p.afterBlocks key cb (blockCount x.length) :=
  ctrBlocks_done h

/-- The stream ends when every request is answered `ok`. -/
theorem ctrStream_of_okFor {key cb : Block} {x : List Byte} {p : PrimPort} (h : p.okFor (blockCount x.length)) :
    ctrStream key cb x p = .done (ctrOf key cb x) (incBy cb (blockCount x.length))
      (lastBlock key cb (blockCount x.length)) (p.afterBlocks key cb (blockCount x.length)) :=
  ctrBlocks_of_okFor h

/-- `CTRSTREAM` when request `j` is the first that fails. -/
theorem ctrStream_of_failsAt {key cb : Block} {y : List Byte} {p : PrimPort} {j : Nat} {x : Reply}
    (hj : j < blockCount y.length) (h : p.failsAt j x) :
    ctrStream key cb y p =
      .failed (pollAnswer Config.retryBudget x.samples).code ⟨x.residue, p.draws + j⟩ (p.afterBlocks key cb (j + 1)) :=
  ctrBlocks_of_failsAt hj h

/-- The slot the machine writes after a stream is the slot the statements name. -/
theorem Slot.advance_eq (x : Slot) (cb : Block) (n : Nat) :
    x.advance (incBy cb (blockCount n)) (lastBlock x.encKey cb (blockCount n)) = x.afterCtr cb n := by
  have : blockCount n = 0 ↔ n = 0 := by simp only [blockCount]; omega
  by_cases h : n = 0
  · subst h
    rfl
  · simp [Slot.advance, Slot.afterCtr, lastBlock, this, h]

end Sys2Proof.Machine
end

