-- ==== Sys2Proof/Laws/Exec.lean ====
section
/-! SUPPORT. What the execution step of each command family can do, said once, so that no proof unfolds one: past its
validation a command that uses the primitive either completes or ends with one of two codes, and a command that uses the
HMAC context finds it idle or active. -/

namespace Sys2Proof.Machine

/-- A failed request's code (R151). -/
abbrev PrimCode (e : ErrCode) : Prop := e = .primitiveError ∨ e = .primitiveTimeout

/-- The init request of BC_INIT: armed on `ok`, one of the two codes otherwise; one request either way. -/
theorem bcInitRequest_cases (s : State) :
    (s.prim.answer = .ok ∧ bcInitRequest s = { s with bcArmed := true, prim := s.prim.after .init }.complete .ok) ∨
      (s.prim.answer = .error ∧ bcInitRequest s = { s with prim := s.prim.after .init }.complete .primitiveError) ∨
      (s.prim.answer = .timeout ∧
        bcInitRequest s = { s with prim := s.prim.after .init }.complete .primitiveTimeout) := by
  unfold bcInitRequest PrimPort.requestInit
  cases h : s.prim.answer <;> simp [Answer.code]

/-- The request of BC_ENCRYPT_BLOCK: the cipher block is written, or the residue of the failed request. -/
theorem bcEncryptRun_cases (x : Slot) (s : State) :
    let blk := ofBytes 128 (s.readBuf (s.srcFixed 16))
    let s' := { s with prim := s.prim.after (.block x.encKey blk) }
    (s.prim.answer = .ok ∧
        bcEncryptRun x s = (s'.writeBuf (s.dstFixed 16) (toBytes 16 (Config.E x.encKey blk))).complete .ok) ∨
      ∃ e, PrimCode e ∧ s.prim.answer ≠ .ok ∧
        bcEncryptRun x s = (s'.writeBuf (s.dstFixed 16) (s.prim.residue.bytes 16)).complete e := by
  intro blk s'
  unfold bcEncryptRun
  rcases s.prim.requestBlock_cases x.encKey blk with ⟨h, hr⟩ | ⟨h, hr⟩ | ⟨h, hr⟩ <;>
    simp only [Config.blockBytes, hr, h, blk, s'] <;> simp

/-- The stream of a CTR command: the output, the slot and the port the statements name, or a failure after some of the
requests, with the output bytes the failed one leaves. -/
theorem ctrRun_cases (slot : BitVec 4) (s : State) :
    let x := s.slot slot
    (ctrRun slot s =
        (({ s with prim := s.prim.afterBlocks x.encKey x.cb (blockCount s.len) }.writeBuf s.dstBuf
          (ctrOf x.encKey x.cb (s.readBuf s.srcBuf))).setSlot slot (x.afterCtr x.cb s.len)).complete .ok) ∨
      ∃ (e : ErrCode) (r : Residue) (j : Nat), PrimCode e ∧ j < blockCount s.len ∧
        ctrRun slot s =
          ({ s with prim := s.prim.afterBlocks x.encKey x.cb (j + 1) }.writeBuf s.dstBuf
            (r.bytes s.len)).complete e := by
  intro x
  unfold ctrRun
  have hl : (s.readBuf s.srcBuf).length = s.len := by simp [State.srcBuf]
  cases h : ctrStream (s.slot slot).encKey (s.slot slot).cb (s.readBuf s.srcBuf) s.prim with
  | done y cb ks p =>
    obtain ⟨rfl, rfl, rfl, rfl⟩ := ctrStream_done h
    left
    simp only [hl, x]
    rw [Slot.advance_eq]
  | failed e r p =>
    obtain ⟨he, j, hj, rfl⟩ := ctrBlocks_failed h
    exact .inr ⟨e, r, j, he, by rwa [hl] at hj, rfl⟩

/-- HMAC_UPDATE past its checks: no context, or the bytes are absorbed. -/
theorem hmacUpdateRun_cases (s : State) :
    (s.hctx = .idle ∧ hmacUpdateRun s = s.complete .badState) ∨
      ∃ k0 m, s.hctx = .active k0 m ∧
        hmacUpdateRun s = { s with hctx := .active k0 (m ++ s.readBuf s.srcBuf) }.complete .ok := by
  unfold hmacUpdateRun
  cases h : s.hctx <;> simp

/-- HMAC_FINAL past its checks: no context, or the tag is written and the context is gone. -/
theorem hmacFinalRun_cases (s : State) :
    (s.hctx = .idle ∧ hmacFinalRun s = s.complete .badState) ∨
      ∃ k0 m, s.hctx = .active k0 m ∧
        hmacFinalRun s =
          ({ s with hctx := .idle }.writeBuf (s.dstFixed 32) (hmacOfBlock k0 m)).complete .ok := by
  unfold hmacFinalRun
  cases h : s.hctx <;> simp [Config.hashLen]

/-- The stream of SEAL and OPEN, from the slot's prefix and the counter operand. -/
theorem codecStream_cases (slot : BitVec 4) (s : State) :
    let x := s.slot slot
    let cb := setCtr x.cb s.counter
    (codecStream slot s = .done (ctrOf x.encKey cb (s.readBuf s.srcBuf)) (incBy cb (blockCount s.len))
        (lastBlock x.encKey cb (blockCount s.len)) (s.prim.afterBlocks x.encKey cb (blockCount s.len))) ∨
      ∃ (e : ErrCode) (r : Residue) (j : Nat), PrimCode e ∧ j < blockCount s.len ∧
        codecStream slot s = .failed e r (s.prim.afterBlocks x.encKey cb (j + 1)) := by
  intro x cb
  have hl : (s.readBuf s.srcBuf).length = s.len := by simp [State.srcBuf]
  cases h : codecStream slot s with
  | done y cb' ks p =>
    obtain ⟨rfl, rfl, rfl, rfl⟩ := ctrStream_done h
    left
    simp only [hl, x, cb]
  | failed e r p =>
    obtain ⟨he, j, hj, rfl⟩ := ctrBlocks_failed h
    exact .inr ⟨e, r, j, he, by rwa [hl] at hj, rfl⟩

/-- SEAL past its checks: the payload is written and the slot advances, or a request failed. The context is idle. -/
theorem sealRun_cases (slot : BitVec 4) (s : State) :
    let x := s.slot slot
    let cb := setCtr x.cb s.counter
    (sealRun slot s =
        (({ s with prim := s.prim.afterBlocks x.encKey cb (blockCount s.len), hctx := .idle }.writeBuf s.payloadBuf
          (payload s.cfg x.authKey (ctrOf x.encKey cb (s.readBuf s.srcBuf)) s.counter)).setSlot slot
            (x.afterCtr cb s.len)).complete .ok) ∨
      ∃ (e : ErrCode) (r : Residue) (j : Nat), PrimCode e ∧ j < blockCount s.len ∧
        sealRun slot s =
          ({ s with prim := s.prim.afterBlocks x.encKey cb (j + 1), hctx := .idle }.writeBuf s.payloadBuf
            (r.bytes s.payloadLen)).complete e := by
  intro x cb
  unfold sealRun
  rcases codecStream_cases slot s with h | ⟨e, r, j, he, hj, h⟩
  · left
    simp only [h, x, cb, Slot.advance_eq]
  · right
    exact ⟨e, r, j, he, hj, by simp only [h, x, cb]⟩

/-- OPEN past its checks: the tags differ, or the plaintext is written and the slot advances, or a request failed. The
context is idle. -/
theorem openRun_cases (slot : BitVec 4) (s : State) :
    let x := s.slot slot
    let cb := setCtr x.cb s.counter
    (tagMatches slot s = false ∧ openRun slot s = { s with hctx := .idle }.complete .authFailure) ∨
      (tagMatches slot s = true ∧ openRun slot s =
        (({ s with prim := s.prim.afterBlocks x.encKey cb (blockCount s.len), hctx := .idle }.writeBuf s.dstBuf
          (ctrOf x.encKey cb (s.readBuf s.srcBuf))).setSlot slot (x.afterCtr cb s.len)).complete .ok) ∨
      ∃ (e : ErrCode) (r : Residue) (j : Nat), PrimCode e ∧ j < blockCount s.len ∧ tagMatches slot s = true ∧
        openRun slot s =
          ({ s with prim := s.prim.afterBlocks x.encKey cb (j + 1), hctx := .idle }.writeBuf s.dstBuf
            (r.bytes s.len)).complete e := by
  intro x cb
  unfold openRun openDecrypt
  cases ht : tagMatches slot s with
  | false => simp
  | true =>
    right
    rcases codecStream_cases slot s with h | ⟨e, r, j, he, hj, h⟩
    · left
      simp only [h, x, cb, Slot.advance_eq, if_true, true_and]
    · right
      exact ⟨e, r, j, he, hj, rfl, by simp only [h, x, cb, if_true]⟩

/-! ### Every command, in one statement -/

/-- A validation error's code (R292). -/
abbrev CheckCode (e : ErrCode) : Prop :=
  e = .illegalCommand ∨ e = .invalidLength ∨ e = .badBuffer ∨ e = .badState

/-- What a command that got past its checks leaves. -/
def Ran (i : Instr) (s t : State) : Prop :=
  match i with
  | .nop => t = s.complete .ok
  | .bcInit => (s.bcArmed = true ∧ t = s.complete .ok) ∨ (s.bcArmed = false ∧ t = bcInitRequest s)
  | .bcEncryptBlock n => t = bcEncryptRun (s.slot n) s
  | .ctrSetKey n =>
    t = (s.setSlot n { s.slot n with
      encKey := ofBytes 128 (s.readBuf (s.srcFixed 16)), encValid := true, ksLast := 0 }).complete .ok
  | .ctrSetIv n =>
    t = (s.setSlot n { s.slot n with cb := ofBytes 128 (s.readBuf (s.srcFixed 16)) }).complete .ok
  | .ctrSetCounter n => t = (s.setSlot n { s.slot n with cb := setCtr (s.slot n).cb s.counter }).complete .ok
  | .ctrEncrypt n => (s.len = 0 ∧ t = s.complete .ok) ∨ (0 < s.len ∧ t = ctrRun n s)
  | .ctrDecrypt n => (s.len = 0 ∧ t = s.complete .ok) ∨ (0 < s.len ∧ t = ctrRun n s)
  | .ctrGetState n =>
    t = (s.writeBuf (s.dstFixed 32) (toBytes 16 (s.slot n).cb ++ toBytes 16 (s.slot n).ksLast)).complete .ok
  | .hmacInit => t = { s with hctx := .active (keyBlock (s.readBuf s.srcBuf)) [] }.complete .ok
  | .hmacUpdate => s.hctx ≠ .idle ∧ t = hmacUpdateRun s
  | .hmacFinal => s.hctx ≠ .idle ∧ t = hmacFinalRun s
  | .hkdfExtract =>
    t = ({ s with hctx := .idle }.writeBuf (s.dstFixed 32)
      (hkdfExtract (s.readBuf s.srcBuf) (s.readBuf s.auxBuf))).complete .ok
  | .hkdfExpand =>
    t = ({ s with hctx := .idle }.writeBuf s.dstBuf
      (hkdfExpand (s.readBuf (s.srcFixed 32)) (s.readBuf s.auxBuf) s.len)).complete .ok
  | .sessionLoad n => t = (s.setSlot n (Slot.ofImage (s.readBuf (s.srcFixed 64)))).complete .ok
  | .sessionClear n => t = (s.setSlot n Slot.empty).complete .ok
  | .sealPayload n => t = sealRun n s
  | .openPayload n => t = openRun n s

/-- The checks of a command, in the order they are made (R124), each with its code. Those of HMAC_UPDATE and HMAC_FINAL
on the context are made by their execution step, and stand here too. -/
def checksOf (i : Instr) (s : State) : List (Bool × ErrCode) :=
  match i with
  | .nop => []
  | .bcInit => []
  | .bcEncryptBlock n =>
    [(s.hasSlot n, .illegalCommand), (bcEncryptBuffers s, .badBuffer), ((s.slot n).encValid && s.bcArmed, .badState)]
  | .ctrSetKey n =>
    [(s.hasSlot n, .illegalCommand), ((s.srcFixed 16).inRange s.cfg, .badBuffer), (!(s.slot n).encValid, .badState)]
  | .ctrSetIv n => [(s.hasSlot n, .illegalCommand), ((s.srcFixed 16).inRange s.cfg, .badBuffer)]
  | .ctrSetCounter n => [(s.hasSlot n, .illegalCommand)]
  | .ctrEncrypt n =>
    [(s.hasSlot n, .illegalCommand), (decide (s.len = 0) || ctrBuffers s, .badBuffer),
      (decide (s.len = 0) || ((s.slot n).encValid && s.bcArmed), .badState)]
  | .ctrDecrypt n =>
    [(s.hasSlot n, .illegalCommand), (decide (s.len = 0) || ctrBuffers s, .badBuffer),
      (decide (s.len = 0) || ((s.slot n).encValid && s.bcArmed), .badState)]
  | .ctrGetState n => [(s.hasSlot n, .illegalCommand), ((s.dstFixed 32).inRange s.cfg, .badBuffer)]
  | .hmacInit => [(s.srcBuf.inRange s.cfg, .badBuffer)]
  | .hmacUpdate =>
    [(hmacLengthOk s, .invalidLength), (s.srcBuf.inRange s.cfg, .badBuffer), (s.hmacActive, .badState)]
  | .hmacFinal => [((s.dstFixed 32).inRange s.cfg, .badBuffer), (s.hmacActive, .badState)]
  | .hkdfExtract => [(hkdfExtractBuffers s, .badBuffer)]
  | .hkdfExpand => [(decide (s.len ≤ 8160), .invalidLength), (hkdfExpandBuffers s, .badBuffer)]
  | .sessionLoad n =>
    [(s.hasSlot n, .illegalCommand), ((s.srcFixed 64).inRange s.cfg, .badBuffer),
      (!(s.slot n).encValid && !(s.slot n).authValid, .badState)]
  | .sessionClear n => [(s.hasSlot n, .illegalCommand)]
  | .sealPayload n =>
    [(s.hasSlot n, .illegalCommand), (sealBuffers s, .badBuffer), (codecReady n s, .badState)]
  | .openPayload n =>
    [(s.hasSlot n, .illegalCommand), (openBuffers s, .badBuffer), (codecReady n s, .badState)]

/-- The code of the first check that fails, if one does. -/
def firstFailure (l : List (Bool × ErrCode)) : Option ErrCode := (l.find? fun c => !c.1).map Prod.snd

@[simp] theorem firstFailure_nil : firstFailure [] = none := rfl

@[simp] theorem firstFailure_cons (ok : Bool) (e : ErrCode) (l : List (Bool × ErrCode)) :
    firstFailure ((ok, e) :: l) = if ok then firstFailure l else some e := by
  cases ok <;> simp [firstFailure]

/-- Every command: the first check that fails ends it with its code and no other effect; with no failure it runs. -/
theorem exec_cases (i : Instr) (s : State) :
    (∃ e, firstFailure (checksOf i s) = some e ∧ exec i s = .next (s.complete e)) ∨
      ∃ t, firstFailure (checksOf i s) = none ∧ exec i s = .next t ∧ Ran i s t := by
  cases i <;> simp only [checksOf, firstFailure_nil, firstFailure_cons, Ran, exec]
  case bcInit => cases h : s.bcArmed <;> simp [execBcInit, h]
  case bcEncryptBlock n =>
    unfold execBcEncryptBlock require
    repeat' split
    all_goals simp_all
  case ctrSetKey n =>
    unfold execCtrSetKey require
    repeat' split
    all_goals simp_all [Config.keyBytes]
  case ctrSetIv n =>
    unfold execCtrSetIv require
    repeat' split
    all_goals simp_all [Config.blockBytes]
  case ctrEncrypt n =>
    unfold execCtrEncrypt ctrCommand require
    by_cases h : s.len = 0
    all_goals repeat' split
    all_goals simp_all
    all_goals omega
  case ctrDecrypt n =>
    unfold execCtrDecrypt ctrCommand require
    by_cases h : s.len = 0
    all_goals repeat' split
    all_goals simp_all
    all_goals omega
  case hmacUpdate =>
    unfold execHmacUpdate require State.hmacActive
    cases h : s.hctx
    all_goals simp only [hmacUpdateRun, h]
    all_goals repeat' split
    all_goals simp_all
  case hmacFinal =>
    unfold execHmacFinal require State.hmacActive
    cases h : s.hctx
    all_goals simp only [hmacFinalRun, h, Config.hashLen]
    all_goals repeat' split
    all_goals simp_all
  case hkdfExpand =>
    unfold execHkdfExpand require
    rw [show Config.hkdfMax = 8160 from rfl]
    cases h : decide (s.len ≤ 8160)
    all_goals cases hb : hkdfExpandBuffers s
    all_goals simp [Config.hashLen]
  all_goals
    simp only [execNop, execCtrSetCounter, execCtrGetState, execHmacInit, execHkdfExtract,
      execSessionLoad, execSessionClear, execSealPayload, execOpenPayload, require, Config.hashLen,
      Config.sessionBytes]
    repeat' split
    all_goals simp_all

end Sys2Proof.Machine
end

