-- ==== Sys2Proof/Laws/Hash.lean ====
section
/-! SUPPORT. SHA-256, HMAC, HKDF and the codec: the lengths of what they give, and compression block by block. -/

namespace Sys2Proof.Machine

/-- A digest has 32 bytes (R199). -/
@[simp] theorem length_digest (v : ChainValue) : (digest v).length = 32 := by simp [digest]

/-- A hash has 32 bytes (R200). -/
@[simp] theorem length_sha256 (m : List Byte) : (sha256 m).length = 32 := length_digest _

/-- A tag has 32 bytes (R216). -/
@[simp] theorem length_hmacOfBlock (k0 m : List Byte) : (hmacOfBlock k0 m).length = 32 := length_sha256 _

/-- A tag has 32 bytes (R216). -/
@[simp] theorem length_hmac (k m : List Byte) : (hmac k m).length = 32 := length_sha256 _

@[simp] theorem length_hmacAuth (k : AuthKey) (m : List Byte) : (hmacAuth k m).length = 32 := length_sha256 _

@[simp] theorem length_innerPad (k0 : List Byte) : (innerPad k0).length = k0.length := by simp [innerPad]

@[simp] theorem length_outerPad (k0 : List Byte) : (outerPad k0).length = k0.length := by simp [outerPad]

/-- A key block has 64 bytes (R212). -/
@[simp] theorem length_keyBlock (k : List Byte) : (keyBlock k).length = 64 := by
  unfold keyBlock
  by_cases h : Config.hashBlock < k.length
  · rw [if_pos h]
    simp [Config.hashBlock, Config.hashLen]
  · rw [if_neg h]
    simp only [Config.hashBlock] at *
    simp
    omega

/-- A PRK has 32 bytes (R237). -/
@[simp] theorem length_hkdfExtract (salt ikm : List Byte) : (hkdfExtract salt ikm).length = 32 := length_hmac _ _

@[simp] theorem length_expandBlocks (prk info : List Byte) (n i : Nat) (t : List Byte) :
    (expandBlocks prk info n i t).length = 32 * n := by
  induction n generalizing i t with
  | zero => rfl
  | succ n ih =>
    simp only [expandBlocks, List.length_append, ih, length_hmac]
    omega

/-- An expansion is as long as was asked for (R237). -/
@[simp] theorem length_hkdfExpand (prk info : List Byte) (l : Nat) : (hkdfExpand prk info l).length = l := by
  simp [hkdfExpand]
  omega

/-- The wire counter has `CW` bytes (R258). -/
@[simp] theorem length_encCtr (o : WireOrder) (c : Word) : (encCtr o c).length = 4 := by cases o <;> simp [encCtr]

/-- The length of a sealed payload (R256). -/
theorem length_payload {p : Params} (h : p.tagLen ≤ 32) (k : AuthKey) (ct : List Byte) (c : Word) :
    (payload p k ct c).length = ct.length + 4 + p.tagLen := by
  simp [payload, payloadTag]
  omega

/-- Compressing `m + n` blocks is compressing `m` and then `n` (R200). -/
theorem compressBlocks_add (m n : Nat) (v : ChainValue) (p : List Byte) :
    compressBlocks (m + n) v p = compressBlocks n (compressBlocks m v p) (p.drop (64 * m)) := by
  induction m generalizing v p with
  | zero => simp [compressBlocks]
  | succ m ih =>
    rw [show m + 1 + n = (m + n) + 1 by omega, compressBlocks, ih, compressBlocks, List.drop_drop]
    congr 2
    omega

/-- Compression looks at no more than the blocks it counts. -/
theorem compressBlocks_append (n : Nat) (v : ChainValue) {p : List Byte} (q : List Byte) (h : 64 * n ≤ p.length) :
    compressBlocks n v (p ++ q) = compressBlocks n v p := by
  induction n generalizing v p with
  | zero => rfl
  | succ n ih =>
    rw [compressBlocks, compressBlocks, List.take_append_of_le_length (by omega),
      List.drop_append_of_le_length (by omega), ih _ (by simp; omega)]

/-- A padded message is a whole number of blocks (R196). -/
theorem length_pad_mod (m : List Byte) : (pad m).length % 64 = 0 := by
  simp [pad, padTail]
  omega

end Sys2Proof.Machine
end

