-- ==== Sys2Proof/Laws/PerInstr.lean ====
section
/-! SUPPORT. The family of statements about every command as syntax: the fields of its command word (30_encoding.md R91
to R94). One lemma per command. -/

namespace Sys2Proof.Laws.CommandWordFields

open Sys2Proof

/-- The command word of `i`: `RES0` is 0, the SLOT field is the command's slot, 0 where it takes none, and the opcode field
is that of a row of the table with or without a slot, as the command has one or not. -/
def Statement (i : Instr) : Prop :=
  res0Field (encode i) = 0 ∧ slotField (encode i) = i.slot?.getD 0 ∧
    (opField (encode i), i.slot?.isSome) ∈ opTable.map fun r => (r.op, r.slotted)

theorem nop : Statement .nop := by unfold Statement; decide
theorem bcInit : Statement .bcInit := by unfold Statement; decide
theorem bcEncryptBlock : ∀ s, Statement (.bcEncryptBlock s) := by unfold Statement; decide
theorem ctrSetKey : ∀ s, Statement (.ctrSetKey s) := by unfold Statement; decide
theorem ctrSetIv : ∀ s, Statement (.ctrSetIv s) := by unfold Statement; decide
theorem ctrSetCounter : ∀ s, Statement (.ctrSetCounter s) := by unfold Statement; decide
theorem ctrEncrypt : ∀ s, Statement (.ctrEncrypt s) := by unfold Statement; decide
theorem ctrDecrypt : ∀ s, Statement (.ctrDecrypt s) := by unfold Statement; decide
theorem ctrGetState : ∀ s, Statement (.ctrGetState s) := by unfold Statement; decide
theorem hmacInit : Statement .hmacInit := by unfold Statement; decide
theorem hmacUpdate : Statement .hmacUpdate := by unfold Statement; decide
theorem hmacFinal : Statement .hmacFinal := by unfold Statement; decide
theorem hkdfExtract : Statement .hkdfExtract := by unfold Statement; decide
theorem hkdfExpand : Statement .hkdfExpand := by unfold Statement; decide
theorem sessionLoad : ∀ s, Statement (.sessionLoad s) := by unfold Statement; decide
theorem sessionClear : ∀ s, Statement (.sessionClear s) := by unfold Statement; decide
theorem sealPayload : ∀ s, Statement (.sealPayload s) := by unfold Statement; decide
theorem openPayload : ∀ s, Statement (.openPayload s) := by unfold Statement; decide

end Sys2Proof.Laws.CommandWordFields
end

