-- ==== Sys2Proof/Tests/Slice0.lean ====
section
/-! SUPPORT. The model's own tests: the check of WellFormed refuses ill-formed commands, each command word decodes to
its command, one step of each command gives what 95_test_vectors.md says (T<n> names the vector), and a concrete state
meets the hypotheses of each obligation that has any. Values are the spec's; none was read off the model. -/

namespace Sys2Proof.Tests

open Sys2Proof Sys2Proof.Machine

set_option Elab.async false -- one theorem at a time: each takes a thread of its own otherwise

/-! ### WellFormed refuses -/

theorem test_wellFormed_refuses_slot_two_of_two : Instr.wellFormed Params.default (.ctrEncrypt 2) = false := by decide

theorem test_wellFormed_refuses_slot_fifteen : Instr.wellFormed Params.default (.sessionClear 15) = false := by decide

theorem test_wellFormed_accepts :
    Instr.wellFormed Params.default (.ctrEncrypt 1) = true ∧ Instr.wellFormed Params.default .hmacInit = true := by
  decide

/-! ### Decoding: words written out from the opcode map of 30_encoding.md R97 -/

theorem test_decode_nop : decode 0x00000000 = .ok .nop := by decide
theorem test_decode_bcInit : decode 0x00000001 = .ok .bcInit := by decide
theorem test_decode_bcEncryptBlock : decode 0x00000102 = .ok (.bcEncryptBlock 1) := by decide
theorem test_decode_ctrSetKey : decode 0x00000210 = .ok (.ctrSetKey 2) := by decide
theorem test_decode_ctrSetIv : decode 0x00000311 = .ok (.ctrSetIv 3) := by decide
theorem test_decode_ctrSetCounter : decode 0x00000412 = .ok (.ctrSetCounter 4) := by decide
theorem test_decode_ctrEncrypt : decode 0x00000113 = .ok (.ctrEncrypt 1) := by decide
theorem test_decode_ctrDecrypt : decode 0x00000814 = .ok (.ctrDecrypt 8) := by decide
theorem test_decode_ctrGetState : decode 0x00000F15 = .ok (.ctrGetState 15) := by decide
theorem test_decode_hmacInit : decode 0x00000020 = .ok .hmacInit := by decide
theorem test_decode_hmacUpdate : decode 0x00000021 = .ok .hmacUpdate := by decide
theorem test_decode_hmacFinal : decode 0x00000022 = .ok .hmacFinal := by decide
theorem test_decode_hkdfExtract : decode 0x00000030 = .ok .hkdfExtract := by decide
theorem test_decode_hkdfExpand : decode 0x00000031 = .ok .hkdfExpand := by decide
theorem test_decode_sessionLoad : decode 0x00000140 = .ok (.sessionLoad 1) := by decide
theorem test_decode_sessionClear : decode 0x00000A41 = .ok (.sessionClear 10) := by decide
theorem test_decode_sealPayload : decode 0x00000042 = .ok (.sealPayload 0) := by decide
theorem test_decode_openPayload : decode 0x00000143 = .ok (.openPayload 1) := by decide

/-- T50: the illegal words that no parameter decides, each by its name. -/
theorem test_decode_refuses :
    decode 0x00000005 = .error .reservedOpcode ∧ decode 0x000000FF = .error .reservedOpcode ∧
      decode 0x00001000 = .error .reservedBits ∧ decode 0x80000000 = .error .reservedBits ∧
      decode 0x00000101 = .error .slotNotTaken := by
  decide

theorem test_decodeTableWord : decodeTableWord 32 0x00000142 = some (.sealPayload 1) ∧
    decodeTableWord 32 0x00000044 = none := by decide

/-! ### Helpers -/

/-- `K1 ‖ AK ‖ ICB1`: the session image `IMG` of 95_test_vectors.md. -/
def image : List Byte :=
  toBytes 16 0x2b7e151628aed2a6abf7158809cf4f3c#128 ++
    toBytes 32 0x000102030405060708090a0b0c0d0e0f101112131415161718191a1b1c1d1e1f#256 ++
      toBytes 16 0xf0f1f2f3f4f5f6f7f8f9fafbfcfdfeff#128

/-- A reply that completes at the first sample. -/
def yes : Reply := { samples := [⟨true, false⟩], residue := [] }

/-- A reply that reports an error, leaving 16 bytes of 0xEE in the output. -/
def no : Reply := { samples := [⟨false, true⟩], residue := List.replicate 16 0xEE }

/-- A command in progress with the latched arguments `l`, `m` in DBUF, nothing armed and empty slots. -/
def cold (l : Args) (m : Memory) : State := { State.reset with seq := .busy, argL := l, dbuf := m }

/-- The same, armed, slot 0 loaded from `image`, and the primitive giving the replies `r`. -/
def warm (l : Args) (m : Memory) (r : List Reply) : State :=
  { cold l m with
    bcArmed := true, slots := [Slot.ofImage image, Slot.empty],
    prim := { replies := r, sent := [], draws := 0 } }

/-- The state an outcome gives. -/
def after (o : Host.Outcome State Fault Refusal) : State :=
  match o with
  | .next t => t
  | .fault _ => State.reset
  | .refused _ => State.reset

/-! ### One step of each command -/

/-- T51. -/
theorem test_nop : (after (exec .nop (cold Args.zero []))).statusWord = 0x00000002#32 := by decide +kernel

/-- T7, the separate run: the third request arms; the first failed. -/
theorem test_bcInit :
    (after (exec .bcInit { cold Args.zero [] with prim := { replies := [yes], sent := [], draws := 0 } })).statusWord =
        0x00000102#32 ∧
      (after (exec .bcInit { cold Args.zero [] with prim := { replies := [no], sent := [], draws := 0 } })).statusWord =
        0x00000042#32 := by
  decide +kernel

/-- T7 rows 1, 5 and 6: no key, partial overlap, out of range. -/
theorem test_bcEncryptBlock_refuses :
    (after (exec (.bcEncryptBlock 0) (cold ⟨0, 0x20, 0, 0, 0⟩ []))).statusWord = 0x00000062#32 ∧
      (after (exec (.bcEncryptBlock 0) (warm ⟨0, 8, 0, 0, 0⟩ [] [yes]))).statusWord = 0x00000172#32 ∧
      (after (exec (.bcEncryptBlock 0) (warm ⟨0x7F8, 0, 0, 0, 0⟩ [] [yes]))).err = .badBuffer := by
  decide +kernel

/-- T7 rows 7 and 10: in place at the last 16 bytes; an error. -/
theorem test_bcEncryptBlock_ends :
    (after (exec (.bcEncryptBlock 0) (warm ⟨0x7F0, 0x7F0, 0, 0, 0⟩ [] [yes]))).err = .ok ∧
      (after (exec (.bcEncryptBlock 0) (warm ⟨0x100, 0x120, 0, 0, 0⟩ [] [no]))).statusWord = 0x00000142#32 := by
  decide +kernel

/-- T7 row 2 and T41: the key is taken once. -/
theorem test_ctrSetKey :
    (after (exec (.ctrSetKey 0) (cold Args.zero (Memory.writeBytes [] 0 image)))).slotStatusWord = 1 ∧
      (after (exec (.ctrSetKey 0) (warm Args.zero [] []))).statusWord = 0x00000162#32 := by
  decide +kernel

theorem test_ctrSetIv :
    ((after (exec (.ctrSetIv 1) (cold ⟨48, 0, 0, 0, 0⟩ (Memory.writeBytes [] 0 image)))).slot 1).cb =
      0xf0f1f2f3f4f5f6f7f8f9fafbfcfdfeff#128 := by
  decide +kernel

/-- The example of 42_ctr.md R169. -/
theorem test_ctrSetCounter :
    ((after (exec (.ctrSetCounter 0) (warm ⟨0, 0, 0, 0xE7B00A25, 0⟩ [] []))).slot 0).cb =
      0xf0f1f2f3f4f5f6f7f8f9fafbe7b00a25#128 := by
  decide +kernel

/-- T2: 64 bytes take four requests, and the counter block ends at `…ff03`; T5: no bytes, unarmed, out of range. -/
theorem test_ctrEncrypt :
    ((after (exec (.ctrEncrypt 0) (warm ⟨0x40, 0x80, 64, 0, 0⟩ [] [yes, yes, yes, yes]))).slot 0).cb =
        0xf0f1f2f3f4f5f6f7f8f9fafbfcfdff03#128 ∧
      (after (exec (.ctrEncrypt 0) (warm ⟨0x40, 0x80, 64, 0, 0⟩ [] [yes, yes, yes, yes]))).prim.draws = 4 ∧
      (after (exec (.ctrEncrypt 1) (cold ⟨0x7FF0, 0x9000, 0, 0, 0⟩ []))).statusWord = 0x00000002#32 := by
  decide +kernel

/-- T41, last row: the third request fails; three requests, the counter block stays. T41, overlap. -/
theorem test_ctrEncrypt_fails :
    (after (exec (.ctrEncrypt 0) (warm ⟨0x40, 0x400, 64, 0, 0⟩ [] [yes, yes, ⟨[], []⟩]))).err =
        .primitiveTimeout ∧
      (after (exec (.ctrEncrypt 0) (warm ⟨0x40, 0x400, 64, 0, 0⟩ [] [yes, yes, ⟨[], []⟩]))).prim.draws = 3 ∧
      (after (exec (.ctrEncrypt 0) (warm ⟨0x40, 0x400, 64, 0, 0⟩ [] [yes, yes, ⟨[], []⟩]))).slots =
        [Slot.ofImage image, Slot.empty] ∧
      (after (exec (.ctrEncrypt 0) (warm ⟨0x40, 0x41, 16, 0, 0⟩ [] [yes]))).statusWord = 0x00000172#32 := by
  decide +kernel

/-- T9, 16 bytes in place: the counter block ends at `…ff00`. -/
theorem test_ctrDecrypt :
    ((after (exec (.ctrDecrypt 0) (warm ⟨0x80, 0x80, 16, 0, 0⟩ [] [yes]))).slot 0).cb =
      0xf0f1f2f3f4f5f6f7f8f9fafbfcfdff00#128 := by
  decide +kernel

/-- T8: the counter block first, then KS_LAST; `0x7E1 + 32` is out of range. -/
theorem test_ctrGetState :
    (after (exec (.ctrGetState 0) (warm ⟨0, 0xC0, 0, 0, 0⟩ [] []))).dbuf.readBytes 0xC0 32 =
        toBytes 16 0xf0f1f2f3f4f5f6f7f8f9fafbfcfdfeff#128 ++ List.replicate 16 0 ∧
      (after (exec (.ctrGetState 0) (warm ⟨0, 0x7E1, 0, 0, 0⟩ [] []))).err = .badBuffer := by
  decide +kernel

/-- T43 and §3.3: HMAC_INIT gives STATUS `0x202`; `0x7FF + 2` is out of range. -/
theorem test_hmacInit :
    (after (exec .hmacInit (cold ⟨0, 0, 20, 0, 0⟩ []))).statusWord = 0x00000202#32 ∧
      (after (exec .hmacInit (cold ⟨0x7FF, 0, 2, 0, 0⟩ []))).err = .badBuffer := by
  decide +kernel

/-- T43: refused without a context, zero bytes or not. -/
theorem test_hmacUpdate :
    (after (exec .hmacUpdate (cold Args.zero []))).statusWord = 0x00000062#32 ∧
      (after (exec .hmacUpdate { cold ⟨0, 0, 1, 0, 0⟩ [(0, 7)] with hctx := .active [] [9] })).hctx =
        .active [] [9, 7] := by
  decide +kernel

/-- T13: "Hi There" under 20 bytes 0x0b. -/
theorem test_hmacFinal :
    (after (exec .hmacFinal { cold ⟨0, 0x400, 0, 0, 0⟩ [] with
        hctx := .active (keyBlock (List.replicate 20 0x0b)) (toBytes 8 0x4869205468657265#64) })).dbuf.readBytes
        0x400 32 =
      toBytes 32 0xb0344c61d8db38535ca8afceaf0bf12b881dc200c9833da726e9376c2e32cff7#256 := by
  decide +kernel

/-- T21: the PRK of RFC 5869 test case 1. -/
theorem test_hkdfExtract :
    (after (exec .hkdfExtract (cold ⟨0x100, 0x300, 13, 0, 22⟩
        (Memory.writeBytes (Memory.writeBytes [] 0 (List.replicate 22 0x0b)) 0x100
          (toBytes 13 0x000102030405060708090a0b0c#104))))).dbuf.readBytes 0x300 32 =
      toBytes 32 0x077709362c2e32df0ddc3f0dc47bba6390b6c73bb50f9c3122ec844ad7c2b3e5#256 := by
  decide +kernel

/-- T21: the 42 bytes of RFC 5869 test case 1. -/
theorem test_hkdfExpand :
    (after (exec .hkdfExpand (cold ⟨0x300, 0x400, 42, 0x200, 10⟩
        (Memory.writeBytes (Memory.writeBytes [] 0x200 (toBytes 10 0xf0f1f2f3f4f5f6f7f8f9#80)) 0x300
          (toBytes 32 0x077709362c2e32df0ddc3f0dc47bba6390b6c73bb50f9c3122ec844ad7c2b3e5#256))))).dbuf.readBytes 0x400 42 =
      toBytes 42 0x3cb25f25faacd57a90434f64d0362f2a2d2d0a90cf1a5a4c5db02d56ecc4c5bf34007208d5b887185865#336 := by
  decide +kernel

/-- T25b and T25d: the ceiling comes before the buffers; the output inside the PRK. -/
theorem test_hkdfExpand_refuses :
    (after (exec .hkdfExpand (cold ⟨0x100, 0x7FF0, 9000, 0x40, 10⟩ []))).err = .invalidLength ∧
      (after (exec .hkdfExpand (cold ⟨0x100, 0x110, 16, 0x40, 10⟩ []))).err = .badBuffer := by
  decide +kernel

/-- §3.5 and T38: the image by its fields; a loaded slot refuses. -/
theorem test_sessionLoad :
    (after (exec (.sessionLoad 1) (cold Args.zero (Memory.writeBytes [] 0 image)))).slot 1 =
        { encKey := 0x2b7e151628aed2a6abf7158809cf4f3c, encValid := true,
          cb := 0xf0f1f2f3f4f5f6f7f8f9fafbfcfdfeff, ksLast := 0,
          authKey := 0x000102030405060708090a0b0c0d0e0f101112131415161718191a1b1c1d1e1f, authValid := true } ∧
      (after (exec (.sessionLoad 0) (warm Args.zero [] []))).statusWord = 0x00000162#32 := by
  decide +kernel

/-- T38: a clear on a loaded and on an empty slot. -/
theorem test_sessionClear :
    (after (exec (.sessionClear 0) (warm Args.zero [] []))).slotStatusWord = 0 ∧
      (after (exec (.sessionClear 1) (warm Args.zero [] []))).err = .ok := by
  decide +kernel

/-- T33: SEAL of no bytes, unarmed: the wire counter and its tag, no request. -/
theorem test_sealPayload_empty :
    (after (exec (.sealPayload 0)
        { warm ⟨0x800, 0x200, 0, 0x12345678, 0⟩ [] [] with bcArmed := false })).dbuf.readBytes 0x200 36 =
      toBytes 36 0x12345678b966586c5d5af211a8fb553ee4805ca2a01ab588fec03425ba65957e510403c6#288 := by
  decide +kernel

/-- T30, T32 and T34: the tag over `CT ‖ WCTR`, whole, cut to 8 bytes, and with the little-endian wire order. -/
theorem test_payloadTag :
    payloadTag Params.default (Slot.ofImage image).authKey (toBytes 4 0x89d5fa58#32) 0xE7B00A25 =
        toBytes 32 0xfdfcb87dff2215d2bce4e248189e844ec0b1bfe44f8fa3e91824d0c430993210#256 ∧
      payloadTag { Params.default with tagLen := 8 } (Slot.ofImage image).authKey (toBytes 4 0x89d5fa58#32) 0xE7B00A25 =
        toBytes 8 0xfdfcb87dff2215d2#64 ∧
      payloadTag { Params.default with wireOrder := .le } (Slot.ofImage image).authKey (toBytes 4 0x89d5fa58#32)
          0xE7B00A25 =
        toBytes 32 0xe42017bb2f77d61488833c51edf3eb9380246c4f4b12293aaa407bcba6d1a230#256 := by
  decide +kernel

/-- T31: a payload with one bit flipped ends with code 3, and no request is made. -/
theorem test_openPayload_tampered :
    (after (exec (.openPayload 0) (warm ⟨0x200, 0x310, 4, 0xE7B00A25, 0x208⟩
        (Memory.writeBytes [] 0x200
          (toBytes 40 0x88d5fa58e7b00a25fdfcb87dff2215d2bce4e248189e844ec0b1bfe44f8fa3e91824d0c430993210#320))
        [yes]))).statusWord = 0x00000132#32 ∧
      (after (exec (.openPayload 0) (warm ⟨0x200, 0x310, 4, 0xE7B00A25, 0x208⟩
        (Memory.writeBytes [] 0x200
          (toBytes 40 0x88d5fa58e7b00a25fdfcb87dff2215d2bce4e248189e844ec0b1bfe44f8fa3e91824d0c430993210#320))
        [yes]))).prim.draws = 0 := by
  decide +kernel

/-- T30 and P4: the true payload is decrypted, one request, the counter field one on. -/
theorem test_openPayload_genuine :
    cbCtr ((after (exec (.openPayload 0) (warm ⟨0x200, 0x310, 4, 0xE7B00A25, 0x208⟩
        (Memory.writeBytes [] 0x200
          (toBytes 40 0x89d5fa58e7b00a25fdfcb87dff2215d2bce4e248189e844ec0b1bfe44f8fa3e91824d0c430993210#320))
        [yes]))).slot 0).cb = 0xE7B00A26#32 := by
  decide +kernel

/-! ### The host's side -/

/-- T54: what the registers read after reset. -/
theorem test_reset_values :
    State.reset.statusWord = 0 ∧ State.reset.config0Word = 0x20042002#32 ∧ State.reset.config1Word = 0x800#32 ∧
      State.reset.slotStatusWord = 0 ∧ State.reset.ctrlWord = 0 ∧ State.reset.irq = false := by
  decide +kernel

/-- T34: CONFIG0 with the little-endian wire order. -/
theorem test_config0_le :
    ({ State.reset with cfg := { Params.default with wireOrder := .le } } : State).config0Word = 0x20142002#32 := by
  decide +kernel

/-- T53: a dropped launch and a blocked DBUF read while busy; STATUS reads `0x10D`. -/
theorem test_busy_window :
    (match core.run 2 { warm Args.zero [] [] with
        inputs := [.access (.write 0x000 .b4 0), .access (.read 0x10080 .b4)] } with
      | .next t => t.statusWord
      | .fault _ => 0
      | .refused _ => 0) = 0x0000010D#32 := by
  decide +kernel

/-- T50, last row: CTR_ENCRYPT.s2 with two slots, from reset, through the fetch of the command word. -/
theorem test_step_illegal_slot :
    (after (step (State.reset.withFetchWord 32 0x00000213))).statusWord = 0x00000052#32 ∧
      (after (step (State.reset.withFetchWord 32 0x00000213))).cmdL = 0x00000213 := by
  decide +kernel

/-! ### A state that meets the hypotheses of each obligation that has any -/

/-- A state in which nothing is in progress. -/
def quiet : State := { State.reset with inputs := [] }

/-- A state between an HMAC_INIT and its HMAC_FINAL, with the latched arguments `l`. -/
def hashing (l : Args) : State := { cold l [(0, 7)] with hctx := .active (keyBlock [1, 2, 3]) [9] }

theorem witness_DecodeAndEncodeAgree : decode 0x00000F43 = .ok (.openPayload 15) := by decide

theorem witness_DecodeFollowsMaskAndMatch :
    (∃ r ∈ opTable, 0x00000F43#32 &&& (if r.slotted then 0xFFFFF0FF#32 else 0xFFFFFFFF#32) = r.op.setWidth 32) ∧
      ∀ r ∈ opTable, 0x00000101#32 &&& (if r.slotted then 0xFFFFF0FF#32 else 0xFFFFFFFF#32) ≠ r.op.setWidth 32 := by
  decide

/-- The four ways a word is illegal, at the boundaries, and the last legal slot. -/
theorem witness_IllegalCommandWordsOnlySetStatus :
    (cold Args.zero []).seq = .busy ∧ (cold Args.zero []).inputs = [] ∧ (0x00001000#32).extractLsb' 12 20 ≠ 0 ∧
      (0x00000044#32).extractLsb' 0 8 = 0x44#8 ∧ (0x00000100#32).extractLsb' 8 4 ≠ 0 ∧
      (cold Args.zero []).cfg.nSessions ≤ ((0x00000202#32).extractLsb' 8 4).toNat ∧
      ((0x00000102#32).extractLsb' 8 4).toNat < (cold Args.zero []).cfg.nSessions := by
  decide +kernel

theorem witness_StepRunsTheDecodedCommand :
    { cold Args.zero [] with cmdL := 0x00000021 }.seq = .busy ∧
      decode { cold Args.zero [] with cmdL := 0x00000021 }.cmdL = .ok .hmacUpdate ∧
      { cold Args.zero [] with cmdL := 0x00000021 }.inputs = [] ∧
      { cold Args.zero [] with inputs := [.engine, .reset []] }.inputs = .engine :: [.reset []] := by
  decide +kernel

theorem witness_CmdWriteWhenIdleIsAccepted :
    State.reset.seq = .idle ∧ decode 0x0 = .ok .nop ∧ decode 0x5 = .error .reservedOpcode := by decide

theorem witness_CmdWriteWhenBusyIsDropped : (cold Args.zero []).seq = .busy := rfl

theorem witness_CommandsWriteNoHostRegister : ∃ t, exec .bcInit (warm Args.zero [] []) = .next t := ⟨_, rfl⟩

theorem witness_StepKeepsTheInvariant :
    (warm ⟨0, 0, 16, 0, 0⟩ [(5, 1)] [yes]).Inv ∧ ∃ t, step (warm ⟨0, 0, 16, 0, 0⟩ [(5, 1)] [yes]) = .next t :=
  ⟨by decide +kernel, _, rfl⟩

/-- HMAC_UPDATE of one byte on a stream of `HMAC_MSG_MAX` bytes; one byte fewer is within. -/
theorem witness_ValidationFollowsTheOrder_hmac (m : List Byte) (h : m.length = 2 ^ 61 - 65) :
    LengthCause .hmacUpdate { cold ⟨0, 0, 1, 0, 0⟩ [] with hctx := .active (keyBlock []) m } ∧
      ¬LengthCause .hmacUpdate { cold ⟨0, 0, 0, 0, 0⟩ [] with hctx := .active (keyBlock []) m } := by
  simp [LengthCause, h, cold]

/-- Each premise of the ladder, alone: an absent slot, no bytes, one byte over the ceiling, a buffer one byte over the
end, an empty slot; and a command that passes all of them. -/
theorem witness_ValidationFollowsTheOrder :
    Instr.wellFormed State.reset.cfg (.ctrSetIv 2) = false ∧
      ZeroLengthCtr (.ctrDecrypt 1) (cold ⟨0x7FF0, 0x9000, 0, 0, 0⟩ []) ∧
      LengthCause .hkdfExpand (cold ⟨0, 0, 8161, 0, 0⟩ []) ∧ ¬LengthCause .hkdfExpand (cold ⟨0, 0, 8160, 0, 0⟩ []) ∧
      BufferCause (.ctrEncrypt 0) (warm ⟨0, 0x7F1, 16, 0, 0⟩ [] []) ∧
      ¬BufferCause (.ctrEncrypt 0) (warm ⟨0, 0x7F0, 16, 0, 0⟩ [] []) ∧
      StateCause (.ctrEncrypt 1) (warm ⟨0, 0x7F0, 16, 0, 0⟩ [] []) ∧
      ¬StateCause (.ctrEncrypt 0) (warm ⟨0, 0x7F0, 16, 0, 0⟩ [] []) ∧
      ¬ZeroLengthCtr (.ctrEncrypt 0) (warm ⟨0, 0x7F0, 16, 0, 0⟩ [] []) ∧
      Instr.wellFormed State.reset.cfg (.ctrEncrypt 1) = true := by
  simp only [BufferCause, ← Buf.overlaps_iff, StateCause, LengthCause, ZeroLengthCtr]
  decide +kernel

theorem witness_ValidationErrorsChangeOnlyStatus :
    (∃ t, exec .hmacFinal (cold Args.zero []) = .next t ∧ t.err = .badState) ∧
      (∃ t, exec (.ctrSetIv 2) (cold Args.zero []) = .next t ∧ t.err = .illegalCommand) ∧
      (∃ t, exec .hmacInit (cold ⟨0x801, 0, 0, 0, 0⟩ []) = .next t ∧ t.err = .badBuffer) ∧
      ∃ t, exec .hkdfExpand (cold ⟨0, 0, 8161, 0, 0⟩ []) = .next t ∧ t.err = .invalidLength := by
  refine ⟨⟨_, rfl, ?_⟩, ⟨_, rfl, ?_⟩, ⟨_, rfl, ?_⟩, ⟨_, rfl, ?_⟩⟩ <;> decide +kernel

theorem witness_PrimitiveFailureRollsBack :
    (∃ t, exec (.sealPayload 0) (warm ⟨0, 0x100, 17, 0, 0⟩ [] [yes, no]) = .next t ∧ t.err = .primitiveError) ∧
      ∃ t, exec .bcInit { warm Args.zero [] [⟨[], []⟩] with bcArmed := false } = .next t ∧ t.err = .primitiveTimeout := by
  refine ⟨⟨_, rfl, ?_⟩, ⟨_, rfl, ?_⟩⟩ <;> decide +kernel

/-- What the statement asks of a state, but for the invariant. -/
abbrev FailsWith (i : Instr) (s : State) (o : Buf) (j : Nat) (x : Reply) : Prop :=
  (i.wellFormed s.cfg = true ∧ ¬ZeroLengthCtr i s ∧ ¬LengthCause i s) ∧
    (¬BufferCause i s ∧ ¬StateCause i s ∧ ¬TagCause i s ∧ outputOf i s = [o]) ∧
    (j < requestBound i s ∧ s.prim.failsAt j x)

/-- A first and only request that fails, and a second one after an `ok`. -/
theorem witness_FailedOutputIsWhateverWasDrawn :
    ∀ q ∈ [(Instr.bcEncryptBlock 0, 16, 0, [no]), (.ctrEncrypt 0, 17, 1, [yes, no]), (.ctrDecrypt 0, 17, 1, [yes, no]),
        (.sealPayload 0, 53, 1, [yes, no])],
      (warm ⟨0, 0x100, 17, 0, 0⟩ [] q.2.2.2).Inv ∧
        FailsWith q.1 (warm ⟨0, 0x100, 17, 0, 0⟩ [] q.2.2.2) ⟨0x100, q.2.1⟩ q.2.2.1 no := by
  simp only [List.forall_mem_cons, FailsWith]
  refine ⟨?_, ?_, ?_, ?_, by simp⟩ <;> refine ⟨?_, ?_, ?_, ?_⟩ <;>
    (try simp only [BufferCause, ← Buf.overlaps_iff, StateCause, LengthCause, ZeroLengthCtr, TagCause]) <;> decide +kernel

theorem witness_ResetCanDrawAnyDbuf : Memory.wf State.reset.cfg.bufBytes [(0, 1), (2047, 255)] = true := by
  decide +kernel

theorem witness_ResetHasTheInvariant :
    ({ nSessions := 16, tagLen := 1, wireOrder := .le, bufBytes := 65536 } : Params).Legal ∧
      Memory.wf 65536 [(65535, 1)] = true := by
  decide +kernel

/-- An unmapped offset, a narrow register access, a DBUF access across the end; the read-only offsets; and a write of
only read-only STATUS bits. -/
theorem witness_BusErrorsChangeNothing :
    ¬LegalAccess Params.default (0x01C#17).toNat .b4 ∧ ¬LegalAccess Params.default (0x000#17).toNat .b2 ∧
      ¬LegalAccess Params.default (0x107FE#17).toNat .b4 ∧ ¬LegalAccess Params.default (0x10800#17).toNat .b1 ∧
      (0x02C#17).toNat ∈ [0x020, 0x024, 0x028, 0x02C] ∧ 0xFFFFFFF1#32 &&& 0x0000000E#32 = 0 := by
  decide +kernel

theorem witness_DbufAccessWhileBusyIsBlocked :
    (cold Args.zero []).seq = .busy ∧ 0x10000 ≤ (0x107FC#17).toNat ∧
      LegalAccess (cold Args.zero []).cfg (0x107FC#17).toNat .b4 ∧
      LegalAccess (cold Args.zero []).cfg (0x107FF#17).toNat .b1 := by
  decide +kernel

/-- In range to the last byte, misaligned, and one past the end. -/
theorem witness_DbufAccessWhileIdleUsesLittleEndianLanes :
    State.reset.Inv ∧ State.reset.seq = .idle ∧ (0x107FC#17).toNat = 0x10000 + 0x7FC ∧
      (0x7FC % AccessSize.b4.bytes = 0 ∧ 0x7FC + AccessSize.b4.bytes ≤ State.reset.cfg.bufBytes) ∧
      ¬(0x7FE % AccessSize.b4.bytes = 0 ∧ 0x7FE + AccessSize.b4.bytes ≤ State.reset.cfg.bufBytes) ∧
      ¬(0x800 % AccessSize.b1.bytes = 0 ∧ 0x800 + AccessSize.b1.bytes ≤ State.reset.cfg.bufBytes) := by
  decide +kernel

theorem witness_WideDbufAccessIsItsByteAccesses :
    quiet.seq = .idle ∧ 0x10000 ≤ (0x10004#17).toNat ∧ LegalAccess quiet.cfg (0x10004#17).toNat .b4 ∧
      3 < AccessSize.b4.bytes := by
  decide +kernel

theorem witness_InterruptIsDoneAndEnabled :
    (∃ t, exec .nop (cold Args.zero []) = .next t) ∧ (0xE#32).getLsbD 1 = true ∧ (0xFFFFFFFE#32).getLsbD 0 = false ∧
      State.reset.seq = .idle :=
  ⟨⟨_, rfl⟩, by decide, by decide, rfl⟩

theorem witness_ConfigRegistersReportTheParameters :
    State.reset.cfg.Legal ∧ 0x028#17 ∈ [0x020#17, 0x024#17, 0x028#17] ∧ ∃ t, step State.reset = .next t :=
  ⟨by decide, by decide, _, rfl⟩

theorem witness_SlotStatusReportsTheValidBits :
    (warm Args.zero [] []).Inv ∧ (0 : BitVec 4).toNat < (warm Args.zero [] []).cfg.nSessions ∧
      ¬((15 : BitVec 4).toNat < (warm Args.zero [] []).cfg.nSessions) := by
  decide +kernel

/-- Two states with different keys, and different contexts. -/
theorem witness_HostAccessesDoNotSeeTheSecrets :
    (hashing Args.zero).publicView = { hashing Args.zero with hctx := .active [] [1, 2] }.publicView ∧
      { quiet with slots := [{ Slot.empty with encKey := 1 }] }.publicView =
        { quiet with slots := [{ Slot.empty with authKey := 2 }] }.publicView := by
  decide +kernel

/-- No answer in the budget; an answer at the last sample within it; and one that shows both. -/
theorem witness_FirstAnswerWithinTheBudgetDecides :
    (∀ x ∈ [Sample.mk false false, ⟨true, false⟩].take 1, x.good = false ∧ x.bad = false) ∧
      (1 < 2 ∧ [Sample.mk false false, ⟨true, true⟩][1]? = some ⟨true, true⟩ ∧
        ∀ y ∈ [Sample.mk false false, ⟨true, true⟩].take 1, y.good = false ∧ y.bad = false) := by
  decide

theorem witness_BcInitArmsOnOk :
    (warm Args.zero [] []).bcArmed = true ∧
      (let s := { warm Args.zero [] [yes] with bcArmed := false };
        s.bcArmed = false ∧ s.prim.answer = .ok) ∧
      let s := { warm Args.zero [] [no] with bcArmed := false }
      s.bcArmed = false ∧ s.prim.answer ≠ .ok := by
  decide +kernel

/-- In place, and side by side, at the end of DBUF. -/
theorem witness_BcEncryptBlockWritesTheCipherBlock :
    ∀ l ∈ [Args.mk 0x7F0 0x7F0 0 0 0, Args.mk 0x7E0 0x7F0 0 0 0],
      let s := warm l [(0x7E0, 5)] [yes]
      s.Inv ∧ (0 : BitVec 4).toNat < s.cfg.nSessions ∧ s.argL.a0.toNat + 16 ≤ s.cfg.bufBytes ∧
        s.argL.a1.toNat + 16 ≤ s.cfg.bufBytes ∧
        (s.argL.a0.toNat = s.argL.a1.toNat ∨ s.argL.a0.toNat + 16 ≤ s.argL.a1.toNat ∨
          s.argL.a1.toNat + 16 ≤ s.argL.a0.toNat) ∧
        (s.slot 0).encValid = true ∧ s.bcArmed = true ∧ s.prim.answer = .ok := by
  decide +kernel

theorem witness_CtrSetKeyLoadsTheCipherKey :
    let s := warm ⟨0x7F0, 0, 0, 0, 0⟩ [(0x7F0, 5)] []
    s.Inv ∧ (1 : BitVec 4).toNat < s.cfg.nSessions ∧ s.argL.a0.toNat + 16 ≤ s.cfg.bufBytes ∧
      (s.slot 1).encValid = false := by
  decide +kernel

theorem witness_CtrSetIvLoadsTheCounterBlock :
    let s := warm ⟨0x7F0, 0, 0, 0, 0⟩ [(0x7F0, 5)] []
    s.Inv ∧ (0 : BitVec 4).toNat < s.cfg.nSessions ∧ s.argL.a0.toNat + 16 ≤ s.cfg.bufBytes := by
  decide +kernel

theorem witness_CtrSetCounterSetsTheCounterField :
    let s := warm ⟨0, 0, 0, 0xFFFFFFFF, 0⟩ [] []
    s.Inv ∧ (1 : BitVec 4).toNat < s.cfg.nSessions ∧ s.cfg.nSessions ≤ (2 : BitVec 4).toNat := by
  decide +kernel

/-- One byte, and two blocks in place. -/
theorem witness_CtrEncryptAndDecryptXorTheKeystream :
    ∀ l ∈ [Args.mk 0x7FE 0x7FF 1 0 0, Args.mk 0x7E0 0x7E0 32 0 0],
      let s := warm l [(0x7FE, 5)] [yes, yes]
      let src := s.argL.a0.toNat
      let dst := s.argL.a1.toNat
      let len := s.argL.a2.toNat
      s.Inv ∧ (0 : BitVec 4).toNat < s.cfg.nSessions ∧ 0 < len ∧ src + len ≤ s.cfg.bufBytes ∧
        dst + len ≤ s.cfg.bufBytes ∧ (src = dst ∨ src + len ≤ dst ∨ dst + len ≤ src) ∧
        (s.slot 0).encValid = true ∧ s.bcArmed = true ∧ s.prim.okFor ((len + 15) / 16) := by
  decide +kernel

theorem witness_ZeroLengthCtrAlwaysSucceeds :
    (cold ⟨0x7FF0, 0x9000, 0, 0, 0⟩ []).argL.a2 = 0 ∧ (1 : BitVec 4).toNat < (cold Args.zero []).cfg.nSessions ∧
      (cold Args.zero []).cfg.nSessions ≤ (2 : BitVec 4).toNat ∧
      (let s := { cold Args.zero [] with cmdL := 0x00001013 };
        s.seq = .busy ∧ s.inputs = [] ∧ s.argL.a2 = 0 ∧ s.cmdL.extractLsb' 0 8 = 0x13 ∧
          s.cmdL.extractLsb' 12 20 ≠ 0) := by
  decide +kernel

/-- Every CTR_ENCRYPT answers a next state. -/
theorem exec_ctrEncrypt_after (n : BitVec 4) (s : State) :
    exec (.ctrEncrypt n) s = .next (after (exec (.ctrEncrypt n) s)) := rfl

/-- The stream on one byte and its inverse; and CTR_DECRYPT in the state that CTR_ENCRYPT left, with the counter block
as before. -/
theorem witness_CtrIsItsOwnInverse :
    let s := warm ⟨0x40, 0x80, 1, 0, 0⟩ [] [yes]
    let t := after (exec (.ctrEncrypt 0) s)
    let u := { t with argL := ⟨0x80, 0xC0, 1, 0, 0⟩, slots := s.slots, prim := s.prim }
    (∃ y cb' ks p', ctrStream 1 2 [7] s.prim = .done y cb' ks p') ∧ s.prim.okFor (blockCount [(7 : Byte)].length) ∧
      s.Inv ∧ exec (.ctrEncrypt 0) s = .next t ∧ t.err = .ok ∧ (0 : BitVec 4).toNat < u.cfg.nSessions ∧
      u.argL.a2 = s.argL.a2 ∧ 0 < s.argL.a2.toNat ∧ ¬BufferCause (.ctrDecrypt 0) u ∧ u.bcArmed = true ∧
      (u.slot 0).encValid = true ∧ (u.slot 0).encKey = (s.slot 0).encKey ∧ (u.slot 0).cb = (s.slot 0).cb ∧
      u.prim.okFor (blockCount s.argL.a2.toNat) ∧
      u.dbuf.readBytes u.argL.a0.toNat s.argL.a2.toNat = t.dbuf.readBytes s.argL.a1.toNat s.argL.a2.toNat := by
  intro s t u
  have hu : ¬BufferCause (.ctrDecrypt 0) u := by
    simp only [BufferCause, ← Buf.overlaps_iff]
    decide +kernel
  exact ⟨⟨_, _, _, _, rfl⟩, by decide +kernel, by decide +kernel, exec_ctrEncrypt_after 0 s, by decide +kernel,
    by decide +kernel, by decide +kernel, by decide +kernel, hu, by decide +kernel, by decide +kernel,
    by decide +kernel, by decide +kernel, by decide +kernel, rfl⟩

/-- A whole block and then one byte, from the counter block it leaves. -/
theorem witness_CtrOfWholeBlocksContinues :
    (List.replicate 16 (1 : Byte)).length % 16 = 0 ∧ ∃ ya cb1 ka q yb cb2 kb r,
      ctrStream 1 2 (List.replicate 16 1) { replies := [yes, yes], sent := [], draws := 0 } = .done ya cb1 ka q ∧
        ctrStream 1 cb1 [7] q = .done yb cb2 kb r :=
  ⟨by decide, _, _, _, _, _, _, _, _, rfl, rfl⟩

theorem witness_CtrGetStateWritesCounterAndKeystream :
    let s := warm ⟨0, 0x7E0, 0, 0, 0⟩ [(0x7E0, 5)] []
    s.Inv ∧ (1 : BitVec 4).toNat < s.cfg.nSessions ∧ s.argL.a1.toNat + 32 ≤ s.cfg.bufBytes := by
  decide +kernel

/-- A key of a block, and of a byte more. -/
theorem witness_KeyBlockPadsOrHashes :
    (List.replicate 64 (1 : Byte)).length ≤ 64 ∧ (List.replicate 64 (1 : Byte)).length + 0 ≤ 64 ∧
      64 < (List.replicate 65 (1 : Byte)).length := by
  decide

/-- The empty key at the end of DBUF. -/
theorem witness_HmacInitStartsAContext :
    let s := cold ⟨0x800, 0, 0, 0, 0⟩ []
    s.argL.a0.toNat + s.argL.a2.toNat ≤ s.cfg.bufBytes := by
  decide

theorem witness_HmacUpdateAppends :
    let s := hashing ⟨0x7FF, 0, 1, 0, 0⟩
    s.hctx = .active (keyBlock [1, 2, 3]) [9] ∧ [(9 : Byte)].length + s.argL.a2.toNat ≤ 2 ^ 61 - 65 ∧
      s.argL.a0.toNat + s.argL.a2.toNat ≤ s.cfg.bufBytes :=
  ⟨rfl, by decide, by decide⟩

theorem witness_HmacFinalWritesTheTagOnce :
    let s := hashing ⟨0, 0x7E0, 0, 0, 0⟩
    s.Inv ∧ s.hctx = .active (keyBlock [1, 2, 3]) [9] ∧ s.argL.a1.toNat + 32 ≤ s.cfg.bufBytes ∧
      Args.zero.a1.toNat + 32 ≤ s.cfg.bufBytes :=
  ⟨by decide +kernel, rfl, by decide, by decide⟩

/-- A check that fails, a command that runs, and HMAC_UPDATE without a context. -/
theorem witness_HmacContextLifecycle :
    (∃ t, exec .hmacFinal (hashing ⟨0, 0x7E1, 0, 0, 0⟩) = .next t ∧ t.err = .badBuffer) ∧
      (∃ t, exec .hmacUpdate (hashing ⟨0, 0, 1, 0, 0⟩) = .next t ∧ t.err = .ok) ∧
      ∃ t, exec .hmacUpdate (cold Args.zero []) = .next t ∧ (cold Args.zero []).hctx = .idle := by
  refine ⟨⟨_, rfl, ?_⟩, ⟨_, rfl, ?_⟩, ⟨_, rfl, rfl⟩⟩ <;> decide +kernel

/-- An empty salt and an IKM of one byte beside the output. -/
theorem witness_HkdfExtractWritesThePrk :
    let s := cold ⟨0x800, 0x7E0, 0, 0x7DF, 1⟩ [(0x7DF, 5)]
    s.Inv ∧ ¬BufferCause .hkdfExtract s := by
  simp only [BufferCause, ← Buf.overlaps_iff]
  decide +kernel

/-- No output; and an output that is not a whole number of blocks. -/
theorem witness_HkdfExpandWritesTheChain :
    ∀ l ∈ [Args.mk 0 0x800 0 0 0, Args.mk 0 0x20 33 0x7FF 1],
      let s := cold l [(0x7FF, 5)]
      s.Inv ∧ s.argL.a2.toNat ≤ 8160 ∧ ¬BufferCause .hkdfExpand s := by
  simp only [BufferCause, ← Buf.overlaps_iff]
  decide +kernel

/-- A chain as the statement asks for, and a byte of its second block. -/
theorem witness_HkdfExpandWritesTheChain_chain (prk info : List Byte) :
    (∃ chain : Nat → List Byte, chain 0 = [] ∧
      ∀ i, chain (i + 1) = hmac prk (chain i ++ info ++ [BitVec.ofNat 8 (i + 1)])) ∧ 32 * 1 + 0 < 33 :=
  ⟨⟨Nat.rec [] fun i t => hmac prk (t ++ info ++ [BitVec.ofNat 8 (i + 1)]), rfl, fun _ => rfl⟩, by decide⟩

theorem witness_ShorterExpansionIsAPrefix : 0 ≤ 8160 ∧ 8160 ≤ 8160 := by decide

theorem witness_SessionLoadFillsAnEmptySlot :
    let s := warm ⟨0x7C0, 0, 0, 0, 0⟩ [(0x7C0, 5)] []
    s.Inv ∧ (1 : BitVec 4).toNat < s.cfg.nSessions ∧ s.argL.a0.toNat + 64 ≤ s.cfg.bufBytes ∧
      (s.slot 1).encValid = false ∧ (s.slot 1).authValid = false := by
  decide +kernel

theorem witness_SessionClearEmptiesASlot :
    (warm Args.zero [] []).Inv ∧ (1 : BitVec 4).toNat < (warm Args.zero [] []).cfg.nSessions := by
  decide +kernel

/-- No plaintext, unarmed, the empty input inside the output; and 17 bytes in place at the end of DBUF. -/
theorem witness_SealWritesThePayload :
    ∀ s ∈ [{ warm ⟨0x204, 0x200, 0, 1, 0⟩ [] [] with bcArmed := false }, warm ⟨0x7CB, 0x7CB, 17, 1, 0⟩ [] [yes, yes]],
      s.Inv ∧ (0 : BitVec 4).toNat < s.cfg.nSessions ∧ ¬BufferCause (.sealPayload 0) s ∧
        (s.slot 0).encValid = true ∧ (s.slot 0).authValid = true ∧ (0 < s.argL.a2.toNat → s.bcArmed = true) ∧
        s.prim.okFor ((s.argL.a2.toNat + 15) / 16) := by
  simp only [BufferCause, ← Buf.overlaps_iff]
  decide +kernel

/-- The payload of T30 in DBUF. -/
def received : State :=
  warm ⟨0x200, 0x310, 4, 0xE7B00A25, 0x208⟩
    (Memory.writeBytes [] 0x200
      (toBytes 40 0x89d5fa58e7b00a25fdfcb87dff2215d2bce4e248189e844ec0b1bfe44f8fa3e91824d0c430993210#320)) [yes]

theorem witness_OpenWritesThePlaintext :
    let s := received
    let ct := s.dbuf.readBytes s.argL.a0.toNat s.argL.a2.toNat
    (s.Inv ∧ (0 : BitVec 4).toNat < s.cfg.nSessions ∧ ¬BufferCause (.openPayload 0) s) ∧
      ((s.slot 0).encValid = true ∧ (s.slot 0).authValid = true ∧ s.bcArmed = true) ∧
      s.dbuf.readBytes s.argL.a4.toNat s.cfg.tagLen =
        (hmac (toBytes 32 (s.slot 0).authKey) (ct ++ wireCounter s.cfg s.argL.a3)).take s.cfg.tagLen ∧
      s.prim.okFor ((s.argL.a2.toNat + 15) / 16) := by
  simp only [BufferCause, ← Buf.overlaps_iff]
  decide +kernel

/-- The genuine payload, with a request that fails. -/
theorem witness_FailedOutputIsWhateverWasDrawn_open :
    { received with prim := { received.prim with replies := [no] } }.Inv ∧
      FailsWith (.openPayload 0) { received with prim := { received.prim with replies := [no] } } ⟨0x310, 4⟩ 0 no := by
  simp only [FailsWith]
  refine ⟨?_, ?_, ?_, ?_⟩ <;>
    (try simp only [BufferCause, ← Buf.overlaps_iff, StateCause, LengthCause, ZeroLengthCtr, TagCause]) <;> decide +kernel

/-- The same payload with the last counter bit flipped: the tags differ. The genuine one makes a request. -/
theorem witness_TagMismatchChangesNothing :
    (let s := { received with argL := ⟨0x200, 0x310, 4, 0xE7B00A24, 0x208⟩ };
      (s.Inv ∧ (0 : BitVec 4).toNat < s.cfg.nSessions ∧ ¬BufferCause (.openPayload 0) s) ∧
        ¬StateCause (.openPayload 0) s ∧
        s.dbuf.readBytes s.argL.a4.toNat s.cfg.tagLen ≠
          (hmac (toBytes 32 (s.slot 0).authKey)
            (s.dbuf.readBytes s.argL.a0.toNat s.argL.a2.toNat ++ wireCounter s.cfg s.argL.a3)).take s.cfg.tagLen ∧
        ∃ t, exec (.openPayload 0) s = .next t ∧ t.err = .authFailure) ∧
      ∃ t, exec (.openPayload 0) received = .next t ∧ t.prim ≠ received.prim := by
  simp only [BufferCause, ← Buf.overlaps_iff, StateCause]
  refine ⟨⟨?_, ?_, ?_, _, rfl, ?_⟩, _, rfl, fun h => ?_⟩
  · decide +kernel
  · decide +kernel
  · decide +kernel
  · decide +kernel
  · have : (after (exec (.openPayload 0) received)).prim.draws = received.prim.draws := congrArg PrimPort.draws h
    revert this
    decide +kernel

theorem witness_TagComparisonIsEquality : [(1 : Byte), 2].length = [(1 : Byte), 3].length := rfl

/-- Every SEAL answers a next state. -/
theorem exec_sealPayload_after (n : BitVec 4) (s : State) :
    exec (.sealPayload n) s = .next (after (exec (.sealPayload n) s)) := rfl

/-- SEAL of four bytes on slot 0, and OPEN of the payload on the same slot, in the state that SEAL left. -/
theorem witness_OpenUndoesSeal :
    let s := warm ⟨0x100, 0x200, 4, 0xE7B00A25, 0⟩ [(0x100, 0x61)] [yes]
    let t := after (exec (.sealPayload 0) s)
    let u := { t with
      argL := ⟨0x200, 0x310, 4, 0xE7B00A25, 0x208⟩, prim := { replies := [yes], sent := [], draws := 1 } }
    (s.Inv ∧ u.Inv ∧ exec (.sealPayload 0) s = .next t ∧ t.err = .ok ∧ u.cfg = s.cfg) ∧
      ((0 : BitVec 4).toNat < u.cfg.nSessions ∧ u.bcArmed = true ∧ (u.slot 0).encValid = true ∧
        (u.slot 0).authValid = true ∧ (u.slot 0).encKey = (s.slot 0).encKey ∧
        (u.slot 0).authKey = (s.slot 0).authKey ∧ cbPrefix (u.slot 0).cb = cbPrefix (s.slot 0).cb) ∧
      u.argL.a2 = s.argL.a2 ∧ u.argL.a3 = s.argL.a3 ∧ ¬BufferCause (.openPayload 0) u ∧
      u.dbuf.readBytes u.argL.a0.toNat s.argL.a2.toNat = t.dbuf.readBytes s.argL.a1.toNat s.argL.a2.toNat ∧
      u.dbuf.readBytes u.argL.a4.toNat s.cfg.tagLen =
        t.dbuf.readBytes (s.argL.a1.toNat + s.argL.a2.toNat + 4) s.cfg.tagLen ∧
      u.prim.okFor (blockCount s.argL.a2.toNat) := by
  intro s t u
  have ht : t = sealRun 0 s := by
    have h1 : s.hasSlot 0 = true := by decide +kernel
    have h2 : sealBuffers s = true := by decide +kernel
    have h3 : codecReady 0 s = true := by decide +kernel
    simp only [t, after, exec, execSealPayload, h1, h2, h3, require_true]
  have ok : t.err = .ok := by decide +kernel
  have hw : t.dbuf.wf 2048 = true := by
    rcases sealRun_cases 0 s with h | ⟨e, r, j, he, -, h⟩
    · rw [ht, h]
      refine Memory.wf_writeBytes (n := 2048) (by decide) ?_
      rw [length_payload (by decide), length_ctrOf, State.length_readBuf]
      decide
    · rw [ht, h] at ok
      rcases he with rfl | rfl <;> cases ok
  have hu : ¬BufferCause (.openPayload 0) u := by
    simp only [BufferCause, ← Buf.overlaps_iff]
    decide +kernel
  have hc : u.cfg.bufBytes = 2048 := by decide +kernel
  have hwu : u.dbuf.wf u.cfg.bufBytes = true := by
    rw [hc]
    exact hw
  exact ⟨⟨by decide +kernel, ⟨by decide +kernel, by decide +kernel, by decide +kernel, by decide +kernel, hwu,
    by decide +kernel⟩, exec_sealPayload_after 0 s, ok, by decide +kernel⟩, by decide +kernel,
    by decide +kernel, by decide +kernel, hu, rfl, rfl, by decide +kernel⟩

end Sys2Proof.Tests
end

/-! SUPPORT. The registers the host reads as whole words (10_state.md R30, R31): what one step can do, that no step
changes a parameter, what a register access does, and the fields of CONFIG0 and SLOT_STATUS. -/

namespace Sys2Proof.Machine

/-! ### What no command writes -/

theorem State.complete_sameHostSide (s : State) (e : ErrCode) : SameHostSide s (s.complete e) := by
  simp [SameHostSide]

theorem bcInitRequest_sameHostSide (s : State) : SameHostSide s (bcInitRequest s) := by
  rcases bcInitRequest_cases s with ⟨-, h⟩ | ⟨-, h⟩ | ⟨-, h⟩ <;> simp [SameHostSide, h]

theorem bcEncryptRun_sameHostSide (x : Slot) (s : State) : SameHostSide s (bcEncryptRun x s) := by
  rcases bcEncryptRun_cases x s with ⟨-, h⟩ | ⟨_, -, -, h⟩ <;> simp [SameHostSide, h]

theorem ctrRun_sameHostSide (n : BitVec 4) (s : State) : SameHostSide s (ctrRun n s) := by
  rcases ctrRun_cases n s with h | ⟨_, _, _, -, -, h⟩ <;> simp [SameHostSide, h]

theorem hmacUpdateRun_sameHostSide (s : State) : SameHostSide s (hmacUpdateRun s) := by
  rcases hmacUpdateRun_cases s with ⟨-, h⟩ | ⟨_, _, -, h⟩ <;> simp [SameHostSide, h]

theorem hmacFinalRun_sameHostSide (s : State) : SameHostSide s (hmacFinalRun s) := by
  rcases hmacFinalRun_cases s with ⟨-, h⟩ | ⟨_, _, -, h⟩ <;> simp [SameHostSide, h]

theorem sealRun_sameHostSide (n : BitVec 4) (s : State) : SameHostSide s (sealRun n s) := by
  rcases sealRun_cases n s with h | ⟨_, _, _, -, -, h⟩ <;> simp [SameHostSide, h]

theorem openRun_sameHostSide (n : BitVec 4) (s : State) : SameHostSide s (openRun n s) := by
  rcases openRun_cases n s with ⟨-, h⟩ | ⟨-, h⟩ | ⟨_, _, _, -, -, -, h⟩ <;> simp [SameHostSide, h]

/-- Past its checks, a command writes only what R130 lets it. -/
theorem Ran.sameHostSide {i : Instr} {s t : State} (h : Ran i s t) : SameHostSide s t := by
  cases i with
  | bcInit =>
    obtain ⟨-, rfl⟩ | ⟨-, rfl⟩ := h
    · exact s.complete_sameHostSide .ok
    · exact bcInitRequest_sameHostSide s
  | bcEncryptBlock n => exact h ▸ bcEncryptRun_sameHostSide _ s
  | ctrEncrypt n | ctrDecrypt n =>
    obtain ⟨-, rfl⟩ | ⟨-, rfl⟩ := h
    · exact s.complete_sameHostSide .ok
    · exact ctrRun_sameHostSide n s
  | hmacUpdate =>
    obtain ⟨-, rfl⟩ := h
    exact hmacUpdateRun_sameHostSide s
  | hmacFinal =>
    obtain ⟨-, rfl⟩ := h
    exact hmacFinalRun_sameHostSide s
  | sealPayload n => exact h ▸ sealRun_sameHostSide n s
  | openPayload n => exact h ▸ openRun_sameHostSide n s
  | nop | ctrSetKey _ | ctrSetIv _ | ctrSetCounter _ | ctrGetState _ | hmacInit | hkdfExtract | hkdfExpand
  | sessionLoad _ | sessionClear _ =>
    simp only [Ran] at h
    simp [SameHostSide, h]

/-- However a command ends, it writes only what R130 lets it. -/
theorem exec_sameHostSide {i : Instr} {s t : State} (h : exec i s = .next t) : SameHostSide s t := by
  rcases exec_cases i s with ⟨e, -, he⟩ | ⟨u, -, hu, hran⟩
  · obtain rfl : s.complete e = t := by simpa [he] using h
    exact s.complete_sameHostSide e
  · obtain rfl : u = t := by simpa [hu] using h
    exact hran.sameHostSide

/-! ### What one step can do -/

/-- The engine's turn: nothing while IDLE; while BUSY the decoded command, or the end of an illegal word. -/
theorem engineStep_cases {s t : State} (h : engineStep s = .next t) :
    (s.seq = .idle ∧ t = s) ∨ (∃ i, s.seq = .busy ∧ decode s.cmdL = .ok i ∧ exec i s = .next t) ∨
      ∃ e, s.seq = .busy ∧ decode s.cmdL = .error e ∧ t = s.complete .illegalCommand := by
  unfold engineStep at h
  cases hs : s.seq with
  | idle => simp_all
  | busy => cases hd : decode s.cmdL <;> simp_all

/-- One step: the engine's turn, unlisted or listed, a host access, or a reset. -/
theorem step_cases {s t : State} (h : step s = .next t) :
    (s.inputs = [] ∧ engineStep s = .next t) ∨
      (∃ rest, s.inputs = .engine :: rest ∧ engineStep { s with inputs := rest } = .next t) ∨
      (∃ a rest, s.inputs = .access a :: rest ∧ t = hostAccess { s with inputs := rest } a) ∨
      ∃ draw rest, s.inputs = .reset draw :: rest ∧ t = { s with inputs := rest }.resetBy draw := by
  unfold step at h
  cases hl : s.inputs with
  | nil => simp_all
  | cons x rest => cases x <;> simp_all

/-! ### No step changes a parameter -/

@[simp] theorem writeReg_cfg (s : State) (w : Word) (r : Reg) : (writeReg s w r).cfg = s.cfg := by
  cases r with
  | cmd => cases h : s.seq <;> simp [writeReg, writeCmd, h]
  | _ => rfl

@[simp] theorem readDbuf_cfg (s : State) (k n : Nat) : (readDbuf s k n).2.cfg = s.cfg := by
  cases h : s.seq <;> simp [readDbuf, h]

@[simp] theorem writeDbuf_cfg (s : State) (k n : Nat) (w : Word) : (writeDbuf s k n w).cfg = s.cfg := by
  cases h : s.seq <;> simp [writeDbuf, h]

@[simp] theorem hostAccess_cfg (s : State) (a : BusAccess) : (hostAccess s a).cfg = s.cfg := by
  cases a with
  | read off size => cases h : target s.cfg off.toNat size <;> simp [hostAccess, h]
  | write off size w => cases h : target s.cfg off.toNat size <;> simp [hostAccess, h]

theorem engineStep_cfg {s t : State} (h : engineStep s = .next t) : t.cfg = s.cfg := by
  obtain ⟨-, rfl⟩ | ⟨i, -, -, hexec⟩ | ⟨e, -, -, rfl⟩ := engineStep_cases h
  · rfl
  · obtain ⟨hcfg, -⟩ := exec_sameHostSide hexec
    exact hcfg
  · rfl

/-- R7, R30: the parameters are fixed for the whole life of a core. -/
theorem step_cfg {s t : State} (h : step s = .next t) : t.cfg = s.cfg := by
  obtain ⟨-, he⟩ | ⟨rest, -, he⟩ | ⟨a, rest, -, rfl⟩ | ⟨draw, rest, -, rfl⟩ := step_cases h
  · exact engineStep_cfg he
  · simpa using engineStep_cfg he
  · simp
  · simp

/-! ### Register accesses -/

/-- The registers stand below the DBUF window (R61, R102). -/
theorem target_of_regAt {off : Nat} {r : Reg} (p : Params) (h : regAt off = some r) : target p off .b4 = .reg r := by
  have hlt : off < dbufBase := by
    unfold regAt at h
    split at h <;> simp_all [dbufBase]
  simp [target, h, Nat.not_le.2 hlt]

/-- No register shows what the outside does next. -/
@[simp] theorem readReg_inputs (s : State) (l : List Input) (r : Reg) :
    readReg { s with inputs := l } r = readReg s r := by
  cases r <;> rfl

/-- A 4-byte read at a register's offset answers its value and does nothing else (R65, R74). -/
theorem step_readReg (s : State) (rest : List Input) {off : BitVec 17} {r : Reg} (h : regAt off.toNat = some r) :
    step { s with inputs := .access (.read off .b4) :: rest } =
      .next { s with inputs := rest, busReply := some (.readOk (readReg s r)) } := by
  simp [step, hostAccess, target_of_regAt _ h, State.reply]

/-- A 4-byte write at a register's offset is that register's write (R65). -/
theorem step_writeReg (s : State) (w : Word) (rest : List Input) {off : BitVec 17} {r : Reg}
    (h : regAt off.toNat = some r) :
    step { s with inputs := .access (.write off .b4 w) :: rest } =
      .next ((writeReg { s with inputs := rest } w r).reply .writeOk) := by
  simp [step, hostAccess, target_of_regAt _ h]

/-- R68: a write to a read-only register completes `ok` and is ignored. -/
theorem step_writeReg_readOnly (s : State) (w : Word) (rest : List Input) {off : BitVec 17} {r : Reg}
    (h : regAt off.toNat = some r) (hr : r ∈ [Reg.config0, .config1, .config2, .slotStatus]) :
    step { s with inputs := .access (.write off .b4 w) :: rest } =
      .next { s with inputs := rest, busReply := some .writeOk } := by
  have ignored (u : State) : writeReg u w r = u := by
    simp only [List.mem_cons, List.not_mem_nil, or_false] at hr
    rcases hr with rfl | rfl | rfl | rfl <;> rfl
  rw [step_writeReg s w rest h, ignored]
  rfl

/-! ### The CONFIG registers (R30) -/

section

variable (s : State)

theorem State.config0Word_nSessions : s.config0Word.extractLsb' 0 8 = BitVec.ofNat 8 s.cfg.nSessions := by
  unfold State.config0Word
  rw [BitVec.extractLsb'_append_eq_of_add_le (by decide), BitVec.extractLsb'_eq_self]

theorem State.config0Word_tagLen : s.config0Word.extractLsb' 8 8 = BitVec.ofNat 8 s.cfg.tagLen := by
  unfold State.config0Word
  rw [BitVec.extractLsb'_append_eq_of_le (by decide), BitVec.extractLsb'_append_eq_of_add_le (by decide)]
  exact BitVec.extractLsb'_eq_self

theorem State.config0Word_cw : s.config0Word.extractLsb' 16 4 = BitVec.ofNat 4 Config.cw := by
  unfold State.config0Word
  iterate 2 rw [BitVec.extractLsb'_append_eq_of_le (by decide)]
  rw [BitVec.extractLsb'_append_eq_of_add_le (by decide)]
  exact BitVec.extractLsb'_eq_self

theorem State.config0Word_wireOrder : s.config0Word.getLsbD 20 = decide (s.cfg.wireOrder = .le) := by
  unfold State.config0Word
  iterate 4 rw [BitVec.getLsbD_append]
  simp

theorem State.config0Word_reserved : s.config0Word.extractLsb' 21 3 = 0 := by
  unfold State.config0Word
  iterate 4 rw [BitVec.extractLsb'_append_eq_of_le (by decide)]
  rw [BitVec.extractLsb'_append_eq_of_add_le (by decide)]
  exact BitVec.extractLsb'_eq_self

theorem State.config0Word_wCtr : s.config0Word.extractLsb' 24 8 = BitVec.ofNat 8 Config.wCtr := by
  unfold State.config0Word
  iterate 5 rw [BitVec.extractLsb'_append_eq_of_le (by decide)]
  exact BitVec.extractLsb'_eq_self

theorem State.toNat_config1Word (h : s.cfg.Legal) : s.config1Word.toNat = s.cfg.bufBytes := by
  obtain ⟨-, -, -, hbuf⟩ := h
  exact Nat.mod_eq_of_lt (by omega)

end

/-- The budget fits CONFIG2, whatever it is (notes 6). -/
theorem toNat_config2Word : config2Word.toNat = Config.retryBudget := by
  have hlt := Config.retryBudgetPred.isLt
  exact Nat.mod_eq_of_lt (by unfold Config.retryBudget; omega)

/-- Settles O26: the parameters are legal, so each fits its field; a register access does what the map says; and every
step keeps `cfg`. -/
theorem configRegistersReportTheParameters : Obligations.ConfigRegistersReportTheParameters := by
  unfold Obligations.ConfigRegistersReportTheParameters
  refine ⟨fun s hs => ?fields, fun s rest w => ?accesses, fun s t => step_cfg⟩
  case fields =>
    have ⟨⟨_, hn⟩, ⟨_, ht⟩, _⟩ := hs
    refine ⟨?_, ?_, s.config0Word_cw, s.config0Word_wireOrder, s.config0Word_reserved, s.config0Word_wCtr,
      s.toNat_config1Word hs, toNat_config2Word⟩
    · rw [s.config0Word_nSessions]
      exact Nat.mod_eq_of_lt (by omega)
    · rw [s.config0Word_tagLen]
      exact Nat.mod_eq_of_lt (by omega)
  case accesses =>
    refine ⟨step_readReg s rest (r := .config0) rfl, step_readReg s rest (r := .config1) rfl,
      step_readReg s rest (r := .config2) rfl, fun off hoff => ?_⟩
    simp only [List.mem_cons, List.not_mem_nil, or_false] at hoff
    obtain rfl | rfl | rfl := hoff
    · exact step_writeReg_readOnly s w rest (r := .config0) rfl (by decide)
    · exact step_writeReg_readOnly s w rest (r := .config1) rfl (by decide)
    · exact step_writeReg_readOnly s w rest (r := .config2) rfl (by decide)

/-! ### SLOT_STATUS (R31) -/

/-- Two bits a slot, ENC_VALID lowest. -/
theorem slotBits_cons (x : Slot) (xs : List Slot) :
    slotBits (x :: xs) = Nat.bit x.encValid (Nat.bit x.authValid (slotBits xs)) := by
  simp only [slotBits, Nat.bit_val]
  omega

/-- Bits `2n` and `2n+1` belong to slot `n`; a slot that is not there counts as empty. -/
theorem testBit_slotBits (xs : List Slot) (n : Nat) :
    (slotBits xs).testBit (2 * n) = (xs.getD n Slot.empty).encValid ∧
      (slotBits xs).testBit (2 * n + 1) = (xs.getD n Slot.empty).authValid := by
  induction xs generalizing n with
  | nil => simp [slotBits, Slot.empty]
  | cons x xs ih =>
    rw [slotBits_cons]
    cases n with
    | zero => exact ⟨Nat.testBit_bit_zero .., by rw [Nat.testBit_bit_succ, Nat.testBit_bit_zero]; rfl⟩
    | succ n => simpa only [Nat.mul_succ, Nat.testBit_bit_succ, List.getD_cons_succ] using ih n

theorem slotBits_replicate_empty (n : Nat) : slotBits (List.replicate n Slot.empty) = 0 := by
  induction n with
  | zero => rfl
  | succ n ih => rw [List.replicate_succ, slotBits, ih]; rfl

theorem State.slot_of_length_le {s : State} {n : BitVec 4} (h : s.slots.length ≤ n.toNat) :
    s.slot n = Slot.empty := by
  simp [State.slot, List.getElem?_eq_none h]

/-- The sixteen slots a 4-bit index can name all have their bits inside the 32-bit register. -/
theorem State.getLsbD_slotStatusWord (s : State) (n : BitVec 4) :
    s.slotStatusWord.getLsbD (2 * n.toNat) = (s.slot n).encValid ∧
      s.slotStatusWord.getLsbD (2 * n.toNat + 1) = (s.slot n).authValid := by
  have hn : n.toNat < 16 := n.isLt
  obtain ⟨henc, hauth⟩ := testBit_slotBits s.slots n.toNat
  constructor
  · rw [State.slotStatusWord, BitVec.getLsbD_ofNat, henc, decide_eq_true (by omega), Bool.true_and]
    rfl
  · rw [State.slotStatusWord, BitVec.getLsbD_ofNat, hauth, decide_eq_true (by omega), Bool.true_and]
    rfl

theorem State.slotStatusWord_afterReset (p : Params) (m : Memory) (q : PrimPort) (l : List Input) :
    (State.afterReset p m q l).slotStatusWord = 0 := by
  change BitVec.ofNat 32 (slotBits (List.replicate p.nSessions Slot.empty)) = 0
  rw [slotBits_replicate_empty]
  rfl

/-- Settles O27: the bits are those of the listed slots, and with one slot per session an absent slot is the empty
one. -/
theorem slotStatusReportsTheValidBits : Obligations.SlotStatusReportsTheValidBits := by
  unfold Obligations.SlotStatusReportsTheValidBits
  refine ⟨fun s n hs => ?bits, fun s w rest => ⟨step_readReg s rest (r := .slotStatus) rfl,
    step_writeReg_readOnly s w rest (r := .slotStatus) rfl (by decide)⟩,
    State.slotStatusWord_afterReset .., fun s draw => State.slotStatusWord_afterReset ..⟩
  case bits =>
    obtain ⟨-, hlen, -⟩ := hs
    obtain ⟨henc, hauth⟩ := s.getLsbD_slotStatusWord n
    rw [henc, hauth, ← hlen]
    by_cases h : n.toNat < s.slots.length
    · simp [h]
    · simp [h, State.slot_of_length_le (Nat.not_lt.1 h), Slot.empty]

end Sys2Proof.Machine

/-! SUPPORT. The host's accesses to DBUF (20_memory.md R64 to R70): which accesses reach what, the little-endian lanes
of a data word, and what a DBUF access does while the core is idle and while a command runs. -/

namespace Sys2Proof.Machine

/-! ### What an access reaches -/

theorem AccessSize.bytes_le_four (size : AccessSize) : size.bytes ≤ 4 := by
  cases size <;> decide

/-- The map of R102 has an entry at the listed offsets only. -/
theorem mem_registerOffsets_of_regAt {off : Nat} {r : Reg} (h : regAt off = some r) : off ∈ registerOffsets := by
  unfold regAt at h
  split at h <;> simp_all [registerOffsets]

/-- Every register stands below the DBUF window (R61). -/
theorem lt_dbufBase_of_mem_registerOffsets {off : Nat} (h : off ∈ registerOffsets) : off < 0x10000 := by
  have below : ∀ o ∈ registerOffsets, o < 0x10000 := by decide
  exact below off h

/-- In the DBUF window an access is legal when it is aligned and ends inside DBUF (R67). -/
theorem legalAccess_dbuf_iff {p : Params} {off : Nat} {size : AccessSize} (hoff : 0x10000 ≤ off) :
    LegalAccess p off size ↔ (off - 0x10000) % size.bytes = 0 ∧ off - 0x10000 + size.bytes ≤ p.bufBytes := by
  have noReg : off ∉ registerOffsets := fun h => Nat.not_lt.2 hoff (lt_dbufBase_of_mem_registerOffsets h)
  simp [LegalAccess, noReg, hoff]

theorem target_dbuf {p : Params} {off : Nat} {size : AccessSize} (hoff : 0x10000 ≤ off)
    (h : LegalAccess p off size) : target p off size = .dbuf (off - 0x10000) := by
  have hin := (legalAccess_dbuf_iff hoff).1 h
  simp [target, dbufBase, hoff, hin]

/-- What is not legal reaches nothing, in the DBUF window or below it (R65, R67, R68). -/
theorem target_none {p : Params} {off : Nat} {size : AccessSize} (h : ¬LegalAccess p off size) :
    target p off size = .none := by
  by_cases hoff : 0x10000 ≤ off
  · have hout := mt (legalAccess_dbuf_iff hoff).2 h
    exact (if_pos hoff).trans (if_neg hout)
  · refine (if_neg hoff).trans ?_
    split
    · next r hr => exact absurd (Or.inl ⟨rfl, mem_registerOffsets_of_regAt hr⟩) h
    · rfl

/-! ### Lanes -/

/-- Little-endian is big-endian read backwards, so what is known of `uBE` serves the lanes. -/
theorem laneValue_eq_uBE_reverse (bs : List Byte) : laneValue bs = uBE bs.reverse := by
  induction bs with
  | nil => rfl
  | cons b bs ih => rw [laneValue, List.reverse_cons, uBE_concat, ← ih]; omega

theorem laneValue_lt (bs : List Byte) : laneValue bs < 2 ^ (8 * bs.length) := by
  have h := uBE_lt bs.reverse
  rwa [← laneValue_eq_uBE_reverse, List.length_reverse, show (256 : Nat) = 2 ^ 8 from rfl, ← Nat.pow_mul] at h

/-- The sum of R67. -/
theorem laneValue_map_range (f : Nat → Byte) (n : Nat) :
    laneValue ((List.range n).map f) = ((List.range n).map fun j => (f j).toNat * 2 ^ (8 * j)).sum := by
  induction n generalizing f with
  | zero => rfl
  | succ n ih =>
    have shift (j : Nat) : (f (j + 1)).toNat * 2 ^ (8 * (j + 1)) = 256 * ((f (j + 1)).toNat * 2 ^ (8 * j)) := by
      ring
    have tail := ih (fun j => f (j + 1))
    simp [List.range_succ_eq_map, Function.comp_def, laneValue, shift, List.sum_map_mul_left, tail]

/-- Up to four bytes fit a data word, so packing them loses nothing. -/
theorem toNat_laneValue {bs : List Byte} (h : bs.length ≤ 4) :
    (BitVec.ofNat 32 (laneValue bs)).toNat = laneValue bs := by
  have hlt := laneValue_lt bs
  have hle : 2 ^ (8 * bs.length) ≤ 2 ^ 32 := Nat.pow_le_pow_right (by decide) (by omega)
  exact Nat.mod_eq_of_lt (by omega)

/-- Lane `j` of the data word of a read is byte `j`. -/
theorem extractLsb'_laneValue {bs : List Byte} (h : bs.length ≤ 4) {j : Nat} (hj : j < bs.length) :
    (BitVec.ofNat 32 (laneValue bs)).extractLsb' (8 * j) 8 = bs[j] := by
  have hd := uBE_digit (bs := bs.reverse) (i := bs.length - 1 - j) (by simp; omega)
  have hexp : bs.reverse.length - 1 - (bs.length - 1 - j) = j := by simp; omega
  have hidx : bs.length - 1 - (bs.length - 1 - j) = j := by omega
  simp only [hexp, List.getElem_reverse, hidx, ← laneValue_eq_uBE_reverse] at hd
  apply BitVec.eq_of_toNat_eq
  rw [BitVec.extractLsb'_toNat, toNat_laneValue h, Nat.shiftRight_eq_div_pow, Nat.pow_mul]
  exact hd

@[simp] theorem length_laneBytes (n : Nat) (w : Word) : (laneBytes n w).length = n := by simp [laneBytes]

/-- The one lane of a 1-byte write. -/
theorem laneBytes_one_setWidth (b : Byte) : laneBytes 1 (b.setWidth 32) = [b] := by
  have h : (b.setWidth 32).extractLsb' 0 8 = b := by
    apply BitVec.eq_of_toNat_eq
    simp [b.isLt]
  simp [laneBytes, h]

/-! ### One access -/

section

variable {s : State} {off : BitVec 17} {size : AccessSize} (w : Word) (rest : List Input)

theorem step_read_busError (h : ¬LegalAccess s.cfg off.toNat size) :
    step { s with inputs := .access (.read off size) :: rest } =
      .next { s with inputs := rest, busReply := some .busError } := by
  simp [step, hostAccess, target_none h, State.reply]

theorem step_write_busError (h : ¬LegalAccess s.cfg off.toNat size) :
    step { s with inputs := .access (.write off size w) :: rest } =
      .next { s with inputs := rest, busReply := some .busError } := by
  simp [step, hostAccess, target_none h, State.reply]

variable (hoff : 0x10000 ≤ off.toNat) (h : LegalAccess s.cfg off.toNat size)
include hoff h

theorem step_readDbuf_idle (hs : s.seq = .idle) :
    step { s with inputs := .access (.read off size) :: rest } =
      .next { s with
        inputs := rest
        busReply := some (.readOk
          (BitVec.ofNat 32 (laneValue (s.dbuf.readBytes (off.toNat - 0x10000) size.bytes)))) } := by
  simp [step, hostAccess, target_dbuf hoff h, readDbuf, hs, State.reply]

theorem step_writeDbuf_idle (hs : s.seq = .idle) :
    step { s with inputs := .access (.write off size w) :: rest } =
      .next { s with
        inputs := rest
        busReply := some .writeOk
        dbuf := s.dbuf.writeBytes (off.toNat - 0x10000) (laneBytes size.bytes w) } := by
  simp [step, hostAccess, target_dbuf hoff h, writeDbuf, hs, State.reply]

theorem step_readDbuf_busy (hs : s.seq = .busy) :
    step { s with inputs := .access (.read off size) :: rest } =
      .next { s with inputs := rest, busyAcc := true, busReply := some (.readOk 0) } := by
  simp [step, hostAccess, target_dbuf hoff h, readDbuf, hs, State.reply]

theorem step_writeDbuf_busy (hs : s.seq = .busy) :
    step { s with inputs := .access (.write off size w) :: rest } =
      .next { s with inputs := rest, busyAcc := true, busReply := some .writeOk } := by
  simp [step, hostAccess, target_dbuf hoff h, writeDbuf, hs, State.reply]

end

/-! ### Ignored bits of STATUS and CTRL (R25, R32, R68) -/

/-- A STATUS write with 0 in the three write-one-to-clear bits clears nothing. -/
theorem writeStatus_of_and_eq_zero {w : Word} (h : w &&& 0x0000000E#32 = 0) (s : State) : writeStatus s w = s := by
  have hbit (i : Nat) : (w.getLsbD i && (0x0000000E#32).getLsbD i) = false := by
    rw [← BitVec.getLsbD_and, h]; exact BitVec.getLsbD_zero
  have h1 : w.getLsbD 1 = false := by simpa using hbit 1
  have h2 : w.getLsbD 2 = false := by simpa using hbit 2
  have h3 : w.getLsbD 3 = false := by simpa using hbit 3
  simp only [writeStatus, h1, h2, h3, Bool.not_false, Bool.and_true]

theorem writeReg_ctrl_and_one (s : State) (w : Word) : writeReg s (w &&& 1) .ctrl = writeReg s w .ctrl := by
  have h : (w &&& 1).getLsbD 0 = w.getLsbD 0 := by simp
  simp only [writeReg, h]

/-! ### A wide access and its 1-byte accesses (R70) -/

/-- The 1-byte write of lane `j` of a data word, `j` bytes past the offset. -/
def byteWrite (off : BitVec 17) (w : Word) (j : Nat) : Input :=
  .access (.write (off + BitVec.ofNat 17 j) .b1 ((w.extractLsb' (8 * j) 8).setWidth 32))

section

variable {p : Params} {off : BitVec 17} {size : AccessSize} {j : Nat} (hoff : 0x10000 ≤ off.toNat)
  (h : LegalAccess p off.toNat size) (hj : j < size.bytes)
include hoff h hj

/-- The window is 2^17 bytes, so an aligned access does not wrap at its end. -/
theorem toNat_byteOffset : (off + BitVec.ofNat 17 j).toNat = off.toNat + j := by
  obtain ⟨halign, -⟩ := (legalAccess_dbuf_iff hoff).1 h
  have hlt := off.isLt
  have hin : off.toNat + j < 2 ^ 17 := by
    cases size <;> simp only [AccessSize.bytes] at halign hj <;> omega
  rw [BitVec.toNat_add, BitVec.toNat_ofNat, Nat.mod_eq_of_lt (by omega : j < 2 ^ 17), Nat.mod_eq_of_lt hin]

/-- Each byte of a legal DBUF access is itself a legal access. -/
theorem legalAccess_byte : LegalAccess p (off + BitVec.ofNat 17 j).toNat .b1 := by
  obtain ⟨-, hin⟩ := (legalAccess_dbuf_iff hoff).1 h
  rw [toNat_byteOffset hoff h hj, legalAccess_dbuf_iff (by omega)]
  simp only [AccessSize.bytes]
  omega

end

theorem core_run_succ {s t : State} (n : Nat) (h : step s = .next t) : core.run (n + 1) s = core.run n t := by
  have hc : core.step s = .next t := h
  simp [Host.Core.run, hc]

theorem step_byteWrite {s : State} {off : BitVec 17} {size : AccessSize} {j : Nat} (w : Word) (rest : List Input)
    (hs : s.seq = .idle) (hoff : 0x10000 ≤ off.toNat) (h : LegalAccess s.cfg off.toNat size) (hj : j < size.bytes) :
    step { s with inputs := byteWrite off w j :: rest } =
      .next { s with
        inputs := rest
        busReply := some .writeOk
        dbuf := s.dbuf.write (off.toNat - 0x10000 + j) (w.extractLsb' (8 * j) 8) } := by
  have hat := toNat_byteOffset hoff h hj
  rw [byteWrite, step_writeDbuf_idle _ _ (by omega) (legalAccess_byte hoff h hj) hs, hat, AccessSize.bytes,
    laneBytes_one_setWidth, Nat.sub_add_comm hoff]
  rfl

/-- The 1-byte writes of lanes `j` to `j + n - 1`, in order, write those bytes as one string. -/
theorem run_byteWrites {s : State} {off : BitVec 17} {size : AccessSize} (w : Word) (hs : s.seq = .idle)
    (hoff : 0x10000 ≤ off.toNat) (h : LegalAccess s.cfg off.toNat size) {j n : Nat} (hj : j + n ≤ size.bytes) :
    ∃ u, core.run n { s with inputs := (List.range' j n).map (byteWrite off w) } = .next u ∧
      u.dbuf = s.dbuf.writeBytes (off.toNat - 0x10000 + j)
        ((List.range' j n).map fun i => w.extractLsb' (8 * i) 8) := by
  induction n generalizing s j with
  | zero => exact ⟨_, rfl, rfl⟩
  | succ n ih =>
    rw [List.range'_succ, List.map_cons,
      core_run_succ n (step_byteWrite w _ hs hoff h (by omega : j < size.bytes))]
    obtain ⟨u, hrun, hdbuf⟩ := ih (j := j + 1) (s := { s with
      busReply := some .writeOk
      dbuf := s.dbuf.write (off.toNat - 0x10000 + j) (w.extractLsb' (8 * j) 8) }) hs h (by omega)
    refine ⟨u, hrun, ?_⟩
    rw [hdbuf, List.map_cons, Memory.writeBytes, Nat.add_assoc]

/-! ### The statements -/

/-- Settles O21: in the DBUF window a legal access reaches DBUF, which a busy core hides. -/
theorem dbufAccessWhileBusyIsBlocked : Obligations.DbufAccessWhileBusyIsBlocked := by
  unfold Obligations.DbufAccessWhileBusyIsBlocked
  intro s off size w rest hs hoff h
  refine ⟨⟨0, step_readDbuf_busy rest hoff h hs, fun j _ => ?_⟩, step_writeDbuf_busy w rest hoff h hs⟩
  exact BitVec.extractLsb'_zero

/-- Settles O20: an access that is not legal has no target; a read-only register's write is the identity; and STATUS and
CTRL writes look only at their writable bits. -/
theorem busErrorsChangeNothing : Obligations.BusErrorsChangeNothing := by
  unfold Obligations.BusErrorsChangeNothing
  intro s off size w rest
  refine ⟨fun h => ⟨step_read_busError rest h, step_write_busError w rest h⟩, rfl, fun hmem => ?readOnly,
    fun hw => ?status, ?ctrl⟩
  case readOnly =>
    simp only [List.mem_cons, List.not_mem_nil, or_false] at hmem
    obtain h | h | h | h := hmem
    · exact step_writeReg_readOnly s w rest (r := .config0) (by rw [h]; rfl) (by decide)
    · exact step_writeReg_readOnly s w rest (r := .config1) (by rw [h]; rfl) (by decide)
    · exact step_writeReg_readOnly s w rest (r := .config2) (by rw [h]; rfl) (by decide)
    · exact step_writeReg_readOnly s w rest (r := .slotStatus) (by rw [h]; rfl) (by decide)
  case status =>
    rw [step_writeReg s w rest (r := .status) rfl, writeReg, writeStatus_of_and_eq_zero hw]
    rfl
  case ctrl =>
    rw [step_writeReg s w rest (r := .ctrl) rfl, step_writeReg s (w &&& 1) rest (r := .ctrl) rfl,
      writeReg_ctrl_and_one]

/-- Settles O22: R67's condition is legality in the DBUF window; a read packs the bytes into lanes below `8n`, and a
write of the lanes reads back byte by byte because DBUF is canonical. -/
theorem dbufAccessWhileIdleUsesLittleEndianLanes : Obligations.DbufAccessWhileIdleUsesLittleEndianLanes := by
  unfold Obligations.DbufAccessWhileIdleUsesLittleEndianLanes
  intro s off size w rest k hinv hs hk lanes
  obtain ⟨-, -, -, -, hwf, -⟩ := hinv
  have hoff : 0x10000 ≤ off.toNat := by omega
  have hsub : off.toNat - 0x10000 = k := by omega
  have hlegal := legalAccess_dbuf_iff (p := s.cfg) (size := size) hoff
  rw [hsub] at hlegal
  refine ⟨fun hin => ⟨⟨_, step_readDbuf_idle rest hoff (hlegal.2 hin) hs, ?read⟩,
    ⟨_, step_writeDbuf_idle w rest hoff (hlegal.2 hin) hs, ?inside, ?outside, rfl⟩⟩, fun hout => ?busError⟩
  case read =>
    have hlen := s.dbuf.length_readBytes k size.bytes
    have hlt := laneValue_lt (s.dbuf.readBytes k size.bytes)
    rw [hlen] at hlt
    rw [hsub, toNat_laneValue (hlen.trans_le size.bytes_le_four), Nat.mod_eq_of_lt hlt]
    exact laneValue_map_range ..
  case inside =>
    intro j hj
    have hread := Memory.read_writeBytes_inside (bs := laneBytes size.bytes w) (k := j) hwf
      (by simpa using hin.2) (by simpa using hj)
    simpa [hsub, laneBytes] using hread
  case outside =>
    intro a ha
    rw [hsub]
    exact Memory.read_writeBytes_other _ _ (by simpa using ha)
  case busError =>
    exact ⟨step_read_busError rest (mt hlegal.1 hout), step_write_busError w rest (mt hlegal.1 hout)⟩

/-- Settles O23: lane `j` of the read is the byte that the 1-byte read packs alone, and both writes write the same
string. -/
theorem wideDbufAccessIsItsByteAccesses : Obligations.WideDbufAccessIsItsByteAccesses := by
  unfold Obligations.WideDbufAccessIsItsByteAccesses
  intro s off size w hs hoff h
  refine ⟨fun j hj => ?read, ?write⟩
  case read =>
    have hat := toNat_byteOffset hoff h hj
    refine ⟨_, _, _, _, step_readDbuf_idle [] hoff h hs, rfl,
      step_readDbuf_idle [] (by omega) (legalAccess_byte hoff h hj) hs, rfl, ?_⟩
    have hwide := extractLsb'_laneValue (bs := s.dbuf.readBytes (off.toNat - 0x10000) size.bytes) (j := j)
      (by simpa using size.bytes_le_four) (by simpa using hj)
    have hbyte := extractLsb'_laneValue (bs := s.dbuf.readBytes (off.toNat + j - 0x10000) 1) (j := 0)
      (by simp) (by simp)
    rw [hwide, hat]
    refine hbyte.trans ?_
    simp [Memory.readBytes, Nat.sub_add_comm hoff]
  case write =>
    obtain ⟨u, hrun, hdbuf⟩ := run_byteWrites w hs hoff h (j := 0) (n := size.bytes) (by omega)
    rw [← List.range_eq_range'] at hrun
    rw [← List.range_eq_range', Nat.add_zero] at hdbuf
    exact ⟨_, u, step_writeDbuf_idle w [] hoff h hs, hrun, hdbuf.symm⟩

end Sys2Proof.Machine

/-! SUPPORT. Command words (30_encoding.md R91 to R101): the three fields that make a word, what it means for a row of
the opcode table to select a word, what decoding answers, and how a word that R98 calls illegal ends. -/

namespace Sys2Proof

/-! ### The fields of a word (R91 to R94) -/

/-- The three fields cover the word. -/
theorem fields_append (w : Word) : res0Field w ++ (slotField w ++ opField w) = w :=
  calc res0Field w ++ (slotField w ++ opField w)
    _ = res0Field w ++ w.extractLsb' 0 12 :=
      congrArg (res0Field w ++ ·) (BitVec.extractLsb'_append_extractLsb'_eq_extractLsb' (start₁ := 0) (len₁ := 8) rfl)
    _ = w := BitVec.extractLsb'_append_extractLsb' (w := 20) (len := 12)

theorem word_ext_iff {v w : Word} :
    v = w ↔ res0Field v = res0Field w ∧ slotField v = slotField w ∧ opField v = opField w := by
  refine ⟨by rintro rfl; exact ⟨rfl, rfl, rfl⟩, fun ⟨hres, hslot, hop⟩ => ?_⟩
  rw [← fields_append v, ← fields_append w, hres, hslot, hop]

theorem opField_and (v w : Word) : opField (v &&& w) = opField v &&& opField w := BitVec.extractLsb'_and

theorem slotField_and (v w : Word) : slotField (v &&& w) = slotField v &&& slotField w := BitVec.extractLsb'_and

theorem res0Field_and (v w : Word) : res0Field (v &&& w) = res0Field v &&& res0Field w := BitVec.extractLsb'_and

theorem slotField_eq_setWidth (w : Word) : slotField w = (w >>> 8).setWidth 4 :=
  BitVec.setWidth_ushiftRight_eq_extractLsb.symm

/-! ### The word a row selects (R100) -/

/-- Every mask covers `OP` and `RES0`; the SLOT bits are covered where the command takes no slot. -/
theorem OpRow.mask_fields (r : OpRow) :
    res0Field r.mask = BitVec.allOnes 20 ∧
      slotField r.mask = (if r.slotted then 0#4 else BitVec.allOnes 4) ∧ opField r.mask = BitVec.allOnes 8 := by
  unfold OpRow.mask
  cases r.slotted <;> decide

theorem OpRow.matchWord_fields (r : OpRow) :
    res0Field r.matchWord = 0 ∧ slotField r.matchWord = 0 ∧ opField r.matchWord = r.op := by
  refine ⟨?_, ?_, BitVec.extractLsb'_append_eq_right⟩
  · exact (BitVec.extractLsb'_append_eq_of_le (by decide)).trans (by decide)
  · exact (BitVec.extractLsb'_append_eq_of_le (by decide)).trans (by decide)

/-- R92 to R94 for one row: its opcode, no reserved bit, and no SLOT bit where the command takes no slot. -/
theorem OpRow.selects_iff {r : OpRow} {w : Word} :
    r.selects w = true ↔ res0Field w = 0 ∧ (r.slotted = false → slotField w = 0) ∧ opField w = r.op := by
  obtain ⟨mres, mslot, mop⟩ := r.mask_fields
  obtain ⟨hres, hslot, hop⟩ := r.matchWord_fields
  rw [OpRow.selects, beq_iff_eq, word_ext_iff, res0Field_and, slotField_and, opField_and, mres, mslot, mop, hres,
    hslot, hop, BitVec.and_allOnes, BitVec.and_allOnes]
  cases r.slotted <;> simp [-BitVec.reduceAllOnes]

theorem OpRow.selects_iff_masked {r : OpRow} {w : Word} :
    r.selects w = true ↔
      w &&& (if r.slotted then 0xFFFFF0FF#32 else 0xFFFFFFFF#32) = r.op.setWidth 32 := by
  have hop : r.op.setWidth 32 = r.matchWord := BitVec.setWidth_eq_append (by decide)
  rw [OpRow.selects, beq_iff_eq, hop]
  rfl

/-! ### The opcode table (R97) -/

theorem nodup_opTable_ops : (opTable.map fun r => r.op).Nodup := by decide

theorem eq_of_op_eq {r q : OpRow} (hr : r ∈ opTable) (hq : q ∈ opTable) (h : r.op = q.op) : r = q :=
  List.inj_on_of_nodup_map nodup_opTable_ops hr hq h

/-- R100: no two rows match the same word. -/
theorem eq_of_selects {r q : OpRow} {w : Word} (hr : r ∈ opTable) (hq : q ∈ opTable) (hrw : r.selects w = true)
    (hqw : q.selects w = true) : r = q := by
  obtain ⟨-, -, hrop⟩ := OpRow.selects_iff.1 hrw
  obtain ⟨-, -, hqop⟩ := OpRow.selects_iff.1 hqw
  exact eq_of_op_eq hr hq (hrop.symm.trans hqop)

/-- The command of a row takes the SLOT field as its operand exactly where the row is marked *slot*. -/
theorem slot?_build {r : OpRow} (hr : r ∈ opTable) (n : BitVec 4) :
    (r.build n).slot? = if r.slotted then some n else none := by
  have all : ∀ q ∈ opTable, (q.build n).slot? = if q.slotted then some n else none := by
    simp [opTable, Instr.slot?]
  exact all r hr

/-- The opcodes of the rows with a slot, or of those without. -/
def opsOf (slotted : Bool) : List (BitVec 8) := (opTable.filter fun r => r.slotted == slotted).map OpRow.op

theorem mem_opsOf {b : Bool} {op : BitVec 8} : op ∈ opsOf b ↔ ∃ r ∈ opTable, r.slotted = b ∧ r.op = op := by
  simp [opsOf, and_assoc]

theorem op_mem_opsOf_iff {r : OpRow} (hr : r ∈ opTable) {b : Bool} : r.op ∈ opsOf b ↔ r.slotted = b := by
  rw [mem_opsOf]
  refine ⟨fun ⟨q, hq, hb, hop⟩ => ?_, fun hb => ⟨r, hr, hb, rfl⟩⟩
  rw [← hb, eq_of_op_eq hq hr hop]

/-! ### What decoding answers (R100) -/

theorem decode_of_selects {r : OpRow} {w : Word} (hr : r ∈ opTable) (h : r.selects w = true) :
    decode w = .ok (r.build (slotField w)) := by
  unfold decode
  cases hf : opTable.find? fun q => q.selects w with
  | none => exact absurd h (List.find?_eq_none.1 hf r hr)
  | some q =>
    have hsel : q.selects w = true := List.find?_some (p := fun q : OpRow => q.selects w) hf
    rw [eq_of_selects (List.mem_of_find?_eq_some hf) hr hsel h]

theorem decode_of_not_selects {w : Word} (h : ∀ r ∈ opTable, ¬r.selects w = true) :
    decode w = .error (rejection w) := by
  rw [decode, List.find?_eq_none.2 h]

theorem decode_eq_ok_iff {w : Word} {i : Instr} :
    decode w = .ok i ↔ ∃ r ∈ opTable, r.selects w = true ∧ r.build (slotField w) = i := by
  constructor
  · intro h
    by_cases hex : ∃ r ∈ opTable, r.selects w = true
    · obtain ⟨r, hr, hsel⟩ := hex
      rw [decode_of_selects hr hsel] at h
      exact ⟨r, hr, hsel, Except.ok.inj h⟩
    · rw [decode_of_not_selects fun r hr hsel => hex ⟨r, hr, hsel⟩] at h
      cases h
  · rintro ⟨r, hr, hsel, rfl⟩
    exact decode_of_selects hr hsel

/-! ### Illegal words (R98) -/

/-- A row's command is well formed unless it takes a slot that the core does not have (R93). -/
theorem wellFormed_build {r : OpRow} (hr : r ∈ opTable) (p : Params) (n : BitVec 4) :
    (r.build n).wellFormed p = true ↔ (r.slotted = true → n.toNat < p.nSessions) := by
  rw [Instr.wellFormed, slot?_build hr]
  cases r.slotted <;> simp

/-- The illegal words of R98: a reserved bit, a reserved opcode, or an illegal SLOT. -/
def IllegalWord (p : Params) (w : Word) : Prop :=
  res0Field w ≠ 0 ∨ opField w ∉ opsOf false ++ opsOf true ∨ (opField w ∈ opsOf false ∧ slotField w ≠ 0) ∨
    (opField w ∈ opsOf true ∧ p.nSessions ≤ (slotField w).toNat)

/-- Given the row of its opcode, a word is illegal by its reserved bits or by its SLOT. -/
theorem illegalWord_iff_of_row {r : OpRow} {w : Word} (p : Params) (hr : r ∈ opTable) (hop : opField w = r.op) :
    IllegalWord p w ↔ ¬(r.selects w = true ∧ (r.build (slotField w)).wellFormed p = true) := by
  rw [IllegalWord, OpRow.selects_iff, wellFormed_build hr, hop, List.mem_append]
  simp only [op_mem_opsOf_iff hr]
  cases r.slotted <;> simp [imp_iff_not_or]

/-- The words that are not illegal are those that decode to a well-formed command. -/
theorem illegalWord_iff (p : Params) (w : Word) :
    IllegalWord p w ↔ ¬∃ i, decode w = .ok i ∧ i.wellFormed p = true := by
  by_cases hrow : ∃ r ∈ opTable, opField w = r.op
  · obtain ⟨r, hr, hop⟩ := hrow
    rw [illegalWord_iff_of_row p hr hop, not_iff_not]
    constructor
    · rintro ⟨hsel, hwf⟩
      exact ⟨_, decode_of_selects hr hsel, hwf⟩
    · rintro ⟨i, hdec, hwf⟩
      obtain ⟨q, hq, hsel, rfl⟩ := decode_eq_ok_iff.1 hdec
      obtain ⟨-, -, hqop⟩ := OpRow.selects_iff.1 hsel
      rw [eq_of_op_eq hr hq (hop.symm.trans hqop)]
      exact ⟨hsel, hwf⟩
  · have reserved : opField w ∉ opsOf false ++ opsOf true := by
      simp only [List.mem_append, mem_opsOf]
      rintro (⟨r, hr, -, hop⟩ | ⟨r, hr, -, hop⟩) <;> exact hrow ⟨r, hr, hop.symm⟩
    refine iff_of_true (.inr (.inl reserved)) ?_
    rintro ⟨i, hdec, -⟩
    obtain ⟨r, hr, hsel, -⟩ := decode_eq_ok_iff.1 hdec
    obtain ⟨-, -, hop⟩ := OpRow.selects_iff.1 hsel
    exact hrow ⟨r, hr, hop⟩

/-- Settles O2: a row selects a word exactly when the masked word is its opcode, and the opcodes differ. -/
theorem decodeFollowsMaskAndMatch : Obligations.DecodeFollowsMaskAndMatch := by
  unfold Obligations.DecodeFollowsMaskAndMatch
  simp only [ne_eq, ← OpRow.selects_iff_masked, ← slotField_eq_setWidth]
  exact ⟨fun w => ⟨fun r => decode_of_selects, fun h => ⟨_, decode_of_not_selects h⟩,
    fun r hr q hq => eq_of_selects hr hq⟩, nodup_opTable_ops⟩

end Sys2Proof

namespace Sys2Proof.Machine

/-! ### How an illegal word ends (R98, R124 V1) -/

theorem wellFormed_eq_hasSlot {i : Instr} {n : BitVec 4} (h : i.slot? = some n) (s : State) :
    i.wellFormed s.cfg = s.hasSlot n := by
  rw [Instr.wellFormed, h]
  rfl

/-- V1: a slot command checks its slot first. -/
theorem checksOf_of_slot {i : Instr} {n : BitVec 4} (h : i.slot? = some n) (s : State) :
    ∃ l, checksOf i s = (s.hasSlot n, .illegalCommand) :: l := by
  cases i with
  | nop | bcInit | hmacInit | hmacUpdate | hmacFinal | hkdfExtract | hkdfExpand => cases h
  | bcEncryptBlock m | ctrSetKey m | ctrSetIv m | ctrSetCounter m | ctrEncrypt m | ctrDecrypt m | ctrGetState m
  | sessionLoad m | sessionClear m | sealPayload m | openPayload m =>
    cases h
    exact ⟨_, rfl⟩

/-- R93, R98: a command on a slot that the core does not have ends at its first check. -/
theorem exec_of_not_wellFormed {i : Instr} {s : State} (h : i.wellFormed s.cfg = false) :
    exec i s = .next (s.complete .illegalCommand) := by
  have hfail : firstFailure (checksOf i s) = some .illegalCommand := by
    cases hslot : i.slot? with
    | none => simp [Instr.wellFormed, hslot] at h
    | some n =>
      obtain ⟨l, hl⟩ := checksOf_of_slot hslot s
      rw [hl, firstFailure_cons, ← wellFormed_eq_hasSlot hslot, h]
      rfl
  obtain ⟨e, he, hexec⟩ | ⟨t, hnone, -, -⟩ := exec_cases i s
  · obtain rfl : ErrCode.illegalCommand = e := Option.some.inj (hfail.symm.trans he)
    exact hexec
  · cases hfail.symm.trans hnone

section

variable {s : State} (hs : s.seq = .busy) (hl : s.inputs = [])
include hs hl

/-- R127: with nothing else listed, the engine runs the command it decodes. -/
theorem step_of_decode_ok {i : Instr} (h : decode s.cmdL = .ok i) : step s = exec i s := by
  simp only [step, hl, engineStep, hs, h]

theorem step_of_decode_error {e : DecodeError} (h : decode s.cmdL = .error e) :
    step s = .next (s.complete .illegalCommand) := by
  simp only [step, hl, engineStep, hs, h]

/-- A word that decodes to no well-formed command ends with ERR_ILLEGAL_COMMAND, whether decoding or the slot check
refuses it. -/
theorem step_of_illegalWord (h : IllegalWord s.cfg s.cmdL) : step s = .next (s.complete .illegalCommand) := by
  cases hd : decode s.cmdL with
  | error e => exact step_of_decode_error hs hl hd
  | ok i =>
    have hwf : i.wellFormed s.cfg = false := by
      rw [← Bool.not_eq_true]
      exact fun hwf => (illegalWord_iff ..).1 h ⟨i, hd, hwf⟩
    exact (step_of_decode_ok hs hl hd).trans (exec_of_not_wellFormed hwf)

end

/-- Settles O4: the listed opcodes are those of the table, so the illegal words are those that decode to no well-formed
command. -/
theorem illegalCommandWordsOnlySetStatus : Obligations.IllegalCommandWordsOnlySetStatus := by
  unfold Obligations.IllegalCommandWordsOnlySetStatus
  intro s hs hl op slot plain slotted illegal
  have hillegal : illegal ↔ IllegalWord s.cfg s.cmdL := Iff.rfl
  rw [hillegal]
  refine ⟨step_of_illegalWord hs hl, fun h => ?_⟩
  rw [illegalWord_iff, not_not] at h
  obtain ⟨i, hd, hwf⟩ := h
  exact ⟨i, hd, hwf, step_of_decode_ok hs hl hd⟩

end Sys2Proof.Machine

/-! SUPPORT. The command cycle (40_command_cycle.md R121, R122): what a write to CMD does while IDLE and while BUSY. -/

namespace Sys2Proof.Machine

/-! ### A write to CMD -/

section

variable {s : State} (w : Word) (rest : List Input)

theorem writeCmd_of_idle (hs : s.seq = .idle) : writeCmd s w = s.accept w := by
  simp only [writeCmd, hs]

theorem writeCmd_of_busy (hs : s.seq = .busy) : writeCmd s w = { s with cmdOvf := true } := by
  simp only [writeCmd, hs]

/-- R121: while IDLE a write to CMD is acceptance, whatever the word. -/
theorem step_writeCmd_idle (hs : s.seq = .idle) :
    step { s with inputs := .access (.write 0x000 .b4 w) :: rest } =
      .next (({ s with inputs := rest }.accept w).reply .writeOk) := by
  have haccept : writeReg { s with inputs := rest } w .cmd = { s with inputs := rest }.accept w :=
    writeCmd_of_idle w hs
  rw [step_writeReg s w rest (r := .cmd) rfl, haccept]

/-- R122: while BUSY a write to CMD is dropped and flagged. -/
theorem step_writeCmd_busy (hs : s.seq = .busy) :
    step { s with inputs := .access (.write 0x000 .b4 w) :: rest } =
      .next ({ s with inputs := rest, cmdOvf := true }.reply .writeOk) := by
  have hdrop : writeReg { s with inputs := rest } w .cmd = { s with inputs := rest, cmdOvf := true } :=
    writeCmd_of_busy w hs
  rw [step_writeReg s w rest (r := .cmd) rfl, hdrop]

end

/-! ### The statements -/

/-- Settles O6: the write is acceptance, which leaves the core busy with `w` latched; the engine's step from there ends or
runs as `w` decodes. -/
theorem cmdWriteWhenIdleIsAccepted : Obligations.CmdWriteWhenIdleIsAccepted := by
  unfold Obligations.CmdWriteWhenIdleIsAccepted
  intro s w rest hs t
  have hbusy : t.seq = .busy := rfl
  have hlatched : t.cmdL = w := rfl
  refine ⟨step_writeCmd_idle w rest hs, fun hrest => ?_⟩
  rw [← hlatched]
  exact ⟨fun e => step_of_decode_error hbusy hrest, fun i => step_of_decode_ok hbusy hrest⟩

/-- Settles O7: the dropped write keeps the latched word and arguments, as it keeps everything but the flag. -/
theorem cmdWriteWhenBusyIsDropped : Obligations.CmdWriteWhenBusyIsDropped := by
  unfold Obligations.CmdWriteWhenBusyIsDropped
  intro s w rest hs
  exact step_writeCmd_busy w rest hs

end Sys2Proof.Machine

/-! SUPPORT. The counter-mode engine (42_ctr.md R163 to R177): the bytes of a counter block, what CTR_SET_COUNTER
leaves, and CTR_ENCRYPT and CTR_DECRYPT as one command, from its checks to its output. -/

namespace Sys2Proof.Machine

/-! ### The bytes of a counter block (R163) -/

/-- The bytes of a value put together from two are the bytes of the two, high part first. -/
theorem toBytes_append {w v n m : Nat} (hv : v = 8 * m) (hi : BitVec w) (lo : BitVec v) :
    toBytes (n + m) (hi ++ lo) = toBytes n hi ++ toBytes m lo := by
  refine List.ext_getElem (by simp) fun i h1 h2 => ?_
  simp only [length_toBytes] at h1
  by_cases hlt : i < n
  · have hstart : 8 * (n + m - 1 - i) = 8 * (n - 1 - i) + v := by omega
    rw [List.getElem_append_left (by simpa using hlt)]
    simp only [toBytes, List.getElem_map, List.getElem_range]
    rw [hstart, BitVec.extractLsb'_append_eq_of_le (by omega), Nat.add_sub_cancel]
  · have hstart : n + m - 1 - i = m - 1 - (i - n) := by omega
    rw [List.getElem_append_right (by simpa using hlt)]
    simp only [toBytes, List.getElem_map, List.getElem_range, List.length_map, List.length_range]
    rw [hstart, BitVec.extractLsb'_append_eq_of_add_le (by omega)]

/-- Unpacking a value and packing its bytes gives it back. -/
theorem ofBytes_toBytes {w n : Nat} (hw : w = 8 * n) (v : BitVec w) : ofBytes w (toBytes n v) = v :=
  toBytes_injective hw.le (toBytes_ofBytes (length_toBytes n v) hw)

/-- The bytes of a value, read big-endian, are its number. -/
theorem uBE_toBytes {w n : Nat} (hw : w = 8 * n) (v : BitVec w) : uBE (toBytes n v) = v.toNat := by
  have hlt : uBE (toBytes n v) < 2 ^ w := by
    have h := uBE_lt (toBytes n v)
    rwa [length_toBytes, show (256 : Nat) = 2 ^ 8 from rfl, ← Nat.pow_mul, ← hw] at h
  calc uBE (toBytes n v)
    _ = (ofBytes w (toBytes n v)).toNat := by rw [ofBytes, BitVec.toNat_ofNat, Nat.mod_eq_of_lt hlt]
    _ = v.toNat := by rw [ofBytes_toBytes hw]

theorem toBytes_setCtr_eq_append (cb : Block) (c : Word) :
    toBytes 16 (setCtr cb c) = toBytes 12 (cbPrefix cb) ++ be32 c :=
  toBytes_append (n := 12) (m := 4) rfl (cbPrefix cb) c

theorem toBytes_counterBlock (cb : Block) : toBytes 16 cb = toBytes 12 (cbPrefix cb) ++ be32 (cbCtr cb) := by
  rw [← toBytes_setCtr_eq_append, setCtr_cbCtr]

theorem take_toBytes_counterBlock (cb : Block) : (toBytes 16 cb).take 12 = toBytes 12 (cbPrefix cb) := by
  rw [toBytes_counterBlock, List.take_left' (length_toBytes ..)]

theorem drop_toBytes_counterBlock (cb : Block) : (toBytes 16 cb).drop 12 = be32 (cbCtr cb) := by
  rw [toBytes_counterBlock, List.drop_left' (length_toBytes ..)]

/-- Setting the counter field replaces the last four bytes. -/
theorem toBytes_setCtr (cb : Block) (c : Word) : toBytes 16 (setCtr cb c) = (toBytes 16 cb).take 12 ++ be32 c := by
  rw [toBytes_setCtr_eq_append, take_toBytes_counterBlock]

/-- Settles O33: a counter block is its prefix and then its counter field, and so are its bytes. -/
theorem counterFieldIsTheLastFourBytes : Obligations.CounterFieldIsTheLastFourBytes := by
  unfold Obligations.CounterFieldIsTheLastFourBytes
  refine ⟨fun cb c => ⟨(take_toBytes_counterBlock cb).symm, ?ctr, toBytes_setCtr cb c, ?inc, cbPrefix_setCtr ..⟩,
    by decide⟩
  case ctr => rw [drop_toBytes_counterBlock, be32, uBE_toBytes rfl]
  case inc =>
    have hwrap : BitVec.ofNat 32 (((cbCtr cb).toNat + 1) % 2 ^ 32) = cbCtr cb + 1 := by
      apply BitVec.eq_of_toNat_eq
      simp
    rw [hwrap]
    exact toBytes_setCtr cb (cbCtr cb + 1)

/-! ### Commands on a slot -/

theorem State.hasSlot_eq_true {s : State} {n : BitVec 4} (h : n.toNat < s.cfg.nSessions) : s.hasSlot n = true :=
  decide_eq_true h

/-- R93: a command on a slot past `N_SESSIONS` ends with ERR_ILLEGAL_COMMAND. -/
theorem exec_of_nSessions_le {i : Instr} {n : BitVec 4} {s : State} (hi : i.slot? = some n)
    (h : s.cfg.nSessions ≤ n.toNat) : exec i s = .next (s.complete .illegalCommand) := by
  refine exec_of_not_wellFormed ?_
  rw [wellFormed_eq_hasSlot hi]
  exact decide_eq_false (Nat.not_lt.2 h)

theorem State.setSlot_sameSlotsBut (s : State) (n : BitVec 4) (x : Slot) : SameSlotsBut n s (s.setSlot n x) :=
  ⟨by simp, fun _ hj => State.setSlot_slot_other x hj⟩

/-! ### CTR_SET_COUNTER (R169) -/

theorem encode_ctrSetCounter (n : BitVec 4) : encode (.ctrSetCounter n) = 0x12#32 + n.setWidth 32 * 0x100#32 := by
  revert n
  decide

theorem exec_ctrSetCounter {n : BitVec 4} {s : State} (h : n.toNat < s.cfg.nSessions) :
    exec (.ctrSetCounter n) s =
      .next ((s.setSlot n { s.slot n with cb := setCtr (s.slot n).cb s.counter }).complete .ok) := by
  simp only [exec, execCtrSetCounter, State.hasSlot_eq_true h, require_true]

/-- Settles O36: the command writes one slot, whose counter block it gives the counter field ARG3. -/
theorem ctrSetCounterSetsTheCounterField : Obligations.CtrSetCounterSetsTheCounterField := by
  unfold Obligations.CtrSetCounterSetsTheCounterField
  refine fun n s => ⟨encode_ctrSetCounter n, fun hinv => ⟨fun hn => ?legal, exec_of_nSessions_le rfl⟩⟩
  case legal =>
    obtain ⟨-, hlen, -⟩ := hinv
    have hexec := exec_ctrSetCounter hn
    have hslot := State.setSlot_slot_same (s := s) (i := n)
      { s.slot n with cb := setCtr (s.slot n).cb s.counter } (by omega)
    refine ⟨_, hexec, ⟨rfl, rfl, rfl⟩, ?_, ?_, s.setSlot_sameSlotsBut n _, fun _ => rfl, rfl, rfl, rfl,
      exec_sameHostSide hexec⟩
    · rw [State.complete_slot, hslot]
      exact toBytes_setCtr ..
    · rw [State.complete_slot, hslot]

/-! ### CTR_ENCRYPT and CTR_DECRYPT (R166, R170, R171) -/

section

variable {i : Instr} {n : BitVec 4} {s : State}

/-- R171: the two commands are one function. -/
theorem exec_eq_ctrCommand (hi : i = .ctrEncrypt n ∨ i = .ctrDecrypt n) : exec i s = .next (ctrCommand n s) := by
  obtain rfl | rfl := hi <;> rfl

/-- V2 comes before the checks of the buffers and of the state (R166). -/
theorem ctrCommand_of_len_eq_zero (hn : n.toNat < s.cfg.nSessions) (hlen : s.len = 0) :
    ctrCommand n s = s.complete .ok := by
  rw [ctrCommand, State.hasSlot_eq_true hn, require_true, if_pos hlen]

/-- Past its checks a command of at least one byte runs the stream (R170). -/
theorem ctrCommand_of_checks (hn : n.toNat < s.cfg.nSessions) (hlen : 0 < s.len) (hbuf : ctrBuffers s = true)
    (hkey : (s.slot n).encValid = true) (harmed : s.bcArmed = true) : ctrCommand n s = ctrRun n s := by
  rw [ctrCommand, State.hasSlot_eq_true hn, require_true, if_neg (by omega), hbuf, require_true, hkey, harmed,
    Bool.and_self, require_true]

/-- A check whose code is not ERR_OK held, if the command ends with ERR_OK. -/
theorem eq_true_of_require_err_ok {ok : Bool} {e : ErrCode} {t : State} (he : e ≠ .ok)
    (h : (require ok e s t).err = .ok) : ok = true := by
  obtain ⟨hok, -⟩ | ⟨-, hend⟩ := require_cases ok e s t
  · exact hok
  · rw [hend] at h
    exact absurd h he

/-- A command of at least one byte that ends with ERR_OK passed its checks and ran the stream. -/
theorem ctrCommand_of_err_ok (hlen : 0 < s.len) (h : (ctrCommand n s).err = .ok) :
    ctrBuffers s = true ∧ ctrCommand n s = ctrRun n s := by
  unfold ctrCommand at h ⊢
  rw [if_neg (by omega)] at h ⊢
  have hslot := eq_true_of_require_err_ok (by decide) h
  rw [hslot, require_true] at h ⊢
  have hbuf := eq_true_of_require_err_ok (by decide) h
  rw [hbuf, require_true] at h ⊢
  have hready := eq_true_of_require_err_ok (by decide) h
  rw [hready]
  exact ⟨rfl, rfl⟩

/-- V4 of the two commands is the absence of the causes that R72 and R73 list. -/
theorem ctrBuffers_eq_true_iff (hi : i = .ctrEncrypt n ∨ i = .ctrDecrypt n) :
    ctrBuffers s = true ↔ ¬BufferCause i s := by
  have hin : inputsOf i s = [s.srcBuf] := by obtain rfl | rfl := hi <;> rfl
  have hout : outputOf i s = [s.dstBuf] := by obtain rfl | rfl := hi <;> rfl
  have hplace : mayRunInPlace i = true := by obtain rfl | rfl := hi <;> rfl
  simp only [BufferCause, hin, hout, hplace, ← Buf.overlaps_iff]
  cases hover : s.srcBuf.overlaps s.dstBuf
  · simp [ctrBuffers, Buf.inRange, Buf.inPlaceOrApart, hover]
  · simp [ctrBuffers, Buf.inRange, Buf.inPlaceOrApart, hover]

/-- With every request answered the stream ends with ERR_OK (R170). -/
theorem ctrRun_err_of_okFor (h : s.prim.okFor (blockCount s.len)) : (ctrRun n s).err = .ok := by
  have hlen : (s.readBuf s.srcBuf).length = s.len := s.length_readBuf s.srcBuf
  rw [← hlen] at h
  rw [ctrRun, ctrStream_of_okFor h]
  rfl

/-- The output of a stream that ended with ERR_OK reads back from DBUF (R170). -/
theorem readBuf_ctrRun (hs : s.Inv) (hbuf : ctrBuffers s = true) (hok : (ctrRun n s).err = .ok) :
    (ctrRun n s).readBuf s.dstBuf = ctrOf (s.slot n).encKey (s.slot n).cb (s.readBuf s.srcBuf) := by
  obtain ⟨-, -, -, -, hwf, -⟩ := hs
  have hrange : s.dstBuf.off + s.dstBuf.len ≤ s.cfg.bufBytes := by
    simp only [ctrBuffers, Bool.and_eq_true, Buf.inRange, decide_eq_true_eq] at hbuf
    obtain ⟨⟨-, hdst⟩, -⟩ := hbuf
    exact hdst
  obtain hdone | ⟨e, r, j, he, -, hfail⟩ := ctrRun_cases n s
  · have hlen : (ctrOf (s.slot n).encKey (s.slot n).cb (s.readBuf s.srcBuf)).length = s.dstBuf.len := by
      rw [length_ctrOf, State.length_readBuf]
      rfl
    have hread := Memory.readBytes_writeBytes_same hwf (hlen ▸ hrange)
    rw [hlen] at hread
    rw [hdone]
    exact hread
  · obtain rfl : e = .ok := by rwa [hfail] at hok
    exact absurd he (by decide)

end

/-- Settles O38: the length is checked after the slot and before everything else, and reserved bits are refused before
the arguments are looked at. -/
theorem zeroLengthCtrAlwaysSucceeds : Obligations.ZeroLengthCtrAlwaysSucceeds := by
  unfold Obligations.ZeroLengthCtrAlwaysSucceeds
  refine ⟨fun i n s hi ha => ⟨fun hn => ?legal, fun hn => ?illegal⟩,
    fun s hs hl _ _ hres => step_of_illegalWord hs hl (.inl hres)⟩
  case legal =>
    have hlen : s.len = 0 := by rw [State.len, ha]; rfl
    rw [exec_eq_ctrCommand hi, ctrCommand_of_len_eq_zero hn hlen]
    rfl
  case illegal =>
    have hslot : i.slot? = some n := by obtain rfl | rfl := hi <;> rfl
    exact exec_of_nSessions_le hslot hn

/-! ### The inverse (R177) -/

/-- XOR with the same keystream twice. -/
theorem ctrOf_ctrOf (key cb : Block) (x : List Byte) : ctrOf key cb (ctrOf key cb x) = x := by
  have hlong : x.length ≤ (keystream key cb (blockCount x.length)).length := by
    rw [length_keystream]
    exact le_blockCount x.length
  rw [ctrOf, length_ctrOf]
  exact xorBytes_xorBytes hlong

/-- The stream of an output, from the same counter block, gives the input, the same counter block and the same last
keystream block; the port is any that answers as often. -/
theorem ctrStream_inverse {key cb cb' : Block} {x y : List Byte} {ks : Option Block} {p p' q : PrimPort}
    (h : ctrStream key cb x p = .done y cb' ks p') (hq : q.okFor (blockCount x.length)) :
    ∃ q', ctrStream key cb y q = .done x cb' ks q' := by
  obtain ⟨rfl, rfl, rfl, -⟩ := ctrStream_done h
  have hlen := length_ctrOf key cb x
  have hback := ctrStream_of_okFor (key := key) (cb := cb) (hlen.symm ▸ hq)
  rw [ctrOf_ctrOf, hlen] at hback
  exact ⟨_, hback⟩

/-- Settles O39: both commands write `ctrOf` of their input under the same key and counter block, and `ctrOf` undoes
itself. -/
theorem ctrIsItsOwnInverse : Obligations.CtrIsItsOwnInverse := by
  unfold Obligations.CtrIsItsOwnInverse
  refine ⟨fun key cb x y cb' ks p p' q => ctrStream_inverse, ?command⟩
  intro n m s t u hs hu henc hok hm hlen hpos hbuf harmed hvalid hkey hcb hport hread
  have hulen : u.len = s.len := congrArg BitVec.toNat hlen
  have hupos : 0 < u.len := hulen.symm ▸ hpos
  obtain rfl : ctrCommand n s = t := by
    rw [exec_eq_ctrCommand (.inl rfl)] at henc
    exact Host.Outcome.next.inj henc
  obtain ⟨hsbuf, hrun⟩ := ctrCommand_of_err_ok hpos hok
  rw [hrun] at hok hread
  have hubuf := (ctrBuffers_eq_true_iff (.inr rfl)).2 hbuf
  have hvok : (ctrRun m u).err = .ok := ctrRun_err_of_okFor (hulen ▸ hport)
  have hinput : u.readBuf u.srcBuf = (ctrRun n s).readBuf s.dstBuf := by
    rw [State.readBuf, State.srcBuf, hulen]
    exact hread
  have houtput : (ctrRun m u).readBuf u.dstBuf = s.readBuf s.srcBuf :=
    calc (ctrRun m u).readBuf u.dstBuf
      _ = ctrOf (u.slot m).encKey (u.slot m).cb (u.readBuf u.srcBuf) := readBuf_ctrRun hu hubuf hvok
      _ = ctrOf (s.slot n).encKey (s.slot n).cb
            (ctrOf (s.slot n).encKey (s.slot n).cb (s.readBuf s.srcBuf)) := by
        rw [hkey, hcb, hinput, readBuf_ctrRun hs hsbuf hok]
      _ = s.readBuf s.srcBuf := ctrOf_ctrOf ..
  refine ⟨_, exec_eq_ctrCommand (.inr rfl), ?_⟩
  rw [ctrCommand_of_checks hm hupos hubuf hvalid harmed]
  rw [State.readBuf, State.dstBuf, hulen] at houtput
  exact ⟨hvok, houtput⟩

end Sys2Proof.Machine

/-! SUPPORT. The hash on given messages (43_sha256.md R196 to R203): a hash is one compression a padded block, and its
bytes, read as one number, are the eight chaining words side by side. -/

namespace Sys2Proof.Machine

/-! ### From blocks to a digest -/

/-- The chaining words side by side, `a` most significant. -/
def ChainValue.packed (v : ChainValue) : BitVec 256 :=
  v.a ++ v.b ++ v.c ++ v.d ++ v.e ++ v.f ++ v.g ++ v.h

theorem digest_eq_toBytes (v : ChainValue) : digest v = toBytes 32 v.packed := by
  simp only [ChainValue.packed, toBytes_append (n := 28) (m := 4) rfl, toBytes_append (n := 24) (m := 4) rfl,
    toBytes_append (n := 20) (m := 4) rfl, toBytes_append (n := 16) (m := 4) rfl,
    toBytes_append (n := 12) (m := 4) rfl, toBytes_append (n := 8) (m := 4) rfl,
    toBytes_append (n := 4) (m := 4) rfl, digest, be32]

/-- R200 by blocks: compressing a string cut into 64-byte blocks is compressing them one after the other. -/
theorem compressBlocks_flatten {bs : List (List Byte)} (h : ∀ b ∈ bs, b.length = 64) (v : ChainValue) :
    compressBlocks bs.length v bs.flatten = bs.foldl compress v := by
  induction bs generalizing v with
  | nil => rfl
  | cons b bs ih =>
    obtain ⟨hb, hbs⟩ := List.forall_mem_cons.1 h
    rw [List.length_cons, List.flatten_cons, compressBlocks, List.take_left' hb, List.drop_left' hb, ih hbs,
      List.foldl_cons]

/-- The hash of a message that pads to the 64-byte blocks `bs`, as a number. -/
theorem ofBytes_sha256 {m : List Byte} {bs : List (BitVec 512)} (hpad : pad m = (bs.map (toBytes 64)).flatten) :
    ofBytes 256 (sha256 m) = ((bs.map (toBytes 64)).foldl compress iv256).packed := by
  have hlen : ∀ b ∈ bs.map (toBytes 64), b.length = 64 := by simp
  have hcount : (pad m).length / 64 = (bs.map (toBytes 64)).length := by
    rw [hpad, List.length_flatten, List.map_map]
    simp [Function.comp_def]
  rw [sha256, hcount, hpad, compressBlocks_flatten hlen, digest_eq_toBytes,
    ofBytes_toBytes (n := 32) rfl]

/-! ### The reference messages (R203)

Each padded block is written as its bytes: message, `0x80`, zeros, and the bit count in the last eight. -/

/-- The one block of the empty message. -/
def emptyBlock : BitVec 512 := 0x80#8 ++ 0#504

/-- The one block of "abc", 24 bits long. -/
def abcBlock : BitVec 512 := 0x61626380#32 ++ 24#480

/-- The 56-byte FIPS message. -/
def fipsMessage : BitVec 448 :=
  0x6162636462636465636465666465666765666768666768696768696a68696a6b696a6b6c6a6b6c6d6b6c6d6e6c6d6e6f6d6e6f706e6f7071

/-- The first block of the FIPS message: no room is left in it for the bit count. -/
def fipsFirstBlock : BitVec 512 := fipsMessage ++ 0x8000000000000000#64

/-- The second block of the FIPS message: the count of its 448 bits alone. -/
def fipsSecondBlock : BitVec 512 := 448

/-- The chaining words between the two blocks of the FIPS message. -/
def fipsMiddle : ChainValue :=
  { a := 0x85e655d6, b := 0x417a1795, c := 0x3363376a, d := 0x624cde5c,
    e := 0x76e09589, f := 0xcac5f811, g := 0xcc4b32c1, h := 0xf20e533a }

theorem pad_empty : pad [] = ([emptyBlock].map (toBytes 64)).flatten := by
  decide +kernel

theorem pad_abc : pad [0x61, 0x62, 0x63] = ([abcBlock].map (toBytes 64)).flatten := by
  decide +kernel

theorem pad_fipsMessage :
    pad (toBytes 56 fipsMessage) = ([fipsFirstBlock, fipsSecondBlock].map (toBytes 64)).flatten := by
  decide +kernel

theorem compress_emptyBlock :
    (compress iv256 (toBytes 64 emptyBlock)).packed =
      0xe3b0c44298fc1c149afbf4c8996fb92427ae41e4649b934ca495991b7852b855 := by
  decide +kernel

theorem compress_abcBlock :
    (compress iv256 (toBytes 64 abcBlock)).packed =
      0xba7816bf8f01cfea414140de5dae2223b00361a396177a9cb410ff61f20015ad := by
  decide +kernel

theorem compress_fipsFirstBlock : compress iv256 (toBytes 64 fipsFirstBlock) = fipsMiddle := by
  decide +kernel

theorem compress_fipsSecondBlock :
    (compress fipsMiddle (toBytes 64 fipsSecondBlock)).packed =
      0x248d6a61d20638b8e5c026930c3e6039a33ce45964ff2167f6ecedd419db06c1 := by
  decide +kernel

/-! ### The statement -/

/-- Settles O42: compressing the padded blocks of each message in turn leaves the words of its digest. -/
theorem shaReferenceDigests : Obligations.ShaReferenceDigests := by
  unfold Obligations.ShaReferenceDigests
  refine ⟨?empty, ?abc, ?fips⟩
  case empty => exact (ofBytes_sha256 pad_empty).trans compress_emptyBlock
  case abc => exact (ofBytes_sha256 pad_abc).trans compress_abcBlock
  case fips =>
    calc ofBytes 256 (sha256 (toBytes 56 fipsMessage))
      _ = (([fipsFirstBlock, fipsSecondBlock].map (toBytes 64)).foldl compress iv256).packed :=
        ofBytes_sha256 pad_fipsMessage
      _ = (compress fipsMiddle (toBytes 64 fipsSecondBlock)).packed := by
        simp only [List.map, List.foldl, compress_fipsFirstBlock]
      _ = 0x248d6a61d20638b8e5c026930c3e6039a33ce45964ff2167f6ecedd419db06c1 := compress_fipsSecondBlock

end Sys2Proof.Machine

/-! SUPPORT. HKDF expansion (45_hkdf.md R242, R243): the number of blocks decides where the chain stops and not what a block
holds, so the chain of a shorter expansion is the start of the longer one's. -/

namespace Sys2Proof.Machine

/-- From the same iteration byte and the same last block, fewer blocks are the start of more. -/
theorem expandBlocks_isPrefix {n m : Nat} (h : n ≤ m) (prk info : List Byte) (i : Nat) (t : List Byte) :
    expandBlocks prk info n i t <+: expandBlocks prk info m i t := by
  induction n generalizing m i t with
  | zero => exact List.nil_prefix
  | succ n ih =>
    cases m with
    | zero => exact absurd h (Nat.not_succ_le_zero n)
    | succ m => exact (List.prefix_append_right_inj _).2 (ih (Nat.le_of_succ_le_succ h) _ _)

/-- R243; the bound on `l2` is not needed, for a chain of any length has this prefix. -/
theorem hkdfExpand_eq_take {l1 l2 : Nat} (h : l1 ≤ l2) (prk info : List Byte) :
    hkdfExpand prk info l1 = (hkdfExpand prk info l2).take l1 := by
  have hblocks : (l1 + 31) / 32 ≤ (l2 + 31) / 32 := Nat.div_le_div_right (Nat.add_le_add_right h 31)
  have henough : l1 ≤ (expandBlocks prk info ((l1 + 31) / 32) 1 []).length := by
    rw [length_expandBlocks]
    omega
  obtain ⟨rest, hchain⟩ := expandBlocks_isPrefix hblocks prk info 1 []
  rw [hkdfExpand, hkdfExpand, List.take_take, Nat.min_eq_left h, ← hchain, List.take_append_of_le_length henough]

/-- Settles O52: both expansions cut one chain, the shorter one earlier. -/
theorem shorterExpansionIsAPrefix : Obligations.ShorterExpansionIsAPrefix := by
  unfold Obligations.ShorterExpansionIsAPrefix
  intro prk info l1 l2 h _
  exact ⟨hkdfExpand_eq_take h prk info, length_hkdfExpand prk info l2⟩

end Sys2Proof.Machine

/-! SUPPORT. The payload codec (46_codec.md R264 to R273): the tag comparison is equality, OPEN from its checks to its
end, what SEAL leaves, and which command can end with which code. -/

namespace Sys2Proof.Machine

/-! ### The tag comparison (R264, R270) -/

/-- The OR of the byte differences onto an accumulator is zero when the accumulator is and no byte differs. -/
theorem foldl_or_xorBytes_eq_zero_iff {t r : List Byte} (h : t.length = r.length) (acc : Byte) :
    (xorBytes t r).foldl (· ||| ·) acc = 0 ↔ acc = 0 ∧ t = r := by
  induction t generalizing r acc with
  | nil =>
    obtain rfl : r = [] := List.length_eq_zero_iff.1 h.symm
    simp
  | cons a t ih =>
    cases r with
    | nil => cases h
    | cons b r =>
      have hstep := ih (Nat.succ.inj h) (acc ||| (a ^^^ b))
      simp only [xorBytes, List.zipWith_cons_cons, List.foldl_cons, List.cons.injEq] at hstep ⊢
      have hacc : acc ||| (a ^^^ b) = 0 ↔ acc = 0 ∧ a = b :=
        BitVec.or_eq_zero_iff.trans (and_congr_right' BitVec.xor_eq_zero_iff)
      rw [hstep, hacc, and_assoc]

/-- R270: without an early exit, the comparison of two strings of one length is still equality. -/
theorem ctEq_eq_true_iff {t r : List Byte} (h : t.length = r.length) : ctEq t r = true ↔ t = r := by
  rw [ctEq, beq_iff_eq, foldl_or_xorBytes_eq_zero_iff h]
  simp

theorem wireCounter_eq_encCtr (p : Params) (c : Word) : wireCounter p c = encCtr p.wireOrder c := by
  cases h : p.wireOrder <;> simp [wireCounter, encCtr, h, be32, le32]

theorem payloadTag_eq_take_hmac (p : Params) (k : AuthKey) (ct : List Byte) (c : Word) :
    payloadTag p k ct c = (hmac (toBytes 32 k) (ct ++ wireCounter p c)).take p.tagLen := by
  rw [wireCounter_eq_encCtr]
  rfl

theorem length_payloadTag {p : Params} (h : p.tagLen ≤ 32) (k : AuthKey) (ct : List Byte) (c : Word) :
    (payloadTag p k ct c).length = p.tagLen := by
  rw [payloadTag, List.length_take, length_hmacAuth, Nat.min_eq_left h]

/-! ### The invariant -/

theorem State.Inv.tagLen_le {s : State} (hs : s.Inv) : s.cfg.tagLen ≤ 32 := by
  obtain ⟨⟨-, ⟨-, htagLen⟩, -⟩, -⟩ := hs
  exact htagLen

theorem State.Inv.lt_length_slots {s : State} (hs : s.Inv) {n : BitVec 4} (hn : n.toNat < s.cfg.nSessions) :
    n.toNat < s.slots.length := by
  obtain ⟨-, hslots, -⟩ := hs
  exact hslots ▸ hn

/-! ### Buffers -/

theorem Memory.readBytes_add (m : Memory) (a n k : Nat) :
    m.readBytes a (n + k) = m.readBytes a n ++ m.readBytes (a + n) k := by
  simp [Memory.readBytes, List.range_add, Nat.add_assoc]

/-- Read after write, for a buffer in range. -/
theorem State.readBuf_writeBuf_same {s : State} (hs : s.Inv) {b : Buf} {bs : List Byte}
    (hrange : b.inRange s.cfg = true) (hlen : bs.length = b.len) : (s.writeBuf b bs).readBuf b = bs := by
  obtain ⟨-, -, -, -, hwf, -⟩ := hs
  have hfits : b.off + bs.length ≤ s.cfg.bufBytes := hlen ▸ of_decide_eq_true hrange
  rw [State.readBuf, ← hlen]
  exact Memory.readBytes_writeBytes_same hwf hfits

/-! ### OPEN (R268) -/

section

variable {n : BitVec 4} {s : State}

/-- V4 of OPEN is the absence of the causes that R72 and R73 list. -/
theorem openBuffers_eq_true_iff : openBuffers s = true ↔ ¬BufferCause (.openPayload n) s := by
  have hin : inputsOf (.openPayload n) s = [s.srcBuf, s.tagBuf] := rfl
  have hout : outputOf (.openPayload n) s = [s.dstBuf] := rfl
  have hplace : mayRunInPlace (.openPayload n) = true := rfl
  have hplaced : s.srcBuf.inPlaceOrApart s.dstBuf = true ↔
      (s.srcBuf.overlaps s.dstBuf = true → s.srcBuf.off = s.dstBuf.off) := by
    simp [Buf.inPlaceOrApart, or_iff_not_imp_right]
  simp [openBuffers, BufferCause, hin, hout, hplace, ← Buf.overlaps_iff, s.dstBuf.overlaps_comm, Buf.inRange, hplaced,
    and_assoc, and_left_comm]

/-- V5 of OPEN is the absence of the causes that R295 lists. -/
theorem codecReady_eq_true_iff : codecReady n s = true ↔ ¬StateCause (.openPayload n) s := by
  have harmed : (decide (s.len = 0) || s.bcArmed) = true ↔ (0 < s.len → s.bcArmed = true) := by
    rw [Bool.or_eq_true, decide_eq_true_eq, or_iff_not_imp_left, Nat.pos_iff_ne_zero]
  rw [codecReady, Bool.and_eq_true, Bool.and_eq_true, harmed]
  simp [StateCause, State.len, and_assoc]

/-- The comparison of OPEN holds when the received tag is the recomputed one. -/
theorem tagMatches_eq_true_iff (h : s.cfg.tagLen ≤ 32) :
    tagMatches n s = true ↔ payloadTag s.cfg (s.slot n).authKey (s.readBuf s.srcBuf) s.counter = s.readBuf s.tagBuf :=
  ctEq_eq_true_iff (by rw [length_payloadTag h, State.length_readBuf]; rfl)

/-- The comparison of OPEN fails exactly for the cause that R268 gives. -/
theorem tagMatches_eq_true_iff_not_tagCause (h : s.cfg.tagLen ≤ 32) :
    tagMatches n s = true ↔ ¬TagCause (.openPayload n) s := by
  rw [tagMatches_eq_true_iff h, payloadTag_eq_take_hmac, eq_comm]
  exact not_not.symm

theorem exec_openPayload (hn : n.toNat < s.cfg.nSessions) (hbuf : openBuffers s = true)
    (hready : codecReady n s = true) : exec (.openPayload n) s = .next (openRun n s) := by
  simp only [exec, execOpenPayload, State.hasSlot_eq_true hn, hbuf, hready, require_true]

theorem openRun_of_not_tagMatches (h : tagMatches n s = false) :
    openRun n s = { s with hctx := .idle }.complete .authFailure := by
  simp [openRun, h]

/-- With tags that match and every request answered, OPEN decrypts and the slot advances. -/
theorem openRun_of_okFor (htag : tagMatches n s = true) (hport : s.prim.okFor (blockCount s.len)) :
    let x := s.slot n
    let cb := setCtr x.cb s.counter
    openRun n s =
      (({ s with prim := s.prim.afterBlocks x.encKey cb (blockCount s.len), hctx := .idle }.writeBuf s.dstBuf
        (ctrOf x.encKey cb (s.readBuf s.srcBuf))).setSlot n (x.afterCtr cb s.len)).complete .ok := by
  intro x cb
  have hlen : (s.readBuf s.srcBuf).length = s.len := s.length_readBuf s.srcBuf
  have hstream := ctrStream_of_okFor (key := x.encKey) (cb := cb) (hlen.symm ▸ hport)
  rw [hlen] at hstream
  rw [openRun, if_pos htag, openDecrypt, codecStream, hstream]
  simp only [Slot.advance_eq, x]

/-- An OPEN whose tags match and whose requests are all answered writes the plaintext and leaves its slot past the
message. -/
theorem exec_openPayload_of_okFor (hs : s.Inv) (hn : n.toNat < s.cfg.nSessions) (hbuf : openBuffers s = true)
    (hready : codecReady n s = true) (htag : tagMatches n s = true) (hport : s.prim.okFor (blockCount s.len)) :
    let x := s.slot n
    let cb := setCtr x.cb s.counter
    ∃ t, exec (.openPayload n) s = .next t ∧ t.err = .ok ∧
      t.readBuf s.dstBuf = ctrOf x.encKey cb (s.readBuf s.srcBuf) ∧ t.slot n = x.afterCtr cb s.len := by
  intro x cb
  have hrange : s.dstBuf.inRange s.cfg = true := by
    simp only [openBuffers, Bool.and_eq_true] at hbuf
    obtain ⟨⟨⟨⟨-, hrange⟩, -⟩, -⟩, -⟩ := hbuf
    exact hrange
  have hlen : (ctrOf x.encKey cb (s.readBuf s.srcBuf)).length = s.dstBuf.len := by
    rw [length_ctrOf, State.length_readBuf]
    rfl
  refine ⟨_, exec_openPayload hn hbuf hready, ?_⟩
  rw [openRun_of_okFor htag hport]
  exact ⟨rfl, State.readBuf_writeBuf_same hs hrange hlen, State.setSlot_slot_same _ (hs.lt_length_slots hn)⟩

/-- An OPEN that changes the port or DBUF passed its checks and the comparison. -/
theorem tagMatches_of_exec_changes {t : State} (h : exec (.openPayload n) s = .next t)
    (hchange : t.prim ≠ s.prim ∨ ¬SameDbuf s t) : tagMatches n s = true := by
  by_contra hne
  rw [Bool.not_eq_true] at hne
  obtain ⟨e, -, hfail⟩ | ⟨u, -, hrun, rfl⟩ := exec_cases (.openPayload n) s
  · obtain rfl := Host.Outcome.next.inj (hfail.symm.trans h)
    exact hchange.elim (absurd rfl) (absurd fun _ => rfl)
  · obtain rfl := Host.Outcome.next.inj (hrun.symm.trans h)
    rw [openRun_of_not_tagMatches hne] at hchange
    exact hchange.elim (absurd rfl) (absurd fun _ => rfl)

end

/-! ### The codes commands end with (R291, R292) -/

theorem exists_mem_of_firstFailure {l : List (Bool × ErrCode)} {e : ErrCode} (h : firstFailure l = some e) :
    ∃ c ∈ l, c.2 = e := by
  obtain ⟨c, hfind, rfl⟩ := Option.map_eq_some_iff.1 h
  exact ⟨c, List.mem_of_find?_eq_some hfind, rfl⟩

theorem check_of_firstFailure_eq_none {l : List (Bool × ErrCode)} (h : firstFailure l = none) {c : Bool × ErrCode}
    (hc : c ∈ l) : c.1 = true := by
  have hpass := List.find?_eq_none.1 (Option.map_eq_none_iff.1 h) c hc
  simpa using hpass

/-- A check that fails ends the command with a validation error. -/
theorem checkCode_of_firstFailure {i : Instr} {s : State} {e : ErrCode} (h : firstFailure (checksOf i s) = some e) :
    CheckCode e := by
  obtain ⟨c, hmem, rfl⟩ := exists_mem_of_firstFailure h
  revert c
  cases i <;> simp [checksOf, CheckCode]

/-- The codes of a command that got past its checks, but for the tag comparison: success, or a failed request. -/
abbrev RunCode (e : ErrCode) : Prop := e = .ok ∨ PrimCode e

theorem bcInitRequest_runCode (s : State) : RunCode (bcInitRequest s).err := by
  rcases bcInitRequest_cases s with ⟨-, h⟩ | ⟨-, h⟩ | ⟨-, h⟩ <;> simp [RunCode, PrimCode, h]

theorem bcEncryptRun_runCode (x : Slot) (s : State) : RunCode (bcEncryptRun x s).err := by
  obtain ⟨-, h⟩ | ⟨e, he, -, h⟩ := bcEncryptRun_cases x s
  · exact .inl (by simp [h])
  · exact .inr (by simpa [h] using he)

theorem ctrRun_runCode (n : BitVec 4) (s : State) : RunCode (ctrRun n s).err := by
  obtain h | ⟨e, r, j, he, -, h⟩ := ctrRun_cases n s
  · exact .inl (by simp [h])
  · exact .inr (by simpa [h] using he)

theorem sealRun_runCode (n : BitVec 4) (s : State) : RunCode (sealRun n s).err := by
  obtain h | ⟨e, r, j, he, -, h⟩ := sealRun_cases n s
  · exact .inl (by simp [h])
  · exact .inr (by simpa [h] using he)

theorem openRun_runCode {n : BitVec 4} {s : State} (htag : tagMatches n s = true) : RunCode (openRun n s).err := by
  obtain ⟨hne, -⟩ | ⟨-, h⟩ | ⟨e, r, j, he, -, -, h⟩ := openRun_cases n s
  · exact absurd (htag.symm.trans hne) (by decide)
  · exact .inl (by simp [h])
  · exact .inr (by simpa [h] using he)

theorem hmacUpdateRun_runCode {s : State} (hctx : s.hctx ≠ .idle) : RunCode (hmacUpdateRun s).err := by
  obtain ⟨hidle, -⟩ | ⟨k0, m, -, h⟩ := hmacUpdateRun_cases s
  · exact absurd hidle hctx
  · exact .inl (by simp [h])

theorem hmacFinalRun_runCode {s : State} (hctx : s.hctx ≠ .idle) : RunCode (hmacFinalRun s).err := by
  obtain ⟨hidle, -⟩ | ⟨k0, m, -, h⟩ := hmacFinalRun_cases s
  · exact absurd hidle hctx
  · exact .inl (by simp [h])

/-- Past its checks a command succeeds or a request fails, but for an OPEN whose tags differ. -/
theorem Ran.runCode_or_tagMismatch {i : Instr} {s t : State} (h : Ran i s t) :
    RunCode t.err ∨ (∃ n, i = .openPayload n) ∧ t = { s with hctx := .idle }.complete .authFailure := by
  cases i with
  | openPayload n =>
    obtain rfl : t = openRun n s := h
    cases htag : tagMatches n s with
    | true => exact .inl (openRun_runCode htag)
    | false => exact .inr ⟨⟨n, rfl⟩, openRun_of_not_tagMatches htag⟩
  | bcInit =>
    obtain ⟨-, rfl⟩ | ⟨-, rfl⟩ := h
    · exact .inl (.inl rfl)
    · exact .inl (bcInitRequest_runCode s)
  | bcEncryptBlock n => exact .inl (h ▸ bcEncryptRun_runCode _ s)
  | ctrEncrypt n | ctrDecrypt n =>
    obtain ⟨-, rfl⟩ | ⟨-, rfl⟩ := h
    · exact .inl (.inl rfl)
    · exact .inl (ctrRun_runCode n s)
  | hmacUpdate =>
    obtain ⟨hctx, rfl⟩ := h
    exact .inl (hmacUpdateRun_runCode hctx)
  | hmacFinal =>
    obtain ⟨hctx, rfl⟩ := h
    exact .inl (hmacFinalRun_runCode hctx)
  | sealPayload n => exact .inl (h ▸ sealRun_runCode n s)
  | nop | ctrSetKey _ | ctrSetIv _ | ctrSetCounter _ | ctrGetState _ | hmacInit | hkdfExtract | hkdfExpand
  | sessionLoad _ | sessionClear _ => exact .inl (.inl (congrArg State.err h))

/-- R271: ERR_AUTH_FAILURE is only ever OPEN's, and has no other effect but to end a context. -/
theorem exec_err_authFailure {i : Instr} {s t : State} (h : exec i s = .next t) (herr : t.err = .authFailure) :
    (∃ n, i = .openPayload n) ∧ t = { s with hctx := .idle }.complete .authFailure := by
  obtain ⟨e, hfirst, hfail⟩ | ⟨u, -, hrun, hran⟩ := exec_cases i s
  · obtain rfl := Host.Outcome.next.inj (hfail.symm.trans h)
    obtain rfl : e = .authFailure := herr
    exact absurd (checkCode_of_firstFailure hfirst) (by decide)
  · obtain rfl := Host.Outcome.next.inj (hrun.symm.trans h)
    obtain hcode | hopen := hran.runCode_or_tagMismatch
    · rw [herr] at hcode
      exact absurd hcode (by decide)
    · exact hopen

/-- Settles O57: OPEN compares before it decrypts, and no check or request ends with the code of the comparison. -/
theorem tagMismatchChangesNothing : Obligations.TagMismatchChangesNothing := by
  unfold Obligations.TagMismatchChangesNothing
  refine ⟨fun n s hs => ?openPayload, fun i s t => exec_err_authFailure⟩
  have hmatch := tagMatches_eq_true_iff_not_tagCause (n := n) hs.tagLen_le
  refine ⟨fun hn hbuf hstate (hne : TagCause (.openPayload n) s) => ?differ, fun t hexec hchange => ?changed⟩
  case differ =>
    have hfalse : tagMatches n s = false := by
      rw [← Bool.not_eq_true, hmatch, not_not]
      exact hne
    rw [exec_openPayload hn (openBuffers_eq_true_iff.2 hbuf) (codecReady_eq_true_iff.2 hstate),
      openRun_of_not_tagMatches hfalse]
    rfl
  case changed =>
    exact not_not.1 (hmatch.1 (tagMatches_of_exec_changes hexec hchange))

/-! ### OPEN of what SEAL wrote (R273) -/

/-- Of the old counter block, setting the counter field keeps only bytes 0 to 11 (R163). -/
theorem setCtr_congr {cb cb' : Block} (h : cbPrefix cb = cbPrefix cb') (c : Word) : setCtr cb c = setCtr cb' c := by
  rw [setCtr, h, setCtr]

/-- A slot that runs a message from counter `c` ends with `c` plus the number of blocks (R165). -/
theorem cbCtr_afterCtr_setCtr (x : Slot) (cb : Block) (c : Word) (n : Nat) :
    cbCtr (x.afterCtr (setCtr cb c) n).cb = c + BitVec.ofNat 32 (blockCount n) := by
  rw [Slot.afterCtr, incBy, cbCtr_setCtr, cbCtr_setCtr]

/-- The ciphertext and the tag in a payload that stands in DBUF (R256). -/
theorem readBytes_of_payload {m : Memory} {a : Nat} {p : Params} {k : AuthKey} {ct : List Byte} {c : Word}
    {n : Nat} (hlen : ct.length = n) (h : m.readBytes a (n + 4 + p.tagLen) = payload p k ct c) :
    m.readBytes a n = ct ∧ m.readBytes (a + n + 4) p.tagLen = payloadTag p k ct c := by
  rw [payload, Memory.readBytes_add, Memory.readBytes_add] at h
  obtain ⟨hleft, htag⟩ := List.append_inj h (by simp [hlen])
  obtain ⟨hct, -⟩ := List.append_inj hleft (by simp [hlen])
  exact ⟨hct, htag⟩

/-- A SEAL that ends with ERR_OK left its payload in DBUF and its slot past the message (R263). -/
theorem exec_sealPayload_ok {n : BitVec 4} {s t : State} (hs : s.Inv) (h : exec (.sealPayload n) s = .next t)
    (hok : t.err = .ok) :
    let x := s.slot n
    let cb := setCtr x.cb s.counter
    t.readBuf s.payloadBuf = payload s.cfg x.authKey (ctrOf x.encKey cb (s.readBuf s.srcBuf)) s.counter ∧
      t.slot n = x.afterCtr cb s.len := by
  intro x cb
  obtain ⟨e, hfirst, hfail⟩ | ⟨u, hpass, hrun, rfl⟩ := exec_cases (.sealPayload n) s
  · obtain rfl := Host.Outcome.next.inj (hfail.symm.trans h)
    obtain rfl : e = .ok := hok
    exact absurd (checkCode_of_firstFailure hfirst) (by decide)
  obtain rfl := Host.Outcome.next.inj (hrun.symm.trans h)
  have hn : n.toNat < s.cfg.nSessions :=
    of_decide_eq_true (check_of_firstFailure_eq_none hpass (c := (s.hasSlot n, _)) (.head _))
  have hbuf : sealBuffers s = true :=
    check_of_firstFailure_eq_none hpass (c := (sealBuffers s, _)) (.tail _ (.head _))
  obtain hdone | ⟨e, r, j, he, -, hfail⟩ := sealRun_cases n s
  · have hrange : s.payloadBuf.inRange s.cfg = true := by
      rw [sealBuffers, Bool.and_eq_true, Bool.and_eq_true] at hbuf
      obtain ⟨⟨-, hrange⟩, -⟩ := hbuf
      exact hrange
    have hlen : (payload s.cfg x.authKey (ctrOf x.encKey cb (s.readBuf s.srcBuf)) s.counter).length =
        s.payloadBuf.len := by
      rw [length_payload hs.tagLen_le, length_ctrOf, State.length_readBuf]
      rfl
    rw [hdone]
    exact ⟨State.readBuf_writeBuf_same hs hrange hlen, State.setSlot_slot_same _ (hs.lt_length_slots hn)⟩
  · obtain rfl : e = .ok := by rwa [hfail] at hok
    exact absurd he (by decide)

/-- Settles O59: OPEN runs the stream of SEAL from the same counter block over its output, and `ctrOf` undoes itself. -/
theorem openUndoesSeal : Obligations.OpenUndoesSeal := by
  unfold Obligations.OpenUndoesSeal
  intro n m s t u hs hu hseal hok hcfg hm harmed henc hauth hkey hauthKey hprefix hlen hctr hbuf hct htag hport
  obtain ⟨hpayload, hslot⟩ := exec_sealPayload_ok hs hseal hok
  have hulen : u.len = s.len := congrArg BitVec.toNat hlen
  have hcounter : u.counter = s.counter := hctr
  have hcb : setCtr (u.slot m).cb u.counter = setCtr (s.slot n).cb s.counter := by
    rw [hcounter, setCtr_congr hprefix]
  have hctlen : (ctrOf (s.slot n).encKey (setCtr (s.slot n).cb s.counter) (s.readBuf s.srcBuf)).length = s.len := by
    rw [length_ctrOf, State.length_readBuf]
    rfl
  obtain ⟨hsealedCt, hsealedTag⟩ := readBytes_of_payload hctlen hpayload
  have hinput : u.readBuf u.srcBuf =
      ctrOf (s.slot n).encKey (setCtr (s.slot n).cb s.counter) (s.readBuf s.srcBuf) := by
    rw [State.readBuf, State.srcBuf, hulen]
    exact hct.trans hsealedCt
  have htags : tagMatches m u = true := by
    rw [tagMatches_eq_true_iff hu.tagLen_le, hinput, hauthKey, hcounter, State.readBuf, State.tagBuf, hcfg]
    exact (htag.trans hsealedTag).symm
  have hready : codecReady m u = true := by
    rw [codecReady, henc, hauth, harmed, Bool.or_true]
    rfl
  obtain ⟨v, hopen, hvok, houtput, hvslot⟩ :=
    exec_openPayload_of_okFor hu hm (openBuffers_eq_true_iff.2 hbuf) hready htags (hulen.symm ▸ hport)
  rw [hkey, hcb, hinput, ctrOf_ctrOf, State.readBuf, State.dstBuf, hulen] at houtput
  have hsctr : cbCtr (t.slot n).cb = s.counter + BitVec.ofNat 32 (blockCount s.len) := by
    rw [hslot, cbCtr_afterCtr_setCtr]
  have hvctr : cbCtr (v.slot m).cb = s.counter + BitVec.ofNat 32 (blockCount s.len) := by
    rw [hvslot, hcb, hulen, cbCtr_afterCtr_setCtr]
  exact ⟨v, hopen, hvok, houtput, hsctr, hvctr.trans hsctr.symm⟩

end Sys2Proof.Machine

/-! SUPPORT. What a validation error leaves (60_exceptions.md R296): no command that got past its checks ends with the
code of one, so a command that does ended at a check. -/

namespace Sys2Proof.Machine

theorem RunCode.not_checkCode {e : ErrCode} (h : RunCode e) : ¬CheckCode e := by
  obtain rfl | rfl | rfl := h <;> decide

/-- Past its checks a command succeeds, a request fails, or OPEN's tags differ; none of these is a validation error. -/
theorem Ran.not_checkCode {i : Instr} {s t : State} (h : Ran i s t) : ¬CheckCode t.err := by
  obtain hcode | ⟨-, rfl⟩ := h.runCode_or_tagMismatch
  · exact hcode.not_checkCode
  · rw [State.complete_err]
    decide

/-- R296: a command that ends with a validation error ended at one of its checks, which only completes it. -/
theorem exec_err_checkCode {i : Instr} {s t : State} (h : exec i s = .next t) (hcode : CheckCode t.err) :
    t = s.complete t.err := by
  obtain ⟨e, -, hfail⟩ | ⟨u, -, hrun, hran⟩ := exec_cases i s
  · obtain rfl := Host.Outcome.next.inj (hfail.symm.trans h)
    rw [State.complete_err]
  · obtain rfl := Host.Outcome.next.inj (hrun.symm.trans h)
    exact absurd hcode hran.not_checkCode

/-- Settles O14: by the case split on where the command ended, at a check or past all of them. -/
theorem validationErrorsChangeOnlyStatus : Obligations.ValidationErrorsChangeOnlyStatus := by
  unfold Obligations.ValidationErrorsChangeOnlyStatus
  intro i s t hexec herr
  have hcode : CheckCode t.err := by
    obtain h | h | h | h := herr <;> simp [CheckCode, h]
  exact exec_err_checkCode hexec hcode

end Sys2Proof.Machine

/-! SUPPORT. The encoder against the decoder (30_encoding.md R91, R97, R100): the command of a row is encoded by its opcode
and its SLOT, and the row selects that word and no other. -/

namespace Sys2Proof

/-! ### The fields of an encoded word (R91) -/

theorem cmdWord_fields (op : BitVec 8) (n : BitVec 4) :
    res0Field (cmdWord op n) = 0 ∧ slotField (cmdWord op n) = n ∧ opField (cmdWord op n) = op := by
  refine ⟨?_, ?_, BitVec.extractLsb'_append_eq_right⟩
  · exact (BitVec.extractLsb'_append_eq_of_le (by decide)).trans
      ((BitVec.extractLsb'_append_eq_of_le (by decide)).trans BitVec.extractLsb'_eq_self)
  · exact (BitVec.extractLsb'_append_eq_of_le (by decide)).trans BitVec.extractLsb'_append_eq_right

/-- The SLOT a row's command word carries: the operand, or 0 where the command takes none (R93). -/
def OpRow.slotOf (r : OpRow) (n : BitVec 4) : BitVec 4 := if r.slotted then n else 0

@[simp] theorem OpRow.slotOf_slotOf (r : OpRow) (n : BitVec 4) : r.slotOf (r.slotOf n) = r.slotOf n := by
  cases h : r.slotted <;> simp [OpRow.slotOf, h]

/-- A row selects the words made of its opcode and a SLOT it allows, and no others. -/
theorem OpRow.selects_iff_eq_cmdWord {r : OpRow} {w : Word} :
    r.selects w = true ↔ w = cmdWord r.op (r.slotOf (slotField w)) := by
  obtain ⟨hres, hslot, hop⟩ := cmdWord_fields r.op (r.slotOf (slotField w))
  rw [OpRow.selects_iff, word_ext_iff, hres, hslot, hop, OpRow.slotOf]
  cases r.slotted <;> simp

/-! ### Commands and rows (R97) -/

theorem encode_build {r : OpRow} (hr : r ∈ opTable) (n : BitVec 4) :
    encode (r.build n) = cmdWord r.op (r.slotOf n) := by
  have all : ∀ q ∈ opTable, encode (q.build n) = cmdWord q.op (q.slotOf n) := by
    simp [opTable, encode, OpRow.slotOf]
  exact all r hr

/-- A row's command depends on the operand only as far as its word carries it. -/
theorem build_slotOf {r : OpRow} (hr : r ∈ opTable) (n : BitVec 4) : r.build (r.slotOf n) = r.build n := by
  have all : ∀ q ∈ opTable, q.build (q.slotOf n) = q.build n := by
    simp [opTable, OpRow.slotOf]
  exact all r hr

/-- Every command stands in the table. -/
theorem exists_row (i : Instr) : ∃ r ∈ opTable, ∃ n, r.build n = i := by
  cases i with
  | nop | bcInit | hmacInit | hmacUpdate | hmacFinal | hkdfExtract | hkdfExpand => simp [opTable]
  | bcEncryptBlock n | ctrSetKey n | ctrSetIv n | ctrSetCounter n | ctrEncrypt n | ctrDecrypt n | ctrGetState n
  | sessionLoad n | sessionClear n | sealPayload n | openPayload n => simp [opTable]

/-! ### The round trips -/

theorem decode_encode (i : Instr) : decode (encode i) = .ok i := by
  obtain ⟨r, hr, n, rfl⟩ := exists_row i
  obtain ⟨-, hslot, -⟩ := cmdWord_fields r.op (r.slotOf n)
  have hsel : r.selects (cmdWord r.op (r.slotOf n)) = true := by
    rw [OpRow.selects_iff_eq_cmdWord, hslot, OpRow.slotOf_slotOf]
  rw [encode_build hr, decode_of_selects hr hsel, hslot, build_slotOf hr]

theorem encode_of_decode_eq_ok {w : Word} {i : Instr} (h : decode w = .ok i) : encode i = w := by
  obtain ⟨r, hr, hsel, rfl⟩ := decode_eq_ok_iff.1 h
  rw [encode_build hr]
  exact (OpRow.selects_iff_eq_cmdWord.1 hsel).symm

/-- Settles O1: a command and its word determine the same row and the same SLOT. -/
theorem decodeAndEncodeAgree : Obligations.DecodeAndEncodeAgree := by
  unfold Obligations.DecodeAndEncodeAgree
  exact ⟨decode_encode, fun _ _ => encode_of_decode_eq_ok⟩

/-! ### Sample words -/

/-- Settles O3: a legal word is the encoding of its command, and an illegal one is refused by the model's own name. -/
theorem commandWordsOfEachFamilyDecode : Obligations.CommandWordsOfEachFamilyDecode := by
  unfold Obligations.CommandWordsOfEachFamilyDecode
  exact ⟨decode_encode .nop, decode_encode .bcInit, decode_encode (.bcEncryptBlock 1), decode_encode (.ctrEncrypt 15),
    decode_encode .hmacUpdate, decode_encode .hkdfExpand, decode_encode (.sealPayload 1),
    decode_encode (.openPayload 0), by decide, by decide, by decide⟩

end Sys2Proof

/-! SUPPORT. The command cycle and reset (40_command_cycle.md R127 to R131, 70_reset_and_hazards.md R321): every command
ends in a completion and makes a bounded number of requests, every step answers, and what a reset leaves. -/

namespace Sys2Proof.Machine

/-! ### Every command ends in a completion (R127) -/

/-- The state is what a completion leaves of some state. -/
abbrev Completes (t : State) : Prop := ∃ (u : State) (e : ErrCode), t = u.complete e

theorem bcInitRequest_completes (s : State) : Completes (bcInitRequest s) := by
  obtain ⟨-, h⟩ | ⟨-, h⟩ | ⟨-, h⟩ := bcInitRequest_cases s <;> exact ⟨_, _, h⟩

theorem bcEncryptRun_completes (x : Slot) (s : State) : Completes (bcEncryptRun x s) := by
  obtain ⟨-, h⟩ | ⟨e, -, -, h⟩ := bcEncryptRun_cases x s <;> exact ⟨_, _, h⟩

theorem ctrRun_completes (n : BitVec 4) (s : State) : Completes (ctrRun n s) := by
  obtain h | ⟨e, r, j, -, -, h⟩ := ctrRun_cases n s <;> exact ⟨_, _, h⟩

theorem hmacUpdateRun_completes (s : State) : Completes (hmacUpdateRun s) := by
  obtain ⟨-, h⟩ | ⟨k0, m, -, h⟩ := hmacUpdateRun_cases s <;> exact ⟨_, _, h⟩

theorem hmacFinalRun_completes (s : State) : Completes (hmacFinalRun s) := by
  obtain ⟨-, h⟩ | ⟨k0, m, -, h⟩ := hmacFinalRun_cases s <;> exact ⟨_, _, h⟩

theorem sealRun_completes (n : BitVec 4) (s : State) : Completes (sealRun n s) := by
  obtain h | ⟨e, r, j, -, -, h⟩ := sealRun_cases n s <;> exact ⟨_, _, h⟩

theorem openRun_completes (n : BitVec 4) (s : State) : Completes (openRun n s) := by
  obtain ⟨-, h⟩ | ⟨-, h⟩ | ⟨e, r, j, -, -, -, h⟩ := openRun_cases n s <;> exact ⟨_, _, h⟩

theorem Ran.completes {i : Instr} {s t : State} (h : Ran i s t) : Completes t := by
  cases i with
  | bcInit =>
    obtain ⟨-, rfl⟩ | ⟨-, rfl⟩ := h
    · exact ⟨s, .ok, rfl⟩
    · exact bcInitRequest_completes s
  | bcEncryptBlock n => exact h ▸ bcEncryptRun_completes _ s
  | ctrEncrypt n | ctrDecrypt n =>
    obtain ⟨-, rfl⟩ | ⟨-, rfl⟩ := h
    · exact ⟨s, .ok, rfl⟩
    · exact ctrRun_completes n s
  | hmacUpdate =>
    obtain ⟨-, rfl⟩ := h
    exact hmacUpdateRun_completes s
  | hmacFinal =>
    obtain ⟨-, rfl⟩ := h
    exact hmacFinalRun_completes s
  | sealPayload n => exact h ▸ sealRun_completes n s
  | openPayload n => exact h ▸ openRun_completes n s
  | nop | ctrSetKey _ | ctrSetIv _ | ctrSetCounter _ | ctrGetState _ | hmacInit | hkdfExtract | hkdfExpand
  | sessionLoad _ | sessionClear _ => exact ⟨_, _, h⟩

theorem exec_completes {i : Instr} {s t : State} (h : exec i s = .next t) : Completes t := by
  obtain ⟨e, -, hfail⟩ | ⟨u, -, hrun, hran⟩ := exec_cases i s
  · exact ⟨s, e, (Host.Outcome.next.inj (hfail.symm.trans h)).symm⟩
  · obtain rfl := Host.Outcome.next.inj (hrun.symm.trans h)
    exact hran.completes

theorem exec_done_idle {i : Instr} {s t : State} (h : exec i s = .next t) : t.done = true ∧ t.seq = .idle := by
  obtain ⟨u, e, rfl⟩ := exec_completes h
  exact ⟨rfl, rfl⟩

/-- No command faults and none is refused. -/
theorem exec_answers (i : Instr) (s : State) : ∃ t, exec i s = .next t := by
  obtain ⟨e, -, hfail⟩ | ⟨t, -, hrun, -⟩ := exec_cases i s
  · exact ⟨_, hfail⟩
  · exact ⟨t, hrun⟩

/-- Settles O8: a command writes what R130 lets it and ends in a completion. -/
theorem commandsWriteNoHostRegister : Obligations.CommandsWriteNoHostRegister := by
  unfold Obligations.CommandsWriteNoHostRegister
  exact fun i s t h => ⟨exec_sameHostSide h, exec_done_idle h⟩

/-! ### The requests of a command (R128) -/

/-- The port has been sent at most `n` requests more. -/
abbrev SentAtMost (n : Nat) (p q : PrimPort) : Prop := ∃ new, q.sent = p.sent ++ new ∧ new.length ≤ n

theorem sentAtMost_of_eq {p q : PrimPort} (n : Nat) (h : q = p) : SentAtMost n p q := ⟨[], by simp [h], Nat.zero_le n⟩

theorem sentAtMost_after (p : PrimPort) (q : PortRequest) : SentAtMost 1 p (p.after q) := ⟨[q], rfl, Nat.le_refl 1⟩

theorem sentAtMost_afterBlocks (p : PrimPort) (key cb : Block) {n m : Nat} (h : n ≤ m) :
    SentAtMost m p (p.afterBlocks key cb n) := ⟨_, rfl, by simpa using h⟩

theorem bcInitRequest_sent (s : State) : SentAtMost 1 s.prim (bcInitRequest s).prim := by
  obtain ⟨-, h⟩ | ⟨-, h⟩ | ⟨-, h⟩ := bcInitRequest_cases s <;> exact h ▸ sentAtMost_after _ _

theorem bcEncryptRun_sent (x : Slot) (s : State) : SentAtMost 1 s.prim (bcEncryptRun x s).prim := by
  obtain ⟨-, h⟩ | ⟨e, -, -, h⟩ := bcEncryptRun_cases x s <;> exact h ▸ sentAtMost_after _ _

theorem ctrRun_sent (n : BitVec 4) (s : State) : SentAtMost (blockCount s.len) s.prim (ctrRun n s).prim := by
  obtain h | ⟨e, r, j, -, hj, h⟩ := ctrRun_cases n s
  · exact h ▸ sentAtMost_afterBlocks _ _ _ (Nat.le_refl _)
  · exact h ▸ sentAtMost_afterBlocks _ _ _ hj

theorem hmacUpdateRun_prim (s : State) : (hmacUpdateRun s).prim = s.prim := by
  obtain ⟨-, h⟩ | ⟨k0, m, -, h⟩ := hmacUpdateRun_cases s <;> rw [h] <;> rfl

theorem hmacFinalRun_prim (s : State) : (hmacFinalRun s).prim = s.prim := by
  obtain ⟨-, h⟩ | ⟨k0, m, -, h⟩ := hmacFinalRun_cases s <;> rw [h] <;> rfl

theorem sealRun_sent (n : BitVec 4) (s : State) : SentAtMost (blockCount s.len) s.prim (sealRun n s).prim := by
  obtain h | ⟨e, r, j, -, hj, h⟩ := sealRun_cases n s
  · exact h ▸ sentAtMost_afterBlocks _ _ _ (Nat.le_refl _)
  · exact h ▸ sentAtMost_afterBlocks _ _ _ hj

theorem openRun_sent (n : BitVec 4) (s : State) : SentAtMost (blockCount s.len) s.prim (openRun n s).prim := by
  obtain ⟨-, h⟩ | ⟨-, h⟩ | ⟨e, r, j, -, hj, -, h⟩ := openRun_cases n s
  · exact sentAtMost_of_eq _ (by simp [h])
  · exact h ▸ sentAtMost_afterBlocks _ _ _ (Nat.le_refl _)
  · exact h ▸ sentAtMost_afterBlocks _ _ _ hj

theorem Ran.sent {i : Instr} {s t : State} (h : Ran i s t) : SentAtMost (requestBound i s) s.prim t.prim := by
  cases i with
  | bcInit =>
    obtain ⟨-, rfl⟩ | ⟨-, rfl⟩ := h
    · exact sentAtMost_of_eq _ rfl
    · exact bcInitRequest_sent s
  | bcEncryptBlock n => exact h ▸ bcEncryptRun_sent _ s
  | ctrEncrypt n | ctrDecrypt n =>
    obtain ⟨-, rfl⟩ | ⟨-, rfl⟩ := h
    · exact sentAtMost_of_eq _ rfl
    · exact ctrRun_sent n s
  | hmacUpdate =>
    obtain ⟨-, rfl⟩ := h
    exact sentAtMost_of_eq _ (hmacUpdateRun_prim s)
  | hmacFinal =>
    obtain ⟨-, rfl⟩ := h
    exact sentAtMost_of_eq _ (hmacFinalRun_prim s)
  | sealPayload n => exact h ▸ sealRun_sent n s
  | openPayload n => exact h ▸ openRun_sent n s
  | nop | ctrSetKey _ | ctrSetIv _ | ctrSetCounter _ | ctrGetState _ | hmacInit | hkdfExtract | hkdfExpand
  | sessionLoad _ | sessionClear _ =>
    simp only [Ran] at h
    exact sentAtMost_of_eq _ (by simp [h])

/-- Settles O9: a command that fails a check makes no request, and one that runs makes no more than its blocks. -/
theorem everyCommandCompletesWithinItsRequests : Obligations.EveryCommandCompletesWithinItsRequests := by
  unfold Obligations.EveryCommandCompletesWithinItsRequests
  intro i s
  have hsent : ∃ t, exec i s = .next t ∧ SentAtMost (requestBound i s) s.prim t.prim := by
    obtain ⟨e, -, hfail⟩ | ⟨t, -, hrun, hran⟩ := exec_cases i s
    · exact ⟨_, hfail, sentAtMost_of_eq _ rfl⟩
    · exact ⟨t, hrun, hran.sent⟩
  obtain ⟨t, hexec, new, hnew, hbound⟩ := hsent
  obtain ⟨hdone, hidle⟩ := exec_done_idle hexec
  exact ⟨t, new, hexec, hidle, hdone, hnew, hbound⟩

/-! ### The engine's step -/

/-- Settles O5: the listed turn of the engine is its unlisted one, at the state without that turn. -/
theorem stepRunsTheDecodedCommand : Obligations.StepRunsTheDecodedCommand := by
  unfold Obligations.StepRunsTheDecodedCommand
  intro s i hs hd
  refine ⟨fun hl => step_of_decode_ok hs hl hd, fun rest hl => ?listed⟩
  case listed => simp only [step, hl, engineStep, hs, hd]

theorem engineStep_answers (s : State) : ∃ t, engineStep s = .next t := by
  unfold engineStep
  cases s.seq with
  | idle => exact ⟨_, rfl⟩
  | busy =>
    cases decode s.cmdL with
    | ok i => exact exec_answers i s
    | error e => exact ⟨_, rfl⟩

theorem step_answers (s : State) : ∃ t, step s = .next t := by
  unfold step
  cases s.inputs with
  | nil => exact engineStep_answers s
  | cons x rest =>
    cases x with
    | engine => exact engineStep_answers _
    | access a => exact ⟨_, rfl⟩
    | reset draw => exact ⟨_, rfl⟩

/-- Settles O10: neither the engine nor the outside can stop the machine. -/
theorem everyStepAnswersNext : Obligations.EveryStepAnswersNext := by
  unfold Obligations.EveryStepAnswersNext
  intro s
  obtain ⟨t, h⟩ := step_answers s
  exact ⟨t, h, step_cfg h⟩

/-- Settles O12: NOP is its completion. -/
theorem nopOnlyCompletes : Obligations.NopOnlyCompletes := by
  unfold Obligations.NopOnlyCompletes
  intro s
  rfl

/-! ### Reset (R43, R321) -/

theorem step_reset (s : State) (draw : List Host.Cell) (rest : List Input) :
    step { s with inputs := .reset draw :: rest } = .next ({ s with inputs := rest }.resetBy draw) := rfl

theorem State.resetBy_slot (s : State) (draw : List Host.Cell) (n : BitVec 4) :
    (s.resetBy draw).slot n = Slot.empty := by
  by_cases h : n.toNat < s.cfg.nSessions <;> simp [State.slot, h]

/-- Settles O17: a reset gives every field but the parameters, DBUF, the port and the outside's list a fixed value. -/
theorem resetLeavesTheTabulatedValues : Obligations.ResetLeavesTheTabulatedValues := by
  unfold Obligations.ResetLeavesTheTabulatedValues
  intro s draw rest
  refine ⟨_, step_reset s draw rest, rfl, rfl, rfl, rfl, ?status, ?ctrl, State.slotStatusWord_afterReset .., ?length,
    fun n _ => ?slot, rfl, rfl, rfl, rfl, rfl⟩
  case status => simp [State.statusWord, State.hmacActive, State.busyBit, ErrCode.code]
  case ctrl => simp [State.ctrlWord]
  case length => simp
  case slot =>
    rw [State.resetBy_slot]
    exact ⟨rfl, rfl, rfl, rfl, rfl, rfl⟩

/-- A byte written past every listed offset is listed last. -/
theorem Memory.write_of_all_lt {m : Memory} {a : Nat} {v : Byte} (h : ∀ c ∈ m, c.1 < a) (hv : v ≠ Memory.blank) :
    m.write a v = m ++ [(a, v)] := by
  induction m with
  | nil => simp [Memory.write, hv]
  | cons c m ih =>
    obtain ⟨b, w⟩ := c
    obtain ⟨hb, hm⟩ := List.forall_mem_cons.1 h
    simp only at hb
    rw [Memory.write, if_neg (by omega), if_neg (by omega), ih hm, List.cons_append]

/-- Drawing the cells of a canonical memory, in order, after cells at lower offsets appends them. -/
theorem Memory.foldl_write_of_wfFrom {hi lo : Nat} {m acc : Memory} (hacc : ∀ c ∈ acc, c.1 < lo)
    (h : Memory.wfFrom hi lo m = true) :
    m.foldl (fun m c => if c.1 < hi then m.write c.1 c.2 else m) acc = acc ++ m := by
  induction m generalizing lo acc with
  | nil => simp
  | cons c m ih =>
    obtain ⟨a, v⟩ := c
    simp only [Memory.wfFrom, Bool.and_eq_true, decide_eq_true_eq] at h
    obtain ⟨⟨⟨hlo, hhi⟩, hv⟩, hm⟩ := h
    have hwrite : acc.write a v = acc ++ [(a, v)] :=
      Memory.write_of_all_lt (fun c hc => (hacc c hc).trans_le hlo) hv
    have hacc' : ∀ c ∈ acc ++ [(a, v)], c.1 < a + 1 := by
      simp only [List.mem_append, List.mem_singleton]
      rintro c (hc | rfl)
      · have := hacc c hc
        omega
      · exact Nat.lt_succ_self a
    rw [List.foldl_cons, if_pos hhi, hwrite, ih hacc' hm, List.append_assoc, List.singleton_append]

theorem Memory.ofCells_of_wf {n : Nat} {m : Memory} (h : m.wf n = true) : Memory.ofCells n m = m :=
  Memory.foldl_write_of_wfFrom (acc := []) (by simp) h

/-- Settles O18: a canonical memory, drawn cell by cell, is what the reset leaves. -/
theorem resetCanDrawAnyDbuf : Obligations.ResetCanDrawAnyDbuf := by
  unfold Obligations.ResetCanDrawAnyDbuf
  intro s m rest h
  exact ⟨m, _, step_reset s m rest, Memory.ofCells_of_wf h⟩

theorem Slot.legal_empty : Slot.empty.Legal := ⟨fun _ => rfl, fun _ => rfl, fun h => by cases h⟩

theorem State.afterReset_inv {p : Params} {m : Memory} (q : PrimPort) (l : List Input) (hp : p.Legal)
    (hm : m.wf p.bufBytes = true) : (State.afterReset p m q l).Inv := by
  refine ⟨hp, List.length_replicate .., fun x hx => ?_, rfl, hm, fun h => by cases h⟩
  rw [List.eq_of_mem_replicate hx]
  exact Slot.legal_empty

/-- Settles O19: every slot is empty, the context idle and the core idle, whatever the parameters and DBUF. -/
theorem resetHasTheInvariant : Obligations.ResetHasTheInvariant := by
  unfold Obligations.ResetHasTheInvariant
  exact ⟨State.afterReset_inv _ _ (by decide) rfl, fun p m q l => State.afterReset_inv q l⟩

end Sys2Proof.Machine

/-! SUPPORT. What the host reads and what it cannot (10_state.md R25, R32 to R34, R42, 60_exceptions.md R301): STATUS
and CTRL field by field, the interrupt, and that no access depends on the secrets. -/

namespace Sys2Proof.Machine

/-! ### STATUS and CTRL (R25, R32) -/

section

variable (s : State)

theorem State.statusWord_busy : s.statusWord.getLsbD 0 = s.busyBit := by
  unfold State.statusWord
  rw [BitVec.getLsbD_append]
  simp

theorem State.statusWord_done : s.statusWord.getLsbD 1 = s.done := by
  unfold State.statusWord
  iterate 2 rw [BitVec.getLsbD_append]
  simp

theorem State.statusWord_cmdOvf : s.statusWord.getLsbD 2 = s.cmdOvf := by
  unfold State.statusWord
  iterate 3 rw [BitVec.getLsbD_append]
  simp

theorem State.statusWord_busyAcc : s.statusWord.getLsbD 3 = s.busyAcc := by
  unfold State.statusWord
  iterate 4 rw [BitVec.getLsbD_append]
  simp

theorem State.statusWord_err : s.statusWord.extractLsb' 4 4 = s.err.code := by
  unfold State.statusWord
  iterate 4 rw [BitVec.extractLsb'_append_eq_of_le (by decide)]
  rw [BitVec.extractLsb'_append_eq_of_add_le (by decide)]
  exact BitVec.extractLsb'_eq_self

theorem State.statusWord_bcArmed : s.statusWord.getLsbD 8 = s.bcArmed := by
  unfold State.statusWord
  iterate 6 rw [BitVec.getLsbD_append]
  simp

theorem State.statusWord_hmacActive : s.statusWord.getLsbD 9 = s.hmacActive := by
  unfold State.statusWord
  iterate 7 rw [BitVec.getLsbD_append]
  simp

theorem State.statusWord_reserved : s.statusWord.extractLsb' 10 22 = 0 := by
  unfold State.statusWord
  iterate 7 rw [BitVec.extractLsb'_append_eq_of_le (by decide)]
  exact BitVec.extractLsb'_eq_self

theorem State.busyBit_eq : s.busyBit = decide (s.seq = .busy) := by
  unfold State.busyBit
  cases s.seq <;> rfl

theorem State.hmacActive_eq : s.hmacActive = decide (s.hctx ≠ .idle) := by
  unfold State.hmacActive
  cases s.hctx <;> simp

theorem State.ctrlWord_irqEn : s.ctrlWord.getLsbD 0 = s.irqEn := by
  rw [State.ctrlWord, BitVec.getLsbD_append]
  simp

theorem State.ctrlWord_reserved : s.ctrlWord.extractLsb' 1 31 = 0 := by
  rw [State.ctrlWord, BitVec.extractLsb'_append_eq_of_le (by decide)]
  exact BitVec.extractLsb'_eq_self

end

/-- A bit written 1 clears its flag, a bit written 0 leaves it. -/
theorem writeStatus_eq_ite (s : State) (w : Word) :
    writeStatus s w =
      { s with
        done := if w.getLsbD 1 then false else s.done
        cmdOvf := if w.getLsbD 2 then false else s.cmdOvf
        busyAcc := if w.getLsbD 3 then false else s.busyAcc } := by
  have clear (flag bit : Bool) : (flag && !bit) = if bit then false else flag := by cases bit <;> simp
  simp only [writeStatus, clear]

/-- Settles O24: each field of STATUS is one part of the word, and a write clears the flags written 1. -/
theorem statusFieldsAndWriteOneToClear : Obligations.StatusFieldsAndWriteOneToClear := by
  unfold Obligations.StatusFieldsAndWriteOneToClear
  refine ⟨fun s => ⟨?busy, s.statusWord_done, s.statusWord_cmdOvf, s.statusWord_busyAcc, ?err, s.statusWord_bcArmed,
    ?hmac, s.statusWord_reserved⟩, fun s w rest => ⟨step_readReg s rest (r := .status) rfl, ?write⟩⟩
  case busy => rw [s.statusWord_busy, s.busyBit_eq]
  case err =>
    rw [s.statusWord_err]
    cases s.err <;> rfl
  case hmac => rw [s.statusWord_hmacActive, s.hmacActive_eq]
  case write =>
    rw [step_writeReg s w rest (r := .status) rfl, writeReg, writeStatus_eq_ite]
    rfl

/-- Settles O28: each register is written in its own field and read from it, and neither looks at SEQ. -/
theorem argAndCtrlAccessesAtAnyTime : Obligations.ArgAndCtrlAccessesAtAnyTime := by
  unfold Obligations.ArgAndCtrlAccessesAtAnyTime
  intro s w rest
  refine ⟨step_writeReg s w rest (r := .arg0) rfl, step_writeReg s w rest (r := .arg1) rfl,
    step_writeReg s w rest (r := .arg2) rfl, step_writeReg s w rest (r := .arg3) rfl,
    step_writeReg s w rest (r := .arg4) rfl, step_writeReg s w rest (r := .ctrl) rfl, fun q hq => ?reads,
    s.ctrlWord_irqEn, s.ctrlWord_reserved⟩
  case reads =>
    simp only [List.mem_cons, List.not_mem_nil, or_false] at hq
    obtain rfl | rfl | rfl | rfl | rfl | rfl | rfl := hq
    · exact step_readReg s rest (r := .cmd) rfl
    · exact step_readReg s rest (r := .arg0) rfl
    · exact step_readReg s rest (r := .arg1) rfl
    · exact step_readReg s rest (r := .arg2) rfl
    · exact step_readReg s rest (r := .arg3) rfl
    · exact step_readReg s rest (r := .arg4) rfl
    · exact step_readReg s rest (r := .ctrl) rfl

/-! ### The interrupt (R301) -/

theorem State.irq_of_done {s : State} (h : s.done = true) : s.irq = s.irqEn := by
  rw [State.irq, h, Bool.true_and]

theorem State.irq_of_not_done {s : State} (h : s.done = false) : s.irq = false := by
  rw [State.irq, h, Bool.false_and]

theorem State.irq_of_not_irqEn {s : State} (h : s.irqEn = false) : s.irq = false := by
  rw [State.irq, h, Bool.and_false]

/-- Settles O25: a completion sets DONE and keeps IRQ_EN; the other four clear one of the two. -/
theorem interruptIsDoneAndEnabled : Obligations.InterruptIsDoneAndEnabled := by
  unfold Obligations.InterruptIsDoneAndEnabled
  refine ⟨fun s => ?level, fun i s t h => ?completion, fun s w draw rest =>
    ⟨fun hw => ?clear, fun hs => ?accept, fun hw => ?disable, _, step_reset s draw rest, rfl⟩⟩
  case level => rw [s.statusWord_done, s.ctrlWord_irqEn, State.irq]
  case completion =>
    obtain ⟨hdone, -⟩ := exec_done_idle h
    obtain ⟨-, -, -, -, -, -, hirqEn, -⟩ := exec_sameHostSide h
    rw [State.irq_of_done hdone, hirqEn]
  case clear =>
    refine ⟨_, step_writeReg s w rest (r := .status) rfl, State.irq_of_not_done ?_⟩
    simp [writeReg, writeStatus_eq_ite, hw]
  case accept => exact ⟨_, step_writeCmd_idle w rest hs, State.irq_of_not_done rfl⟩
  case disable => exact ⟨_, step_writeReg s w rest (r := .ctrl) rfl, State.irq_of_not_irqEn hw⟩

/-! ### The secrets (R42)

Blanking the keys and the contents of HCTX commutes with every access, so an access cannot tell them. -/

@[simp] theorem State.publicView_cfg (s : State) : s.publicView.cfg = s.cfg := rfl
@[simp] theorem State.publicView_seq (s : State) : s.publicView.seq = s.seq := rfl
@[simp] theorem State.publicView_dbuf (s : State) : s.publicView.dbuf = s.dbuf := rfl

/-- SLOT_STATUS shows only valid bits. -/
theorem slotBits_map_blank (xs : List Slot) :
    slotBits (xs.map fun x => { x with encKey := 0, authKey := 0 }) = slotBits xs := by
  induction xs with
  | nil => rfl
  | cons x xs ih => simp only [List.map_cons, slotBits, ih]

/-- STATUS shows only whether a context is active. -/
theorem State.hmacActive_publicView (s : State) : s.publicView.hmacActive = s.hmacActive := by
  unfold State.hmacActive State.publicView
  cases s.hctx <;> rfl

theorem readReg_publicView (s : State) (r : Reg) : readReg s.publicView r = readReg s r := by
  cases r with
  | status =>
    simp only [readReg, State.statusWord, s.hmacActive_publicView]
    rfl
  | slotStatus => exact congrArg (BitVec.ofNat 32) (slotBits_map_blank s.slots)
  | cmd | arg0 | arg1 | arg2 | arg3 | arg4 | config0 | config1 | config2 | ctrl => rfl

theorem writeReg_publicView (s : State) (w : Word) (r : Reg) :
    (writeReg s w r).publicView = writeReg s.publicView w r := by
  cases r with
  | cmd =>
    simp only [writeReg, writeCmd, State.publicView_seq]
    cases s.seq <;> rfl
  | status | arg0 | arg1 | arg2 | arg3 | arg4 | config0 | config1 | config2 | slotStatus | ctrl => rfl

theorem readDbuf_publicView (s : State) (k n : Nat) :
    readDbuf s.publicView k n = ((readDbuf s k n).1, (readDbuf s k n).2.publicView) := by
  simp only [readDbuf, State.publicView_seq, State.publicView_dbuf]
  cases s.seq <;> rfl

theorem writeDbuf_publicView (s : State) (k n : Nat) (w : Word) :
    (writeDbuf s k n w).publicView = writeDbuf s.publicView k n w := by
  simp only [writeDbuf, State.publicView_seq, State.publicView_dbuf]
  cases s.seq <;> rfl

theorem hostAccess_publicView (s : State) (a : BusAccess) :
    (hostAccess s a).publicView = hostAccess s.publicView a := by
  cases a with
  | read off size =>
    simp only [hostAccess, State.publicView_cfg, readReg_publicView, readDbuf_publicView]
    cases target s.cfg off.toNat size <;> rfl
  | write off size w =>
    simp only [hostAccess, State.publicView_cfg, ← writeReg_publicView, ← writeDbuf_publicView]
    cases target s.cfg off.toNat size <;> rfl

theorem step_access (s : State) (a : BusAccess) (rest : List Input) :
    step { s with inputs := .access a :: rest } = .next (hostAccess { s with inputs := rest } a) := rfl

/-- Settles O29: what an access leaves, with the secrets blanked, is what it leaves of the blanked state. -/
theorem hostAccessesDoNotSeeTheSecrets : Obligations.HostAccessesDoNotSeeTheSecrets := by
  unfold Obligations.HostAccessesDoNotSeeTheSecrets
  intro s s' a rest h
  have hrest : ({ s with inputs := rest } : State).publicView = ({ s' with inputs := rest } : State).publicView :=
    congrArg (fun v : State => { v with inputs := rest }) h
  have hview : (hostAccess { s with inputs := rest } a).publicView =
      (hostAccess { s' with inputs := rest } a).publicView := by
    rw [hostAccess_publicView, hostAccess_publicView, hrest]
  have hreply : (hostAccess { s with inputs := rest } a).publicView.busReply =
      (hostAccess { s' with inputs := rest } a).publicView.busReply := congrArg State.busReply hview
  exact ⟨_, _, step_access s a rest, step_access s' a rest, hreply, hview⟩

/-! ### The bounded wait (R147, R148) -/

/-- Samples that show no answer use up the budget and nothing else. -/
theorem pollAnswer_append_of_silent {pre : List Sample} (h : ∀ x ∈ pre, x.good = false ∧ x.bad = false) (n : Nat)
    (l : List Sample) : pollAnswer (pre.length + n) (pre ++ l) = pollAnswer n l := by
  induction pre with
  | nil => simp
  | cons x pre ih =>
    obtain ⟨⟨hgood, hbad⟩, hpre⟩ := List.forall_mem_cons.1 h
    rw [List.length_cons, Nat.add_right_comm, List.cons_append, pollAnswer]
    simp [hgood, hbad, ih hpre]

theorem pollAnswer_of_silent {n : Nat} {l : List Sample} (h : ∀ x ∈ l.take n, x.good = false ∧ x.bad = false) :
    pollAnswer n l = .timeout := by
  induction n generalizing l with
  | zero => rfl
  | succ n ih =>
    cases l with
    | nil => rfl
    | cons x l =>
      rw [List.take_succ_cons] at h
      obtain ⟨⟨hgood, hbad⟩, hl⟩ := List.forall_mem_cons.1 h
      simp [pollAnswer, hgood, hbad, ih hl]

/-- A sample that shows an answer decides: an error if it shows one, `ok` otherwise. -/
theorem pollAnswer_cons_of_answer {x : Sample} (h : x.good = true ∨ x.bad = true) (n : Nat) (l : List Sample) :
    pollAnswer (n + 1) (x :: l) = if x.bad then .error else .ok := by
  rw [pollAnswer]
  cases hbad : x.bad with
  | true => rfl
  | false => simp [show x.good = true by simpa [hbad] using h]

/-- Settles O30: the samples before the first answer are silent, so the wait is the wait from that sample on. -/
theorem firstAnswerWithinTheBudgetDecides : Obligations.FirstAnswerWithinTheBudgetDecides := by
  unfold Obligations.FirstAnswerWithinTheBudgetDecides
  intro n l
  refine ⟨pollAnswer_of_silent, fun k x hk hx hanswer hsilent => ?_⟩
  obtain ⟨hlen, hget⟩ := List.getElem?_eq_some_iff.1 hx
  have hsplit : l.take k ++ x :: l.drop (k + 1) = l := by
    rw [← hget, ← List.drop_eq_getElem_cons hlen, List.take_append_drop]
  have htake : (l.take k).length = k := List.length_take_of_le hlen.le
  obtain ⟨d, rfl⟩ : ∃ d, n = k + (d + 1) := ⟨n - k - 1, by omega⟩
  calc pollAnswer (k + (d + 1)) l
    _ = pollAnswer ((l.take k).length + (d + 1)) (l.take k ++ x :: l.drop (k + 1)) := by rw [htake, hsplit]
    _ = pollAnswer (d + 1) (x :: l.drop (k + 1)) := pollAnswer_append_of_silent hsilent ..
    _ = if x.bad then .error else .ok := pollAnswer_cons_of_answer hanswer ..

/-! ### BC_INIT (R143) -/

theorem exec_bcInit_armed {s : State} (h : s.bcArmed = true) : exec .bcInit s = .next (s.complete .ok) := by
  simp only [exec, execBcInit, h, if_true]

theorem exec_bcInit_request {s : State} (h : s.bcArmed = false) : exec .bcInit s = .next (bcInitRequest s) := by
  simp [exec, execBcInit, h]

/-- Settles O31: by the three answers of the init request. -/
theorem bcInitArmsOnOk : Obligations.BcInitArmsOnOk := by
  unfold Obligations.BcInitArmsOnOk
  refine fun s => ⟨exec_bcInit_armed, fun h hok => ?ok, fun h hne => ?failed⟩
  case ok =>
    obtain ⟨-, hreq⟩ | ⟨hans, -⟩ | ⟨hans, -⟩ := bcInitRequest_cases s
    · rw [exec_bcInit_request h, hreq]
      rfl
    · rw [hok] at hans
      cases hans
    · rw [hok] at hans
      cases hans
  case failed =>
    obtain ⟨hans, -⟩ | ⟨hans, hreq⟩ | ⟨hans, hreq⟩ := bcInitRequest_cases s
    · exact absurd hans hne
    · rw [exec_bcInit_request h, hreq, if_pos hans]
      rfl
    · rw [exec_bcInit_request h, hreq, if_neg (by rw [hans]; decide)]
      rfl

end Sys2Proof.Machine

/-! SUPPORT. The invariant of the machine (10_state.md R27 to R36, 20_memory.md R62): the operations every command is
made of keep it, and so every command, every host access and every reset does. -/

namespace Sys2Proof.Machine

/-! ### The checks that were passed (R124) -/

theorem firstFailure_cons_eq_none {ok : Bool} {e : ErrCode} {l : List (Bool × ErrCode)} :
    firstFailure ((ok, e) :: l) = none ↔ ok = true ∧ firstFailure l = none := by
  cases ok <;> simp

section

variable {s : State}

theorem dstFixed_inRange_of_bcEncryptBuffers (h : bcEncryptBuffers s = true) :
    (s.dstFixed 16).inRange s.cfg = true := by
  simp only [bcEncryptBuffers, Bool.and_eq_true] at h
  obtain ⟨⟨-, hdst⟩, -⟩ := h
  exact hdst

theorem dstBuf_inRange_of_ctrBuffers (h : ctrBuffers s = true) : s.dstBuf.inRange s.cfg = true := by
  simp only [ctrBuffers, Bool.and_eq_true] at h
  obtain ⟨⟨-, hdst⟩, -⟩ := h
  exact hdst

theorem payloadBuf_inRange_of_sealBuffers (h : sealBuffers s = true) : s.payloadBuf.inRange s.cfg = true := by
  simp only [sealBuffers, Bool.and_eq_true] at h
  obtain ⟨⟨-, hdst⟩, -⟩ := h
  exact hdst

theorem dstBuf_inRange_of_openBuffers (h : openBuffers s = true) : s.dstBuf.inRange s.cfg = true := by
  simp only [openBuffers, Bool.and_eq_true] at h
  obtain ⟨⟨⟨⟨-, hdst⟩, -⟩, -⟩, -⟩ := h
  exact hdst

theorem dstFixed_inRange_of_hkdfExtractBuffers (h : hkdfExtractBuffers s = true) :
    (s.dstFixed 32).inRange s.cfg = true := by
  simp only [hkdfExtractBuffers, Bool.and_eq_true] at h
  obtain ⟨⟨⟨-, hdst⟩, -⟩, -⟩ := h
  exact hdst

theorem dstBuf_inRange_of_hkdfExpandBuffers (h : hkdfExpandBuffers s = true) : s.dstBuf.inRange s.cfg = true := by
  simp only [hkdfExpandBuffers, Bool.and_eq_true] at h
  obtain ⟨⟨⟨-, hdst⟩, -⟩, -⟩ := h
  exact hdst

end

/-! ### Outputs fill their buffers -/

section

variable (s : State)

theorem length_ctrOf_srcBuf (key cb : Block) : (ctrOf key cb (s.readBuf s.srcBuf)).length = s.dstBuf.len := by
  rw [length_ctrOf, State.length_readBuf]
  rfl

theorem length_payload_srcBuf (h : s.cfg.tagLen ≤ 32) (k : AuthKey) (key cb : Block) (c : Word) :
    (payload s.cfg k (ctrOf key cb (s.readBuf s.srcBuf)) c).length = s.payloadBuf.len := by
  rw [length_payload h, length_ctrOf_srcBuf]
  rfl

end

/-! ### The invariant through the operations of a command -/

/-- The invariant but for its clause about a running command, which a completion makes true. -/
def State.Sound (s : State) : Prop :=
  s.cfg.Legal ∧ s.slots.length = s.cfg.nSessions ∧ (∀ x ∈ s.slots, x.Legal) ∧ s.hctx.legal = true ∧
    s.dbuf.wf s.cfg.bufBytes = true

theorem State.Inv.sound {s : State} (hs : s.Inv) : s.Sound := by
  obtain ⟨hcfg, hlen, hslots, hctx, hdbuf, -⟩ := hs
  exact ⟨hcfg, hlen, hslots, hctx, hdbuf⟩

namespace State.Sound

variable {s : State} (hs : s.Sound)
include hs

theorem complete (e : ErrCode) : (s.complete e).Inv := by
  obtain ⟨hcfg, hlen, hslots, hctx, hdbuf⟩ := hs
  exact ⟨hcfg, hlen, hslots, hctx, hdbuf, nofun⟩

theorem withPrim (p : PrimPort) : ({ s with prim := p } : State).Sound := hs

theorem withHctx {h : Hctx} (hh : h.legal = true) : ({ s with hctx := h } : State).Sound := by
  obtain ⟨hcfg, hlen, hslots, -, hdbuf⟩ := hs
  exact ⟨hcfg, hlen, hslots, hh, hdbuf⟩

theorem withIdleHctx : ({ s with hctx := .idle } : State).Sound := hs.withHctx rfl

theorem writeBuf {b : Buf} {bs : List Byte} (hb : b.inRange s.cfg = true) (hl : bs.length = b.len) :
    (s.writeBuf b bs).Sound := by
  obtain ⟨hcfg, hlen, hslots, hctx, hdbuf⟩ := hs
  have hfits : b.off + bs.length ≤ s.cfg.bufBytes := hl ▸ of_decide_eq_true hb
  exact ⟨hcfg, hlen, hslots, hctx, Memory.wf_writeBytes hdbuf hfits⟩

theorem setSlot (n : BitVec 4) {x : Slot} (hx : x.Legal) : (s.setSlot n x).Sound := by
  obtain ⟨hcfg, hlen, hslots, hctx, hdbuf⟩ := hs
  refine ⟨hcfg, by simpa using hlen, fun y hy => ?_, hctx, hdbuf⟩
  obtain hy | rfl := List.mem_or_eq_of_mem_set hy
  · exact hslots y hy
  · exact hx

/-- Every slot is legal, one that the core does not have too. -/
theorem slot_legal (n : BitVec 4) : (s.slot n).Legal := by
  obtain ⟨-, -, hslots, -⟩ := hs
  by_cases h : n.toNat < s.slots.length
  · exact hslots _ (State.slot_mem h)
  · rw [State.slot_of_length_le (Nat.not_lt.1 h)]
    exact Slot.legal_empty

theorem tagLen_le : s.cfg.tagLen ≤ 32 := by
  obtain ⟨⟨-, ⟨-, htag⟩, -⟩, -⟩ := hs
  exact htag

end State.Sound

/-! ### Legal slots (R27, R29, R44) -/

theorem Slot.Legal.afterCtr {x : Slot} (h : x.Legal) (cb : Block) (n : Nat) : (x.afterCtr cb n).Legal := h

theorem Slot.Legal.withCb {x : Slot} (h : x.Legal) (cb : Block) : ({ x with cb := cb } : Slot).Legal := h

theorem Slot.Legal.withEncKey {x : Slot} (h : x.Legal) (key ks : Block) :
    ({ x with encKey := key, encValid := true, ksLast := ks } : Slot).Legal := by
  obtain ⟨-, hauth, -⟩ := h
  exact ⟨nofun, hauth, fun _ => rfl⟩

theorem Slot.legal_ofImage (m : List Byte) : (Slot.ofImage m).Legal :=
  ⟨nofun, nofun, fun _ => rfl⟩

/-! ### The invariant through a command -/

section

variable {s : State} (hs : s.Sound)
include hs

theorem bcInitRequest_inv : (bcInitRequest s).Inv := by
  have harmed (p : PrimPort) : ({ s with bcArmed := true, prim := p } : State).Sound := hs
  obtain ⟨-, h⟩ | ⟨-, h⟩ | ⟨-, h⟩ := bcInitRequest_cases s
  · exact h ▸ (harmed _).complete _
  · exact h ▸ (hs.withPrim _).complete _
  · exact h ▸ (hs.withPrim _).complete _

theorem bcEncryptRun_inv (x : Slot) (hbuf : bcEncryptBuffers s = true) : (bcEncryptRun x s).Inv := by
  have hrange := dstFixed_inRange_of_bcEncryptBuffers hbuf
  obtain ⟨-, h⟩ | ⟨e, -, -, h⟩ := bcEncryptRun_cases x s
  · exact h ▸ ((hs.withPrim _).writeBuf hrange (length_toBytes ..)).complete _
  · exact h ▸ ((hs.withPrim _).writeBuf hrange (Residue.length_bytes ..)).complete _

theorem ctrRun_inv (n : BitVec 4) (hbuf : ctrBuffers s = true) : (ctrRun n s).Inv := by
  have hrange := dstBuf_inRange_of_ctrBuffers hbuf
  obtain h | ⟨e, r, j, -, -, h⟩ := ctrRun_cases n s
  · exact h ▸ (((hs.withPrim _).writeBuf hrange (length_ctrOf_srcBuf s ..)).setSlot n
      ((hs.slot_legal n).afterCtr ..)).complete _
  · exact h ▸ ((hs.withPrim _).writeBuf hrange (Residue.length_bytes ..)).complete _

theorem hmacUpdateRun_inv (hlen : hmacLengthOk s = true) : (hmacUpdateRun s).Inv := by
  obtain ⟨-, h⟩ | ⟨k0, m, hctx, h⟩ := hmacUpdateRun_cases s
  · exact h ▸ hs.complete _
  · have hlegal : (Hctx.active k0 (m ++ s.readBuf s.srcBuf)).legal = true := by
      obtain ⟨-, -, -, hk, -⟩ := hs
      have hread : (s.readBuf s.srcBuf).length = s.len := s.length_readBuf s.srcBuf
      simp only [hmacLengthOk, hctx, decide_eq_true_eq] at hlen
      simp only [hctx, Hctx.legal, Bool.and_eq_true, decide_eq_true_eq] at hk
      simp only [Hctx.legal, Bool.and_eq_true, decide_eq_true_eq, List.length_append, hread]
      exact hk.imp_right fun _ => hlen
    exact h ▸ (hs.withHctx hlegal).complete _

theorem hmacFinalRun_inv (hrange : (s.dstFixed 32).inRange s.cfg = true) : (hmacFinalRun s).Inv := by
  obtain ⟨-, h⟩ | ⟨k0, m, -, h⟩ := hmacFinalRun_cases s
  · exact h ▸ hs.complete _
  · exact h ▸ ((hs.withIdleHctx).writeBuf hrange (length_hmacOfBlock ..)).complete _

theorem sealRun_inv (n : BitVec 4) (hbuf : sealBuffers s = true) : (sealRun n s).Inv := by
  have hrange := payloadBuf_inRange_of_sealBuffers hbuf
  have hidle (p : PrimPort) : ({ s with prim := p, hctx := .idle } : State).Sound := (hs.withPrim p).withIdleHctx
  obtain h | ⟨e, r, j, -, -, h⟩ := sealRun_cases n s
  · exact h ▸ (((hidle _).writeBuf hrange (length_payload_srcBuf s hs.tagLen_le ..)).setSlot n
      ((hs.slot_legal n).afterCtr ..)).complete _
  · exact h ▸ ((hidle _).writeBuf hrange (Residue.length_bytes ..)).complete _

theorem openRun_inv (n : BitVec 4) (hbuf : openBuffers s = true) : (openRun n s).Inv := by
  have hrange := dstBuf_inRange_of_openBuffers hbuf
  have hidle (p : PrimPort) : ({ s with prim := p, hctx := .idle } : State).Sound := (hs.withPrim p).withIdleHctx
  obtain ⟨-, h⟩ | ⟨-, h⟩ | ⟨e, r, j, -, -, -, h⟩ := openRun_cases n s
  · exact h ▸ (hs.withIdleHctx).complete _
  · exact h ▸ (((hidle _).writeBuf hrange (length_ctrOf_srcBuf s ..)).setSlot n
      ((hs.slot_legal n).afterCtr ..)).complete _
  · exact h ▸ ((hidle _).writeBuf hrange (Residue.length_bytes ..)).complete _

/-- A command that passed its checks keeps the invariant. -/
theorem Ran.inv {i : Instr} {t : State} (hpass : firstFailure (checksOf i s) = none) (h : Ran i s t) : t.Inv := by
  cases i
  all_goals
    simp only [checksOf, firstFailure_cons_eq_none, firstFailure_nil, and_true] at hpass
    simp only [Ran] at h
  case nop => exact h ▸ hs.complete _
  case bcInit =>
    obtain ⟨-, rfl⟩ | ⟨-, rfl⟩ := h
    · exact hs.complete _
    · exact bcInitRequest_inv hs
  case bcEncryptBlock n =>
    obtain ⟨-, hbuf, -⟩ := hpass
    exact h ▸ bcEncryptRun_inv hs _ hbuf
  case ctrSetKey n => exact h ▸ (hs.setSlot n ((hs.slot_legal n).withEncKey ..)).complete _
  case ctrSetIv n => exact h ▸ (hs.setSlot n ((hs.slot_legal n).withCb _)).complete _
  case ctrSetCounter n => exact h ▸ (hs.setSlot n ((hs.slot_legal n).withCb _)).complete _
  case ctrEncrypt n | ctrDecrypt n =>
    obtain ⟨-, rfl⟩ | ⟨hlen, rfl⟩ := h
    · exact hs.complete _
    · obtain ⟨-, hbuf, -⟩ := hpass
      rw [decide_eq_false (by omega), Bool.false_or] at hbuf
      exact ctrRun_inv hs n hbuf
  case ctrGetState n =>
    obtain ⟨-, hrange⟩ := hpass
    exact h ▸ (hs.writeBuf hrange (by simp [State.dstFixed])).complete _
  case hmacInit => exact h ▸ (hs.withHctx (by simp [Hctx.legal])).complete _
  case hmacUpdate =>
    obtain ⟨hlen, -⟩ := hpass
    obtain ⟨-, rfl⟩ := h
    exact hmacUpdateRun_inv hs hlen
  case hmacFinal =>
    obtain ⟨hrange, -⟩ := hpass
    obtain ⟨-, rfl⟩ := h
    exact hmacFinalRun_inv hs hrange
  case hkdfExtract =>
    have hrange := dstFixed_inRange_of_hkdfExtractBuffers hpass
    exact h ▸ ((hs.withIdleHctx).writeBuf hrange (length_hkdfExtract ..)).complete _
  case hkdfExpand =>
    obtain ⟨-, hbuf⟩ := hpass
    have hrange := dstBuf_inRange_of_hkdfExpandBuffers hbuf
    exact h ▸ ((hs.withIdleHctx).writeBuf hrange (length_hkdfExpand ..)).complete _
  case sessionLoad n => exact h ▸ (hs.setSlot n (Slot.legal_ofImage _)).complete _
  case sessionClear n => exact h ▸ (hs.setSlot n Slot.legal_empty).complete _
  case sealPayload n =>
    obtain ⟨-, hbuf, -⟩ := hpass
    exact h ▸ sealRun_inv hs n hbuf
  case openPayload n =>
    obtain ⟨-, hbuf, -⟩ := hpass
    exact h ▸ openRun_inv hs n hbuf

theorem exec_inv {i : Instr} {t : State} (h : exec i s = .next t) : t.Inv := by
  obtain ⟨e, -, hfail⟩ | ⟨u, hpass, hrun, hran⟩ := exec_cases i s
  · obtain rfl := Host.Outcome.next.inj (hfail.symm.trans h)
    exact hs.complete e
  · obtain rfl := Host.Outcome.next.inj (hrun.symm.trans h)
    exact hran.inv hs hpass

end

/-! ### The invariant through a step -/

/-- An access that reaches DBUF lies inside it (R67). -/
theorem target_dbuf_le {p : Params} {off k : Nat} {size : AccessSize} (h : target p off size = .dbuf k) :
    k + size.bytes ≤ p.bufBytes := by
  unfold target at h
  split at h
  · split at h
    · next hin =>
      obtain ⟨-, hin⟩ := hin
      obtain rfl := Target.dbuf.inj h
      exact hin
    · cases h
  · split at h <;> cases h

section

variable {s : State} (hs : s.Inv)
include hs

theorem engineStep_inv {t : State} (h : engineStep s = .next t) : t.Inv := by
  obtain ⟨-, rfl⟩ | ⟨i, -, -, hexec⟩ | ⟨e, -, -, rfl⟩ := engineStep_cases h
  · exact hs
  · exact exec_inv hs.sound hexec
  · exact hs.sound.complete _

theorem State.Inv.accept (w : Word) : (s.accept w).Inv := by
  obtain ⟨hcfg, hlen, hslots, hctx, hdbuf, -⟩ := hs
  exact ⟨hcfg, hlen, hslots, hctx, hdbuf, fun _ => ⟨rfl, rfl⟩⟩

theorem State.Inv.writeStatus (w : Word) : (writeStatus s w).Inv := by
  obtain ⟨hcfg, hlen, hslots, hctx, hdbuf, hbusy⟩ := hs
  refine ⟨hcfg, hlen, hslots, hctx, hdbuf, fun h => ?_⟩
  obtain ⟨hdone, herr⟩ := hbusy h
  exact ⟨by simp [writeStatus_eq_ite, hdone], herr⟩

theorem writeReg_inv (w : Word) (r : Reg) : (writeReg s w r).Inv := by
  cases r with
  | cmd =>
    cases hseq : s.seq with
    | idle =>
      rw [writeReg, writeCmd_of_idle w hseq]
      exact hs.accept w
    | busy =>
      rw [writeReg, writeCmd_of_busy w hseq]
      exact hs
  | status => exact hs.writeStatus w
  | arg0 | arg1 | arg2 | arg3 | arg4 | config0 | config1 | config2 | slotStatus | ctrl => exact hs

theorem readDbuf_inv (k n : Nat) : (readDbuf s k n).2.Inv := by
  unfold readDbuf
  split
  · exact hs
  · exact hs

/-- A host write stays inside DBUF, and only the idle core takes it. -/
theorem writeDbuf_inv {k n : Nat} (w : Word) (h : k + n ≤ s.cfg.bufBytes) : (writeDbuf s k n w).Inv := by
  unfold writeDbuf
  split
  · obtain ⟨hcfg, hlen, hslots, hctx, hdbuf, hbusy⟩ := hs
    exact ⟨hcfg, hlen, hslots, hctx, Memory.wf_writeBytes hdbuf (by simpa using h), hbusy⟩
  · exact hs

theorem State.Inv.reply (r : BusReply) : (s.reply r).Inv := hs

theorem hostAccess_inv (a : BusAccess) : (hostAccess s a).Inv := by
  cases a with
  | read off size =>
    simp only [hostAccess]
    split
    · exact hs.reply _
    · exact State.Inv.reply (readDbuf_inv hs ..) _
    · exact hs.reply _
  | write off size w =>
    simp only [hostAccess]
    split
    · exact State.Inv.reply (writeReg_inv hs ..) _
    · next k htarget => exact State.Inv.reply (writeDbuf_inv hs w (target_dbuf_le htarget)) _
    · exact hs.reply _

theorem State.Inv.resetBy (draw : List Host.Cell) : (s.resetBy draw).Inv := by
  obtain ⟨hcfg, -⟩ := hs
  exact State.afterReset_inv _ _ hcfg (Memory.wf_ofCells ..)

theorem step_inv {t : State} (h : step s = .next t) : t.Inv := by
  have hrest (rest : List Input) : ({ s with inputs := rest } : State).Inv := hs
  obtain ⟨-, he⟩ | ⟨rest, -, he⟩ | ⟨a, rest, -, rfl⟩ | ⟨draw, rest, -, rfl⟩ := step_cases h
  · exact engineStep_inv hs he
  · exact engineStep_inv (hrest rest) he
  · exact hostAccess_inv (hrest rest) a
  · exact (hrest rest).resetBy draw

end

/-- Settles O11: by the four things a step can be. -/
theorem stepKeepsTheInvariant : Obligations.StepKeepsTheInvariant := by
  unfold Obligations.StepKeepsTheInvariant
  exact fun s t hs => step_inv hs

end Sys2Proof.Machine

/-! SUPPORT. Validation (40_command_cycle.md R124, 60_exceptions.md R294, R295): the checks of every command are one
ladder of length, buffers and state, and each rung fails exactly for the causes the spec lists. -/

namespace Sys2Proof.Machine

/-! ### The rungs of the ladder -/

/-- The length ceiling V3 of a command; most have none. -/
def lengthOk (i : Instr) (s : State) : Bool :=
  match i with
  | .hmacUpdate => hmacLengthOk s
  | .hkdfExpand => decide (s.len ≤ 8160)
  | _ => true

/-- The buffer check V4 of a command. -/
def buffersOk (i : Instr) (s : State) : Bool :=
  match i with
  | .bcEncryptBlock _ => bcEncryptBuffers s
  | .ctrSetKey _ => (s.srcFixed 16).inRange s.cfg
  | .ctrSetIv _ => (s.srcFixed 16).inRange s.cfg
  | .ctrEncrypt _ => ctrBuffers s
  | .ctrDecrypt _ => ctrBuffers s
  | .ctrGetState _ => (s.dstFixed 32).inRange s.cfg
  | .hmacInit => s.srcBuf.inRange s.cfg
  | .hmacUpdate => s.srcBuf.inRange s.cfg
  | .hmacFinal => (s.dstFixed 32).inRange s.cfg
  | .hkdfExtract => hkdfExtractBuffers s
  | .hkdfExpand => hkdfExpandBuffers s
  | .sessionLoad _ => (s.srcFixed 64).inRange s.cfg
  | .sealPayload _ => sealBuffers s
  | .openPayload _ => openBuffers s
  | _ => true

/-- The state check V5 of a command. -/
def stateOk (i : Instr) (s : State) : Bool :=
  match i with
  | .bcEncryptBlock n => (s.slot n).encValid && s.bcArmed
  | .ctrSetKey n => !(s.slot n).encValid
  | .ctrEncrypt n => (s.slot n).encValid && s.bcArmed
  | .ctrDecrypt n => (s.slot n).encValid && s.bcArmed
  | .hmacUpdate => s.hmacActive
  | .hmacFinal => s.hmacActive
  | .sessionLoad n => !(s.slot n).encValid && !(s.slot n).authValid
  | .sealPayload n => codecReady n s
  | .openPayload n => codecReady n s
  | _ => true

/-- The ladder V1, V3, V4, V5 of a command that does not take the shortcut V2. -/
def ladder (i : Instr) (s : State) : List (Bool × ErrCode) :=
  [(i.wellFormed s.cfg, .illegalCommand), (lengthOk i s, .invalidLength), (buffersOk i s, .badBuffer),
    (stateOk i s, .badState)]

theorem zeroLengthCtr_iff {i : Instr} {n : BitVec 4} {s : State} (hi : i = .ctrEncrypt n ∨ i = .ctrDecrypt n) :
    ZeroLengthCtr i s ↔ s.len = 0 := by
  have hlen : s.argL.a2 = 0 ↔ s.len = 0 := BitVec.toNat_inj.symm
  obtain rfl | rfl := hi <;> exact hlen

/-- Without the shortcut, the checks a command makes are the ladder, with the rungs it does not have left out. -/
theorem firstFailure_checksOf {i : Instr} {s : State} (h : ¬ZeroLengthCtr i s) :
    firstFailure (checksOf i s) = firstFailure (ladder i s) := by
  cases i with
  | ctrEncrypt n | ctrDecrypt n =>
    rw [zeroLengthCtr_iff (n := n) (by simp)] at h
    simp [checksOf, ladder, lengthOk, buffersOk, stateOk, Instr.wellFormed, Instr.slot?, State.hasSlot, h]
  | nop | bcInit | hmacInit | hmacUpdate | hmacFinal | hkdfExtract | hkdfExpand =>
    simp [checksOf, ladder, lengthOk, buffersOk, stateOk, Instr.wellFormed, Instr.slot?]
  | bcEncryptBlock n | ctrSetKey n | ctrSetIv n | ctrSetCounter n | ctrGetState n | sessionLoad n | sessionClear n
  | sealPayload n | openPayload n =>
    simp [checksOf, ladder, lengthOk, buffersOk, stateOk, Instr.wellFormed, Instr.slot?, State.hasSlot]

/-! ### The causes (R72, R73, R294, R295) -/

theorem hmacActive_eq_true_iff {s : State} : s.hmacActive = true ↔ s.hctx ≠ .idle := by
  rw [s.hmacActive_eq, decide_eq_true_eq]

theorem lengthOk_eq_true_iff {i : Instr} {s : State} : lengthOk i s = true ↔ ¬LengthCause i s := by
  cases i with
  | hmacUpdate =>
    cases hctx : s.hctx with
    | idle => simp [lengthOk, hmacLengthOk, LengthCause, hctx]
    | active k0 m =>
      have hcause : LengthCause .hmacUpdate s ↔ 2 ^ 61 - 65 < m.length + s.len := by
        simp [LengthCause, hctx, State.len]
      simp only [lengthOk, hmacLengthOk, hctx, hcause, Nat.not_lt]
      exact decide_eq_true_iff
  | hkdfExpand => exact decide_eq_true_iff.trans Nat.not_lt.symm
  | _ => simp [lengthOk, LengthCause]

section

variable {i : Instr} {s : State} {b src dst aux : Buf}

theorem not_bufferCause_of_no_buffers (hin : inputsOf i s = []) (hout : outputOf i s = []) : ¬BufferCause i s := by
  simp [BufferCause, hin, hout]

theorem inRange_iff_of_input (hin : inputsOf i s = [b]) (hout : outputOf i s = []) :
    b.inRange s.cfg = true ↔ ¬BufferCause i s := by
  simp [BufferCause, hin, hout, Buf.inRange]

theorem inRange_iff_of_output (hin : inputsOf i s = []) (hout : outputOf i s = [b]) :
    b.inRange s.cfg = true ↔ ¬BufferCause i s := by
  simp [BufferCause, hin, hout, Buf.inRange]

/-- V4 of a command that may run in place. -/
theorem inPlace_iff (hin : inputsOf i s = [src]) (hout : outputOf i s = [dst]) (hplace : mayRunInPlace i = true) :
    (src.inRange s.cfg && dst.inRange s.cfg && src.inPlaceOrApart dst) = true ↔ ¬BufferCause i s := by
  simp only [BufferCause, hin, hout, hplace, ← Buf.overlaps_iff]
  cases hover : src.overlaps dst <;> simp [Buf.inRange, Buf.inPlaceOrApart, hover]

/-- V4 of a command with two inputs whose output must be apart from both. -/
theorem apart_iff (hin : inputsOf i s = [src, aux]) (hout : outputOf i s = [dst]) (hplace : mayRunInPlace i = false) :
    (src.inRange s.cfg && aux.inRange s.cfg && dst.inRange s.cfg && !(dst.overlaps src) && !(dst.overlaps aux)) = true ↔
      ¬BufferCause i s := by
  simp [BufferCause, hin, hout, hplace, ← Buf.overlaps_iff, dst.overlaps_comm, Buf.inRange, and_assoc]

end

theorem buffersOk_eq_true_iff {i : Instr} {s : State} : buffersOk i s = true ↔ ¬BufferCause i s := by
  cases i with
  | nop | bcInit | ctrSetCounter _ | sessionClear _ => exact iff_of_true rfl (not_bufferCause_of_no_buffers rfl rfl)
  | ctrSetKey _ | ctrSetIv _ | hmacInit | hmacUpdate | sessionLoad _ => exact inRange_iff_of_input rfl rfl
  | ctrGetState _ | hmacFinal => exact inRange_iff_of_output rfl rfl
  | bcEncryptBlock _ | sealPayload _ => exact inPlace_iff rfl rfl rfl
  | ctrEncrypt n => exact ctrBuffers_eq_true_iff (n := n) (.inl rfl)
  | ctrDecrypt n => exact ctrBuffers_eq_true_iff (n := n) (.inr rfl)
  | hkdfExtract | hkdfExpand => exact apart_iff rfl rfl rfl
  | openPayload n => exact openBuffers_eq_true_iff

theorem stateOk_eq_true_iff {i : Instr} {s : State} : stateOk i s = true ↔ ¬StateCause i s := by
  cases i with
  | hmacUpdate | hmacFinal => exact hmacActive_eq_true_iff
  | sealPayload n | openPayload n => exact codecReady_eq_true_iff
  | _ => simp [stateOk, StateCause]

/-! ### How a command ends by the first cause -/

section

variable {i : Instr} {s : State}

theorem exec_of_firstFailure {e : ErrCode} (h : firstFailure (checksOf i s) = some e) :
    exec i s = .next (s.complete e) := by
  obtain ⟨e', he', hfail⟩ | ⟨t, hpass, -, -⟩ := exec_cases i s
  · obtain rfl := Option.some.inj (h.symm.trans he')
    exact hfail
  · cases h.symm.trans hpass

theorem exec_of_zeroLengthCtr (hwf : i.wellFormed s.cfg = true) (h : ZeroLengthCtr i s) :
    exec i s = .next (s.complete .ok) := by
  have shortcut {n : BitVec 4} (hi : i = .ctrEncrypt n ∨ i = .ctrDecrypt n) : exec i s = .next (s.complete .ok) := by
    have hslot : i.slot? = some n := by obtain rfl | rfl := hi <;> rfl
    have hn : n.toNat < s.cfg.nSessions := of_decide_eq_true ((wellFormed_eq_hasSlot hslot s).symm.trans hwf)
    rw [exec_eq_ctrCommand hi, ctrCommand_of_len_eq_zero hn ((zeroLengthCtr_iff hi).1 h)]
  cases i with
  | ctrEncrypt n => exact shortcut (.inl rfl)
  | ctrDecrypt n => exact shortcut (.inr rfl)
  | _ => exact h.elim

variable (hwf : i.wellFormed s.cfg = true) (hzero : ¬ZeroLengthCtr i s)
include hwf hzero

theorem exec_of_lengthCause (h : LengthCause i s) : exec i s = .next (s.complete .invalidLength) := by
  refine exec_of_firstFailure ?_
  have hlen : lengthOk i s = false := Bool.eq_false_iff.2 fun hok => lengthOk_eq_true_iff.1 hok h
  simp [firstFailure_checksOf hzero, ladder, hwf, hlen]

theorem exec_of_bufferCause (hlen : ¬LengthCause i s) (h : BufferCause i s) :
    exec i s = .next (s.complete .badBuffer) := by
  refine exec_of_firstFailure ?_
  have hbuf : buffersOk i s = false := Bool.eq_false_iff.2 fun hok => buffersOk_eq_true_iff.1 hok h
  simp [firstFailure_checksOf hzero, ladder, hwf, lengthOk_eq_true_iff.2 hlen, hbuf]

theorem exec_of_stateCause (hlen : ¬LengthCause i s) (hbuf : ¬BufferCause i s) (h : StateCause i s) :
    exec i s = .next (s.complete .badState) := by
  refine exec_of_firstFailure ?_
  have hstate : stateOk i s = false := Bool.eq_false_iff.2 fun hok => stateOk_eq_true_iff.1 hok h
  simp [firstFailure_checksOf hzero, ladder, hwf, lengthOk_eq_true_iff.2 hlen, buffersOk_eq_true_iff.2 hbuf, hstate]

/-- A command with no cause against it runs. -/
theorem exec_of_no_cause (hlen : ¬LengthCause i s) (hbuf : ¬BufferCause i s) (hstate : ¬StateCause i s) :
    ∃ t, exec i s = .next t ∧ Ran i s t := by
  obtain ⟨e, hfail, -⟩ | ⟨t, -, hrun, hran⟩ := exec_cases i s
  · simp [firstFailure_checksOf hzero, ladder, hwf, lengthOk_eq_true_iff.2 hlen, buffersOk_eq_true_iff.2 hbuf,
      stateOk_eq_true_iff.2 hstate] at hfail
  · exact ⟨t, hrun, hran⟩

end

/-- The codes past validation (R124). -/
theorem Ran.err_cases {i : Instr} {s t : State} (h : Ran i s t) :
    t.err = .ok ∨ t.err = .primitiveTimeout ∨ t.err = .primitiveError ∨ t.err = .authFailure := by
  obtain (hok | herr | htimeout) | ⟨-, rfl⟩ := h.runCode_or_tagMismatch
  · exact .inl hok
  · exact .inr (.inr (.inl herr))
  · exact .inr (.inl htimeout)
  · exact .inr (.inr (.inr rfl))

/-- Settles O13: rung by rung, each rung with the rungs above it passed. -/
theorem validationFollowsTheOrder : Obligations.ValidationFollowsTheOrder := by
  unfold Obligations.ValidationFollowsTheOrder
  intro i s
  obtain ⟨t, ht⟩ := exec_answers i s
  have err_of {e : ErrCode} (h : exec i s = .next (s.complete e)) : t.err = e := by
    rw [Host.Outcome.next.inj (ht.symm.trans h), State.complete_err]
  refine ⟨t, ht, fun hwf => err_of (exec_of_not_wellFormed hwf), fun hwf =>
    ⟨fun hzero => err_of (exec_of_zeroLengthCtr hwf hzero), fun hzero =>
      ⟨fun hlen => err_of (exec_of_lengthCause hwf hzero hlen), fun hlen =>
        ⟨fun hbuf => err_of (exec_of_bufferCause hwf hzero hlen hbuf), fun hbuf =>
          ⟨fun hstate => err_of (exec_of_stateCause hwf hzero hlen hbuf hstate), fun hstate => ?runs⟩⟩⟩⟩⟩
  case runs =>
    obtain ⟨u, hu, hran⟩ := exec_of_no_cause hwf hzero hlen hbuf hstate
    rw [Host.Outcome.next.inj (ht.symm.trans hu)]
    exact hran.err_cases

end Sys2Proof.Machine

/-! SUPPORT. What a failed request leaves (60_exceptions.md R297): the output buffer holds the residue of that request,
and everything else is rolled back. -/

namespace Sys2Proof.Machine

/-! ### The state after a failed request -/

/-- The context after a command whose request failed: SEAL and OPEN have used it (R222). -/
def failedHctx (i : Instr) (s : State) : Hctx :=
  match i with
  | .sealPayload _ => .idle
  | .openPayload _ => .idle
  | _ => s.hctx

/-- The state after a command with output `o` whose request failed with the code `e` and the residue `r`. -/
def failedState (i : Instr) (s : State) (o : Buf) (e : ErrCode) (r : Residue) (p : PrimPort) : State :=
  ({ s with prim := p, hctx := failedHctx i s }.writeBuf o (r.bytes o.len)).complete e

theorem failedState_sameDbufOutside (i : Instr) (s : State) (o : Buf) (e : ErrCode) (r : Residue) (p : PrimPort) :
    SameDbufOutside o.off o.len s (failedState i s o e r p) := fun a ha =>
  Memory.read_writeBytes_other s.dbuf (r.bytes o.len) (by simpa using ha)

theorem primCode_ne_ok {e : ErrCode} (h : PrimCode e) : e ≠ .ok := by
  obtain rfl | rfl := h <;> decide

/-! ### Which commands fail at the primitive -/

section

variable {s t : State} (hcode : PrimCode t.err)
include hcode

theorem bcInitRequest_of_primCode (h : t = bcInitRequest s) : ∃ p e, t = { s with prim := p }.complete e := by
  subst h
  obtain ⟨-, hrun⟩ | ⟨-, hrun⟩ | ⟨-, hrun⟩ := bcInitRequest_cases s
  · exact absurd (hrun ▸ rfl) (primCode_ne_ok hcode)
  · exact ⟨_, _, hrun⟩
  · exact ⟨_, _, hrun⟩

theorem bcEncryptRun_of_primCode (n : BitVec 4) (h : t = bcEncryptRun (s.slot n) s) :
    ∃ e r p, t = failedState (.bcEncryptBlock n) s (s.dstFixed 16) e r p := by
  subst h
  obtain ⟨-, hrun⟩ | ⟨e, -, -, hrun⟩ := bcEncryptRun_cases (s.slot n) s
  · exact absurd (hrun ▸ rfl) (primCode_ne_ok hcode)
  · exact ⟨_, _, _, hrun⟩

theorem ctrRun_of_primCode {i : Instr} {n : BitVec 4} (hi : i = .ctrEncrypt n ∨ i = .ctrDecrypt n)
    (h : t = ctrRun n s) : ∃ e r p, t = failedState i s s.dstBuf e r p := by
  subst h
  obtain hrun | ⟨e, r, j, -, -, hrun⟩ := ctrRun_cases n s
  · exact absurd (hrun ▸ rfl) (primCode_ne_ok hcode)
  · obtain rfl | rfl := hi <;> exact ⟨_, _, _, hrun⟩

theorem sealRun_of_primCode (n : BitVec 4) (h : t = sealRun n s) :
    ∃ e r p, t = failedState (.sealPayload n) s s.payloadBuf e r p := by
  subst h
  obtain hrun | ⟨e, r, j, -, -, hrun⟩ := sealRun_cases n s
  · exact absurd (hrun ▸ rfl) (primCode_ne_ok hcode)
  · exact ⟨_, _, _, hrun⟩

theorem openRun_of_primCode (n : BitVec 4) (h : t = openRun n s) :
    ∃ e r p, t = failedState (.openPayload n) s s.dstBuf e r p := by
  subst h
  obtain ⟨-, hrun⟩ | ⟨-, hrun⟩ | ⟨e, r, j, -, -, -, hrun⟩ := openRun_cases n s
  · rw [hrun, State.complete_err] at hcode
    exact absurd hcode (by decide)
  · exact absurd (hrun ▸ rfl) (primCode_ne_ok hcode)
  · exact ⟨_, _, _, hrun⟩

/-- A command that fails at the primitive is BC_INIT, which then only used the port, or it has an output. -/
theorem Ran.of_primCode {i : Instr} (h : Ran i s t) :
    (i = .bcInit ∧ s.bcArmed = false ∧ ∃ p e, t = { s with prim := p }.complete e) ∨
      ∃ o e r p, outputOf i s = [o] ∧ t = failedState i s o e r p := by
  have notOk := primCode_ne_ok hcode
  cases i with
  | bcInit =>
    obtain ⟨-, rfl⟩ | ⟨harmed, h⟩ := h
    · exact absurd rfl notOk
    · exact .inl ⟨rfl, harmed, bcInitRequest_of_primCode hcode h⟩
  | bcEncryptBlock n =>
    obtain ⟨e, r, p, ht⟩ := bcEncryptRun_of_primCode hcode n h
    exact .inr ⟨_, e, r, p, rfl, ht⟩
  | ctrEncrypt n =>
    obtain ⟨-, rfl⟩ | ⟨-, h⟩ := h
    · exact absurd rfl notOk
    · obtain ⟨e, r, p, ht⟩ := ctrRun_of_primCode hcode (.inl rfl) h
      exact .inr ⟨_, e, r, p, rfl, ht⟩
  | ctrDecrypt n =>
    obtain ⟨-, rfl⟩ | ⟨-, h⟩ := h
    · exact absurd rfl notOk
    · obtain ⟨e, r, p, ht⟩ := ctrRun_of_primCode hcode (.inr rfl) h
      exact .inr ⟨_, e, r, p, rfl, ht⟩
  | hmacUpdate =>
    obtain ⟨hctx, rfl⟩ := h
    obtain ⟨hidle, -⟩ | ⟨k0, m, -, hrun⟩ := hmacUpdateRun_cases s
    · exact absurd hidle hctx
    · exact absurd (hrun ▸ rfl) notOk
  | hmacFinal =>
    obtain ⟨hctx, rfl⟩ := h
    obtain ⟨hidle, -⟩ | ⟨k0, m, -, hrun⟩ := hmacFinalRun_cases s
    · exact absurd hidle hctx
    · exact absurd (hrun ▸ rfl) notOk
  | sealPayload n =>
    obtain ⟨e, r, p, ht⟩ := sealRun_of_primCode hcode n h
    exact .inr ⟨_, e, r, p, rfl, ht⟩
  | openPayload n =>
    obtain ⟨e, r, p, ht⟩ := openRun_of_primCode hcode n h
    exact .inr ⟨_, e, r, p, rfl, ht⟩
  | nop | ctrSetKey _ | ctrSetIv _ | ctrSetCounter _ | ctrGetState _ | hmacInit | hkdfExtract | hkdfExpand
  | sessionLoad _ | sessionClear _ => exact absurd (congrArg State.err h) notOk

end

theorem failedHctx_codec {i : Instr} (h : (∃ n, i = .sealPayload n) ∨ ∃ n, i = .openPayload n) (s : State) :
    failedHctx i s = .idle := by
  obtain ⟨n, rfl⟩ | ⟨n, rfl⟩ := h <;> rfl

theorem failedHctx_other {i : Instr} (hseal : ∀ n, i ≠ .sealPayload n) (hopen : ∀ n, i ≠ .openPayload n) (s : State) :
    failedHctx i s = s.hctx := by
  cases i with
  | sealPayload n => exact absurd rfl (hseal n)
  | openPayload n => exact absurd rfl (hopen n)
  | _ => rfl

/-- Settles O15: a check does not end with a code of the primitive, so the command ran, and failed at its port. -/
theorem primitiveFailureRollsBack : Obligations.PrimitiveFailureRollsBack := by
  unfold Obligations.PrimitiveFailureRollsBack
  intro i s t hexec herr
  have hcode : PrimCode t.err := herr.symm
  obtain ⟨e, hfirst, hfail⟩ | ⟨u, -, hrun, hran⟩ := exec_cases i s
  · obtain rfl := Host.Outcome.next.inj (hfail.symm.trans hexec)
    exact absurd (checkCode_of_firstFailure hfirst) (RunCode.not_checkCode (.inr hcode))
  obtain rfl := Host.Outcome.next.inj (hrun.symm.trans hexec)
  obtain ⟨rfl, harmed, p, e, rfl⟩ | ⟨o, e, r, p, hout, rfl⟩ := hran.of_primCode hcode
  · exact ⟨rfl, rfl, fun _ => harmed, nofun, fun _ _ => rfl, fun _ _ => rfl⟩
  · refine ⟨rfl, rfl, fun hi => ?_, fun hi => failedHctx_codec hi s, fun hseal hopen => failedHctx_other hseal hopen s,
      fun a ha => failedState_sameDbufOutside i s o e r p a (ha o (by simp [hout]))⟩
    rw [hi] at hout
    cases hout

/-! ### The request that fails first (R176) -/

theorem Answer.code_of_ne_ok {a : Answer} (h : a ≠ .ok) :
    a.code = if a = .error then .primitiveError else .primitiveTimeout := by
  cases a with
  | ok => exact absurd rfl h
  | error | timeout => rfl

theorem PrimPort.requestBlock_of_answer_ne_ok {p : PrimPort} (h : p.answer ≠ .ok) (key blk : Block) :
    p.requestBlock key blk = .failed p.answer.code p.residue (p.after (.block key blk)) := by
  obtain ⟨hans, -⟩ | ⟨hans, hreq⟩ | ⟨hans, hreq⟩ := p.requestBlock_cases key blk
  · exact absurd hans h
  · rw [hreq, hans, Answer.code]
  · rw [hreq, hans, Answer.code]

/-- The command ended at its request `j`, which failed with the reply `x`: it made `j + 1` requests, and its output `o`
holds the bytes drawn with `x`. -/
abbrev EndedAtRequest (i : Instr) (s : State) (o : Buf) (j : Nat) (x : Reply) (t : State) : Prop :=
  ∃ d p new, p.sent = s.prim.sent ++ new ∧ new.length = j + 1 ∧
    t = failedState i s o (pollAnswer Config.retryBudget x.samples).code ⟨x.residue, d⟩ p

theorem endedAtRequest_of_after {i : Instr} {s t : State} {o : Buf} {d : Nat} {x : Reply} {q : PortRequest}
    (h : t = failedState i s o (pollAnswer Config.retryBudget x.samples).code ⟨x.residue, d⟩ (s.prim.after q)) :
    EndedAtRequest i s o 0 x t :=
  ⟨d, _, [q], rfl, rfl, h⟩

theorem endedAtRequest_of_afterBlocks {i : Instr} {s t : State} {o : Buf} {j d : Nat} {x : Reply} {key cb : Block}
    (h : t = failedState i s o (pollAnswer Config.retryBudget x.samples).code ⟨x.residue, d⟩
      (s.prim.afterBlocks key cb (j + 1))) : EndedAtRequest i s o j x t :=
  ⟨d, _, (counterBlocks cb (j + 1)).map (.block key), rfl, by simp, h⟩

section

variable {s : State} {j : Nat} {x : Reply} (hf : s.prim.failsAt j x)
include hf

theorem bcEncryptRun_of_failsAt (n : BitVec 4) (hj : j < 1) :
    EndedAtRequest (.bcEncryptBlock n) s (s.dstFixed 16) j x (bcEncryptRun (s.slot n) s) := by
  obtain rfl : j = 0 := Nat.lt_one_iff.1 hj
  obtain ⟨hans, hne, hres⟩ := PrimPort.answer_of_failsAt_zero hf
  rw [bcEncryptRun, PrimPort.requestBlock_of_answer_ne_ok hne, hans, hres]
  exact endedAtRequest_of_after rfl

theorem ctrRun_of_failsAt {i : Instr} {n : BitVec 4} (hi : i = .ctrEncrypt n ∨ i = .ctrDecrypt n)
    (hj : j < blockCount s.len) : EndedAtRequest i s s.dstBuf j x (ctrRun n s) := by
  have hlen : (s.readBuf s.srcBuf).length = s.len := s.length_readBuf s.srcBuf
  rw [ctrRun, ctrStream_of_failsAt (hlen.symm ▸ hj) hf]
  obtain rfl | rfl := hi <;> exact endedAtRequest_of_afterBlocks rfl

theorem codecStream_of_failsAt (n : BitVec 4) (hj : j < blockCount s.len) :
    codecStream n s = .failed (pollAnswer Config.retryBudget x.samples).code ⟨x.residue, s.prim.draws + j⟩
      (s.prim.afterBlocks (s.slot n).encKey (setCtr (s.slot n).cb s.counter) (j + 1)) := by
  have hlen : (s.readBuf s.srcBuf).length = s.len := s.length_readBuf s.srcBuf
  exact ctrStream_of_failsAt (hlen.symm ▸ hj) hf

theorem sealRun_of_failsAt (n : BitVec 4) (hj : j < blockCount s.len) :
    EndedAtRequest (.sealPayload n) s s.payloadBuf j x (sealRun n s) := by
  rw [sealRun, codecStream_of_failsAt hf n hj]
  exact endedAtRequest_of_afterBlocks rfl

theorem openRun_of_failsAt {n : BitVec 4} (htag : tagMatches n s = true) (hj : j < blockCount s.len) :
    EndedAtRequest (.openPayload n) s s.dstBuf j x (openRun n s) := by
  rw [openRun, if_pos htag, openDecrypt, codecStream_of_failsAt hf n hj]
  exact endedAtRequest_of_afterBlocks rfl

/-- Past its checks, a command with an output ends at the first of its requests that fails. -/
theorem Ran.of_failsAt {i : Instr} {t : State} {o : Buf} (h : Ran i s t) (htagLen : s.cfg.tagLen ≤ 32)
    (hzero : ¬ZeroLengthCtr i s) (htag : ¬TagCause i s) (hout : outputOf i s = [o]) (hj : j < requestBound i s) :
    EndedAtRequest i s o j x t := by
  cases i with
  | bcEncryptBlock n =>
    obtain rfl := List.singleton_inj.1 hout
    exact h ▸ bcEncryptRun_of_failsAt hf n hj
  | ctrEncrypt n =>
    obtain rfl := List.singleton_inj.1 hout
    obtain ⟨hlen, -⟩ | ⟨-, h⟩ := h
    · exact absurd ((zeroLengthCtr_iff (.inl rfl)).2 hlen) hzero
    · exact h ▸ ctrRun_of_failsAt hf (.inl rfl) hj
  | ctrDecrypt n =>
    obtain rfl := List.singleton_inj.1 hout
    obtain ⟨hlen, -⟩ | ⟨-, h⟩ := h
    · exact absurd ((zeroLengthCtr_iff (.inr rfl)).2 hlen) hzero
    · exact h ▸ ctrRun_of_failsAt hf (.inr rfl) hj
  | sealPayload n =>
    obtain rfl := List.singleton_inj.1 hout
    exact h ▸ sealRun_of_failsAt hf n hj
  | openPayload n =>
    obtain rfl := List.singleton_inj.1 hout
    exact h ▸ openRun_of_failsAt hf ((tagMatches_eq_true_iff_not_tagCause htagLen).2 htag) hj
  | bcInit => cases hout
  | nop | ctrSetKey _ | ctrSetIv _ | ctrSetCounter _ | ctrGetState _ | hmacInit | hmacUpdate | hmacFinal | hkdfExtract
  | hkdfExpand | sessionLoad _ | sessionClear _ => exact absurd hj (Nat.not_lt_zero j)

end

/-- An accepted output lies inside DBUF (R72). -/
theorem output_le_bufBytes {i : Instr} {s : State} {o : Buf} (h : ¬BufferCause i s) (hout : outputOf i s = [o]) :
    o.off + o.len ≤ s.cfg.bufBytes := by
  by_contra hpast
  exact h (.inl ⟨o, by simp [hout], Nat.not_le.1 hpast⟩)

/-- Settles O16: the command runs to the request that fails and writes what was drawn with its reply. -/
theorem failedOutputIsWhateverWasDrawn : Obligations.FailedOutputIsWhateverWasDrawn := by
  unfold Obligations.FailedOutputIsWhateverWasDrawn
  intro i s o j x hs hwf hzero hlen hbuf hstate htag hout hj hf
  obtain ⟨t, hexec, hran⟩ := exec_of_no_cause hwf hzero hlen hbuf hstate
  obtain ⟨d, p, new, hsent, hnew, rfl⟩ := hran.of_failsAt hf hs.tagLen_le hzero htag hout hj
  obtain ⟨-, -, hfails⟩ := hf
  refine ⟨_, new, hexec, ⟨Answer.code_of_ne_ok hfails, rfl, rfl⟩, hsent, hnew, fun k b hk hb => ?drawn,
    failedState_sameDbufOutside i s o _ _ p, rfl⟩
  case drawn =>
    obtain ⟨-, -, -, -, hdbuf, -⟩ := hs
    have hk' : k < ((Residue.mk x.residue d).bytes o.len).length := by simpa using hk
    have hfits : o.off + ((Residue.mk x.residue d).bytes o.len).length ≤ s.cfg.bufBytes := by
      simpa using output_le_bufBytes hbuf hout
    exact (Memory.read_writeBytes_inside hdbuf hfits hk').trans (Residue.getElem_bytes hb hk')

end Sys2Proof.Machine

/-! SUPPORT. What the block-cipher and the counter-mode commands leave when they succeed (41_block_cipher.md R145,
42_ctr.md R164 to R178): the bytes they write, the slot they change, and the stream in parts. -/

namespace Sys2Proof.Machine

/-! ### Byte strings in DBUF -/

/-- Read after write, for a byte string of a length that is known. -/
theorem Memory.readBytes_writeBytes_of_length {m : Memory} {n a k : Nat} {bs : List Byte} (hm : m.wf n = true)
    (hl : bs.length = k) (hb : a + k ≤ n) : (m.writeBytes a bs).readBytes a k = bs := by
  subst hl
  exact Memory.readBytes_writeBytes_same hm hb

theorem Memory.take_readBytes (m : Memory) (a : Nat) {k n : Nat} (h : k ≤ n) :
    (m.readBytes a n).take k = m.readBytes a k := by
  obtain ⟨d, rfl⟩ := Nat.exists_eq_add_of_le h
  rw [Memory.readBytes_add, List.take_left' (Memory.length_readBytes ..)]

theorem Memory.drop_readBytes (m : Memory) (a k n : Nat) :
    (m.readBytes a (k + n)).drop k = m.readBytes (a + k) n := by
  rw [Memory.readBytes_add, List.drop_left' (Memory.length_readBytes ..)]

theorem State.Inv.dbuf_wf {s : State} (hs : s.Inv) : s.dbuf.wf s.cfg.bufBytes = true := by
  obtain ⟨-, -, -, -, hwf, -⟩ := hs
  exact hwf

/-- The bytes a command writes to a buffer in range read back. -/
theorem readBytes_of_writeBuf {s t : State} (hs : s.Inv) (b : Buf) {bs : List Byte} (hl : bs.length = b.len)
    (hb : b.off + b.len ≤ s.cfg.bufBytes) (h : t.dbuf = (s.writeBuf b bs).dbuf) :
    t.dbuf.readBytes b.off b.len = bs := by
  rw [h, State.writeBuf_dbuf]
  exact Memory.readBytes_writeBytes_of_length hs.dbuf_wf hl hb

/-- A command that fills a buffer leaves the bytes outside it. -/
theorem sameDbufOutside_of_writeBuf {s t : State} (b : Buf) {bs : List Byte} (hl : bs.length = b.len)
    (h : t.dbuf = (s.writeBuf b bs).dbuf) : SameDbufOutside b.off b.len s t := by
  rw [← hl]
  intro a ha
  rw [h, State.writeBuf_dbuf]
  exact Memory.read_writeBytes_other s.dbuf bs ha

/-! ### Premises of a successful command -/

theorem Buf.inPlaceOrApart_of_le {src dst : Buf}
    (h : src.off = dst.off ∨ src.off + src.len ≤ dst.off ∨ dst.off + dst.len ≤ src.off) :
    src.inPlaceOrApart dst = true := by
  simp only [Buf.inPlaceOrApart, Buf.overlaps, Bool.or_eq_true, Bool.not_eq_true', Bool.and_eq_false_iff,
    decide_eq_true_eq, decide_eq_false_iff_not]
  omega

/-- Two buffers in range, in place or apart, are accepted by a command that may run in place (R72, R73). -/
theorem not_bufferCause_of_inPlace {i : Instr} {s : State} {src dst : Buf} (hin : inputsOf i s = [src])
    (hout : outputOf i s = [dst]) (hplace : mayRunInPlace i = true) (hsrc : src.off + src.len ≤ s.cfg.bufBytes)
    (hdst : dst.off + dst.len ≤ s.cfg.bufBytes)
    (h : src.off = dst.off ∨ src.off + src.len ≤ dst.off ∨ dst.off + dst.len ≤ src.off) : ¬BufferCause i s := by
  rw [← inPlace_iff hin hout hplace, Buf.inPlaceOrApart_of_le h, Buf.inRange, Buf.inRange, decide_eq_true hsrc,
    decide_eq_true hdst]
  rfl

theorem not_bufferCause_of_input {i : Instr} {s : State} {b : Buf} (hin : inputsOf i s = [b])
    (hout : outputOf i s = []) (h : b.off + b.len ≤ s.cfg.bufBytes) : ¬BufferCause i s :=
  (inRange_iff_of_input hin hout).1 (decide_eq_true h)

theorem not_bufferCause_of_output {i : Instr} {s : State} {b : Buf} (hin : inputsOf i s = [])
    (hout : outputOf i s = [b]) (h : b.off + b.len ≤ s.cfg.bufBytes) : ¬BufferCause i s :=
  (inRange_iff_of_output hin hout).1 (decide_eq_true h)

theorem wellFormed_of_lt {i : Instr} {n : BitVec 4} {s : State} (hi : i.slot? = some n)
    (hn : n.toNat < s.cfg.nSessions) : i.wellFormed s.cfg = true :=
  (wellFormed_eq_hasSlot hi s).trans (State.hasSlot_eq_true hn)

/-! ### BC_ENCRYPT_BLOCK (R145) -/

theorem bcEncryptRun_of_answer_ok {x : Slot} {s : State} {blk : Block} (h : s.prim.answer = .ok)
    (hblk : ofBytes 128 (s.readBuf (s.srcFixed 16)) = blk) :
    bcEncryptRun x s = ({ s with prim := s.prim.after (.block x.encKey blk) }.writeBuf (s.dstFixed 16)
      (toBytes 16 (Config.E x.encKey blk))).complete .ok := by
  subst hblk
  obtain ⟨-, hrun⟩ | ⟨e, -, hne, -⟩ := bcEncryptRun_cases x s
  · exact hrun
  · exact absurd h hne

/-- Settles O32: past its checks the command makes one request and writes the block it is answered with. -/
theorem bcEncryptBlockWritesTheCipherBlock : Obligations.BcEncryptBlockWritesTheCipherBlock := by
  unfold Obligations.BcEncryptBlockWritesTheCipherBlock
  intro n s hs hn src dst blk hsrc hdst hapart hkey harmed hans
  have hbuf : ¬BufferCause (.bcEncryptBlock n) s := not_bufferCause_of_inPlace rfl rfl rfl hsrc hdst hapart
  have hstate : ¬StateCause (.bcEncryptBlock n) s := by simp [StateCause, hkey, harmed]
  obtain ⟨t, hexec, hran⟩ := exec_of_no_cause (wellFormed_of_lt rfl hn) id id hbuf hstate
  obtain rfl : t = _ := hran.trans (bcEncryptRun_of_answer_ok (blk := blk) hans rfl)
  have hlen : (toBytes 16 (Config.E (s.slot n).encKey blk)).length = (s.dstFixed 16).len := length_toBytes ..
  exact ⟨_, hexec, ⟨rfl, rfl, rfl⟩, readBytes_of_writeBuf hs (s.dstFixed 16) hlen hdst (by simp),
    sameDbufOutside_of_writeBuf (s.dstFixed 16) hlen (by simp), by simp [PrimPort.after], by simp, by simp, by simp,
    exec_sameHostSide hexec⟩

/-! ### CTR_SET_KEY, CTR_SET_IV, CTR_GET_STATE (R167, R168, R172) -/

/-- Settles O34: the slot gets the key read from DBUF. -/
theorem ctrSetKeyLoadsTheCipherKey : Obligations.CtrSetKeyLoadsTheCipherKey := by
  unfold Obligations.CtrSetKeyLoadsTheCipherKey
  intro n s hs hn hsrc hkey
  have hbuf : ¬BufferCause (.ctrSetKey n) s := not_bufferCause_of_input rfl rfl hsrc
  have hstate : ¬StateCause (.ctrSetKey n) s := by simp [StateCause, hkey]
  obtain ⟨t, hexec, hran⟩ := exec_of_no_cause (wellFormed_of_lt rfl hn) id id hbuf hstate
  obtain rfl : t = (s.setSlot n _).complete .ok := hran
  have hslot := State.setSlot_slot_same (s := s) { s.slot n with
    encKey := ofBytes 128 (s.readBuf (s.srcFixed 16)), encValid := true, ksLast := 0 } (hs.lt_length_slots hn)
  refine ⟨_, hexec, ⟨rfl, rfl, rfl⟩, ?_, ?_, s.setSlot_sameSlotsBut n _, fun _ => rfl, rfl, rfl, rfl,
    exec_sameHostSide hexec⟩
  · rw [State.complete_slot, hslot]
    exact toBytes_ofBytes (Memory.length_readBytes ..) rfl
  · rw [State.complete_slot, hslot]

/-- Settles O35: the slot gets the counter block read from DBUF. -/
theorem ctrSetIvLoadsTheCounterBlock : Obligations.CtrSetIvLoadsTheCounterBlock := by
  unfold Obligations.CtrSetIvLoadsTheCounterBlock
  intro n s hs hn hsrc
  have hbuf : ¬BufferCause (.ctrSetIv n) s := not_bufferCause_of_input rfl rfl hsrc
  obtain ⟨t, hexec, hran⟩ := exec_of_no_cause (wellFormed_of_lt rfl hn) id id hbuf id
  obtain rfl : t = (s.setSlot n _).complete .ok := hran
  have hslot := State.setSlot_slot_same (s := s) { s.slot n with
    cb := ofBytes 128 (s.readBuf (s.srcFixed 16)) } (hs.lt_length_slots hn)
  refine ⟨_, hexec, ⟨rfl, rfl, rfl⟩, ?_, ?_, s.setSlot_sameSlotsBut n _, fun _ => rfl, rfl, rfl, rfl,
    exec_sameHostSide hexec⟩
  · rw [State.complete_slot, hslot]
    exact toBytes_ofBytes (Memory.length_readBytes ..) rfl
  · rw [State.complete_slot, hslot]

/-- Settles O41: the 32 bytes written read back as their two halves. -/
theorem ctrGetStateWritesCounterAndKeystream : Obligations.CtrGetStateWritesCounterAndKeystream := by
  unfold Obligations.CtrGetStateWritesCounterAndKeystream
  intro n s hs hn hdst
  have hbuf : ¬BufferCause (.ctrGetState n) s := not_bufferCause_of_output rfl rfl hdst
  obtain ⟨t, hexec, hran⟩ := exec_of_no_cause (wellFormed_of_lt rfl hn) id id hbuf id
  obtain rfl : t = (s.writeBuf (s.dstFixed 32) _).complete .ok := hran
  have hlen : (toBytes 16 (s.slot n).cb ++ toBytes 16 (s.slot n).ksLast).length = (s.dstFixed 32).len := by
    simp [State.dstFixed]
  have hread := readBytes_of_writeBuf hs (s.dstFixed 32) hlen hdst
    (t := (s.writeBuf (s.dstFixed 32) (toBytes 16 (s.slot n).cb ++ toBytes 16 (s.slot n).ksLast)).complete .ok)
    (by simp)
  obtain ⟨hcb, hks⟩ := List.append_inj ((Memory.readBytes_add _ _ 16 16).symm.trans hread) (by simp)
  exact ⟨_, hexec, ⟨rfl, rfl, rfl⟩, hcb, hks, sameDbufOutside_of_writeBuf (s.dstFixed 32) hlen (by simp), by simp,
    by simp, by simp, by simp, exec_sameHostSide hexec⟩

/-! ### CTR_ENCRYPT and CTR_DECRYPT (R170) -/

theorem ctrRun_of_okFor {n : BitVec 4} {s : State} (h : s.prim.okFor (blockCount s.len)) :
    let x := s.slot n
    ctrRun n s =
      (({ s with prim := s.prim.afterBlocks x.encKey x.cb (blockCount s.len) }.writeBuf s.dstBuf
        (ctrOf x.encKey x.cb (s.readBuf s.srcBuf))).setSlot n (x.afterCtr x.cb s.len)).complete .ok := by
  have hok := ctrRun_err_of_okFor (n := n) h
  obtain hrun | ⟨e, r, j, he, -, hfail⟩ := ctrRun_cases n s
  · exact hrun
  · rw [hfail, State.complete_err] at hok
    exact absurd hok (primCode_ne_ok he)

/-- Settles O37: the run writes `ctrOf` of its input, and its slot advances by the blocks of a message that is not
empty. -/
theorem ctrEncryptAndDecryptXorTheKeystream : Obligations.CtrEncryptAndDecryptXorTheKeystream := by
  unfold Obligations.CtrEncryptAndDecryptXorTheKeystream
  intro i n s hi hs hn src dst len key cb hpos hsrc hdst hapart hkey harmed hport
  have hctr : ctrBuffers s = true := by
    rw [ctrBuffers_eq_true_iff (n := n) (.inl rfl)]
    exact not_bufferCause_of_inPlace rfl rfl rfl hsrc hdst hapart
  have hexec : exec i s = .next (ctrRun n s) := by
    rw [exec_eq_ctrCommand hi, ctrCommand_of_checks hn hpos hctr hkey harmed]
  rw [ctrRun_of_okFor hport] at hexec
  have hlen := length_ctrOf_srcBuf s (s.slot n).encKey (s.slot n).cb
  have hout : ctrOf key cb (s.readBuf s.srcBuf) =
      xorBytes (s.dbuf.readBytes src len) (keystream key cb ((len + 15) / 16)) := by
    rw [ctrOf, State.length_readBuf]
    rfl
  refine ⟨_, hexec, ⟨rfl, rfl, rfl⟩, ?output, sameDbufOutside_of_writeBuf s.dstBuf hlen (by simp), ?slot,
    State.setSlot_sameSlotsBut _ n _, rfl, rfl, rfl, exec_sameHostSide hexec⟩
  case output => exact (readBytes_of_writeBuf hs s.dstBuf hlen hdst (by simp)).trans hout
  case slot =>
    refine (State.setSlot_slot_same _ (hs.lt_length_slots hn)).trans ?_
    rw [Slot.afterCtr, if_neg (c := s.len = 0) (Nat.pos_iff_ne_zero.1 hpos)]
    rfl

/-! ### A stream in parts (R178) -/

/-- The block loop with a block left, when it ends: the first request was answered, and the rest ended. -/
theorem ctrBlocks_succ_done {key cb cb' : Block} {n : Nat} {x y : List Byte} {ks : Option Block} {p q : PrimPort}
    (h : ctrBlocks key (n + 1) cb x p = .done y cb' ks q) :
    ∃ out p1 y1 last, p.requestBlock key cb = .ok out p1 ∧
      ctrBlocks key n (incCb cb) (x.drop 16) p1 = .done y1 cb' last q ∧
      y = xorBytes (x.take 16) (toBytes 16 out) ++ y1 := by
  rw [ctrBlocks] at h
  cases hreq : p.requestBlock key cb with
  | failed e r p1 => simp [hreq] at h
  | ok out p1 =>
    cases hrest : ctrBlocks key n (incCb cb) (x.drop 16) p1 with
    | failed e r p2 => simp [hreq, hrest] at h
    | done y1 cb1 last p2 =>
      simp only [hreq, hrest, StreamResult.done.injEq] at h
      obtain ⟨rfl, rfl, -, rfl⟩ := h
      exact ⟨out, p1, y1, last, rfl, hrest, rfl⟩

/-- `n` whole blocks and then `m` more from where they end are `n + m` blocks. -/
theorem ctrBlocks_append {key : Block} {n m : Nat} {cb cb1 cb2 : Block} {a b ya yb : List Byte}
    {ka kb : Option Block} {p q r : PrimPort} (hlen : a.length = 16 * n)
    (ha : ctrBlocks key n cb a p = .done ya cb1 ka q) (hb : ctrBlocks key m cb1 b q = .done yb cb2 kb r) :
    ∃ k, ctrBlocks key (n + m) cb (a ++ b) p = .done (ya ++ yb) cb2 k r := by
  induction n generalizing cb a p ya ka with
  | zero =>
    obtain rfl : a = [] := List.length_eq_zero_iff.1 hlen
    simp only [ctrBlocks, StreamResult.done.injEq] at ha
    obtain ⟨rfl, rfl, -, rfl⟩ := ha
    exact ⟨kb, by simpa using hb⟩
  | succ n ih =>
    obtain ⟨out, p1, y1, last, hreq, hrest, rfl⟩ := ctrBlocks_succ_done ha
    obtain ⟨k, hk⟩ := ih (by rw [List.length_drop]; omega) hrest
    have hdrop : (a ++ b).drop 16 = a.drop 16 ++ b := List.drop_append_of_le_length (by omega)
    have htake : (a ++ b).take 16 = a.take 16 := List.take_append_of_le_length (by omega)
    refine ⟨some (k.getD out), ?_⟩
    rw [Nat.add_right_comm, ctrBlocks, hreq, hdrop, htake]
    simp [hk]

/-- Settles O40: whole blocks leave no rest, so the blocks of the parts are the blocks of the whole. -/
theorem ctrOfWholeBlocksContinues : Obligations.CtrOfWholeBlocksContinues := by
  unfold Obligations.CtrOfWholeBlocksContinues
  intro key cb a b p q r ya yb cb1 cb2 ka kb hwhole ha hb
  have hcount : blockCount (a ++ b).length = blockCount a.length + blockCount b.length := by
    simp only [blockCount, List.length_append]
    omega
  have hlen : a.length = 16 * blockCount a.length := by
    simp only [blockCount]
    omega
  rw [ctrStream, hcount]
  exact ctrBlocks_append hlen ha hb

end Sys2Proof.Machine

/-! SUPPORT. The hash in parts (43_sha256.md R201, 44_hmac.md R212, R223): a streaming state stands for the message
absorbed so far, the concrete HMAC registers for the padded key and the message, and the key block. -/

namespace Sys2Proof.Machine

/-! ### The incremental hash (R201) -/

/-- The part of a message that is left over from its whole 64-byte blocks. -/
def leftover (m : List Byte) : List Byte := m.drop (64 * (m.length / 64))

theorem length_leftover (m : List Byte) : (leftover m).length = m.length % 64 := by
  rw [leftover, List.length_drop]
  omega

/-- The whole blocks of a longer message are those of its start, and then those of the leftover and what follows. -/
theorem blocks_append (m x : List Byte) :
    (m ++ x).length / 64 = m.length / 64 + (leftover m ++ x).length / 64 := by
  simp only [List.length_append, length_leftover]
  omega

theorem leftover_append (m x : List Byte) :
    leftover (m ++ x) = (leftover m ++ x).drop (64 * ((leftover m ++ x).length / 64)) := by
  have hle : 64 * (m.length / 64) ≤ m.length := Nat.mul_div_le ..
  rw [leftover, blocks_append, Nat.mul_add, ← List.drop_drop, List.drop_append_of_le_length hle]
  rfl

/-- Compression goes on from the leftover where it stopped at the whole blocks. -/
theorem compressBlocks_resume (v : ChainValue) (m x : List Byte) :
    compressBlocks ((m ++ x).length / 64) v (m ++ x) =
      compressBlocks ((leftover m ++ x).length / 64) (compressBlocks (m.length / 64) v m) (leftover m ++ x) := by
  have hle : 64 * (m.length / 64) ≤ m.length := Nat.mul_div_le ..
  rw [blocks_append, compressBlocks_add, compressBlocks_append _ _ _ hle, List.drop_append_of_le_length hle]
  rfl

/-- The streaming state stands for the message `m`: its whole blocks are compressed, the rest is kept. -/
def ShaStream.Holds (s : ShaStream) (m : List Byte) : Prop :=
  s.chain = compressBlocks (m.length / 64) iv256 m ∧ s.buf = leftover m ∧ s.count = m.length

theorem shaStart_holds : shaStart.Holds [] := ⟨rfl, rfl, rfl⟩

theorem ShaStream.Holds.absorb {s : ShaStream} {m : List Byte} (h : s.Holds m) (x : List Byte) :
    (shaAbsorb s x).Holds (m ++ x) := by
  obtain ⟨hchain, hbuf, hcount⟩ := h
  refine ⟨?_, ?_, ?_⟩
  · rw [compressBlocks_resume, ← hchain, ← hbuf]
    rfl
  · rw [leftover_append, ← hbuf]
    rfl
  · rw [List.length_append, ← hcount]
    rfl

theorem ShaStream.Holds.foldl_absorb {s : ShaStream} {m : List Byte} (h : s.Holds m) (chunks : List (List Byte)) :
    (chunks.foldl shaAbsorb s).Holds (m ++ chunks.flatten) := by
  induction chunks generalizing s m with
  | nil => simpa using h
  | cons x chunks ih => simpa using ih (h.absorb x)

/-- Finishing is absorbing the padding. -/
theorem ShaStream.Holds.finish {s : ShaStream} {m : List Byte} (h : s.Holds m) : shaFinish s = sha256 m := by
  obtain ⟨hchain, hbuf, hcount⟩ := h
  rw [sha256, pad, compressBlocks_resume, ← hchain, ← hbuf, ← hcount]
  rfl

/-- Settles O43: the state after the chunks holds their concatenation. -/
theorem incrementalShaIsOneShotSha : Obligations.IncrementalShaIsOneShotSha := by
  unfold Obligations.IncrementalShaIsOneShotSha
  intro chunks
  exact (shaStart_holds.foldl_absorb chunks).finish

/-! ### The concrete HMAC registers (R36, R223) -/

theorem start_inner_holds {k0 : List Byte} (h : k0.length = 64) : (HmacRegs.start k0).inner.Holds (innerPad k0) := by
  have hlen : (innerPad k0).length = 64 := by rw [length_innerPad, h]
  refine ⟨?_, ?_, hlen.symm⟩
  · rw [hlen, compressBlocks, List.take_of_length_le hlen.le]
    rfl
  · rw [leftover, hlen, List.drop_of_length_le hlen.le]
    rfl

/-- The registers after some chunks: the inner hash took them, the outer pad is kept. -/
theorem foldl_absorb_regs (r : HmacRegs) (chunks : List (List Byte)) :
    chunks.foldl HmacRegs.absorb r = { r with inner := chunks.foldl shaAbsorb r.inner } := by
  induction chunks generalizing r with
  | nil => rfl
  | cons x chunks ih => exact ih (r.absorb x)

/-- Settles O44: the inner hash holds the inner pad and the message. -/
theorem concreteHmacContextGivesTheSameTag : Obligations.ConcreteHmacContextGivesTheSameTag := by
  unfold Obligations.ConcreteHmacContextGivesTheSameTag
  intro k chunks regs
  have hregs : regs = { HmacRegs.start (keyBlock k) with
      inner := chunks.foldl shaAbsorb (HmacRegs.start (keyBlock k)).inner } := foldl_absorb_regs ..
  have hinner : regs.inner.Holds (innerPad (keyBlock k) ++ chunks.flatten) := by
    rw [hregs]
    exact (start_inner_holds (length_keyBlock k)).foldl_absorb chunks
  have hopad : regs.opad = outerPad (keyBlock k) := by rw [hregs]; rfl
  have ⟨_, hbuf, hcount⟩ := hinner
  refine ⟨?tag, ?count, ?buf, hopad⟩
  case tag =>
    rw [HmacRegs.tag, hinner.finish, hopad]
    rfl
  case count => rw [hcount, List.length_append, length_innerPad, length_keyBlock]
  case buf =>
    rw [hbuf, length_leftover]
    exact Nat.mod_lt _ (by decide)

/-! ### The key block (R212) -/

theorem keyBlock_of_le {k : List Byte} (h : k.length ≤ 64) : keyBlock k = k ++ zeros (64 - k.length) :=
  if_neg (c := Config.hashBlock < k.length) (Nat.not_lt.2 h)

theorem keyBlock_of_lt {k : List Byte} (h : 64 < k.length) : keyBlock k = sha256 k ++ zeros 32 :=
  if_pos (c := Config.hashBlock < k.length) h

/-- Zeros at the end of a key that is padded anyway change nothing. -/
theorem keyBlock_append_zeros {k : List Byte} {j : Nat} (h : k.length + j ≤ 64) :
    keyBlock (k ++ zeros j) = keyBlock k := by
  have hlen : (k ++ zeros j).length = k.length + j := by simp
  rw [keyBlock_of_le (hlen ▸ h), keyBlock_of_le (by omega), hlen, List.append_assoc, zeros, zeros, zeros,
    List.replicate_append_replicate]
  congr 2
  omega

/-- Settles O45: by the two cases of the key's length. -/
theorem keyBlockPadsOrHashes : Obligations.KeyBlockPadsOrHashes := by
  unfold Obligations.KeyBlockPadsOrHashes
  refine fun k => ⟨length_keyBlock k, fun h => ⟨?_, ?_, fun j hj => keyBlock_append_zeros hj⟩,
    fun h => ⟨keyBlock_of_lt h, ?_⟩⟩
  · rw [keyBlock_of_le h, List.take_left' rfl]
  · rw [keyBlock_of_le h, List.drop_left' rfl]
    rfl
  · rw [keyBlock_of_lt h, keyBlock_of_le (by simp), length_sha256]

end Sys2Proof.Machine

/-! SUPPORT. What the keyed-hash and key-derivation commands leave (44_hmac.md R217 to R222, 45_hkdf.md R238 to R244):
the context, the tag, the PRK and the chain of an expansion. -/

namespace Sys2Proof.Machine

/-! ### HMAC_INIT, HMAC_UPDATE, HMAC_FINAL (R217 to R219) -/

theorem hmacUpdateRun_of_active {s : State} {k0 m : List Byte} (h : s.hctx = .active k0 m) :
    hmacUpdateRun s = { s with hctx := .active k0 (m ++ s.readBuf s.srcBuf) }.complete .ok := by
  simp only [hmacUpdateRun, h]

theorem hmacFinalRun_of_active {s : State} {k0 m : List Byte} (h : s.hctx = .active k0 m) :
    hmacFinalRun s = ({ s with hctx := .idle }.writeBuf (s.dstFixed 32) (hmacOfBlock k0 m)).complete .ok := by
  simp only [hmacFinalRun, h, Config.hashLen]

/-- Settles O46: the run replaces the context. -/
theorem hmacInitStartsAContext : Obligations.HmacInitStartsAContext := by
  unfold Obligations.HmacInitStartsAContext
  intro s hsrc
  have hbuf : ¬BufferCause .hmacInit s := not_bufferCause_of_input rfl rfl hsrc
  obtain ⟨t, hexec, hran⟩ := exec_of_no_cause rfl id id hbuf id
  obtain rfl : t = _ := hran
  exact ⟨_, hexec, ⟨rfl, rfl, rfl⟩, rfl, rfl, fun _ => rfl, rfl, rfl, exec_sameHostSide hexec⟩

/-- Settles O47: the ceiling and the context are what V3 and V5 check. -/
theorem hmacUpdateAppends : Obligations.HmacUpdateAppends := by
  unfold Obligations.HmacUpdateAppends
  intro s k0 m hctx hceiling hsrc
  have hlen : ¬LengthCause .hmacUpdate s := by
    simp only [LengthCause, hctx, Hctx.active.injEq]
    rintro ⟨_, _, ⟨rfl, rfl⟩, hpast⟩
    exact Nat.not_lt.2 hceiling hpast
  have hbuf : ¬BufferCause .hmacUpdate s := not_bufferCause_of_input rfl rfl hsrc
  have hstate : ¬StateCause .hmacUpdate s := by simp [StateCause, hctx]
  obtain ⟨t, hexec, -, hran⟩ := exec_of_no_cause rfl id hlen hbuf hstate
  obtain rfl : t = _ := hran.trans (hmacUpdateRun_of_active hctx)
  exact ⟨_, hexec, ⟨rfl, rfl, rfl⟩, rfl, rfl, fun _ => rfl, rfl, rfl, exec_sameHostSide hexec⟩

/-- Without a context HMAC_FINAL only ends with ERR_BAD_STATE, whatever its arguments (R219, R296). -/
theorem exec_hmacFinal_of_idle {t : State} (hctx : t.hctx = .idle) (l : Args)
    (hdst : l.a1.toNat + 32 ≤ t.cfg.bufBytes) :
    exec .hmacFinal { t with argL := l } = .next { t with argL := l, err := .badState, done := true, seq := .idle } :=
  exec_of_stateCause rfl id id (not_bufferCause_of_output rfl rfl hdst) hctx

/-- Settles O48: the first HMAC_FINAL writes the tag and leaves no context for a second. -/
theorem hmacFinalWritesTheTagOnce : Obligations.HmacFinalWritesTheTagOnce := by
  unfold Obligations.HmacFinalWritesTheTagOnce
  intro s k0 m hs hctx hdst
  have hbuf : ¬BufferCause .hmacFinal s := not_bufferCause_of_output rfl rfl hdst
  have hstate : ¬StateCause .hmacFinal s := by simp [StateCause, hctx]
  obtain ⟨t, hexec, -, hran⟩ := exec_of_no_cause rfl id id hbuf hstate
  obtain rfl : t = _ := hran.trans (hmacFinalRun_of_active hctx)
  have hlen : (hmacOfBlock k0 m).length = (s.dstFixed 32).len := length_hmacOfBlock ..
  refine ⟨_, hexec, ⟨rfl, rfl, rfl⟩, ?tag, sameDbufOutside_of_writeBuf (s.dstFixed 32) hlen (by simp), by simp, by simp,
    by simp, by simp, exec_sameHostSide hexec, fun l hl => exec_hmacFinal_of_idle (by simp) l (by simpa using hl)⟩
  case tag => exact (readBytes_of_writeBuf hs (s.dstFixed 32) hlen hdst (by simp)).trans rfl

/-! ### The lifecycle of HCTX (R222) -/

theorem bcInitRequest_hctx (s : State) : (bcInitRequest s).hctx = s.hctx := by
  obtain ⟨-, h⟩ | ⟨-, h⟩ | ⟨-, h⟩ := bcInitRequest_cases s <;> simp [h]

theorem bcEncryptRun_hctx (x : Slot) (s : State) : (bcEncryptRun x s).hctx = s.hctx := by
  obtain ⟨-, h⟩ | ⟨e, -, -, h⟩ := bcEncryptRun_cases x s <;> simp [h]

theorem ctrRun_hctx (n : BitVec 4) (s : State) : (ctrRun n s).hctx = s.hctx := by
  obtain h | ⟨e, r, j, -, -, h⟩ := ctrRun_cases n s <;> simp [h]

theorem sealRun_hctx (n : BitVec 4) (s : State) : (sealRun n s).hctx = .idle := by
  obtain h | ⟨e, r, j, -, -, h⟩ := sealRun_cases n s <;> simp [h]

theorem openRun_hctx (n : BitVec 4) (s : State) : (openRun n s).hctx = .idle := by
  obtain ⟨-, h⟩ | ⟨-, h⟩ | ⟨e, r, j, -, -, -, h⟩ := openRun_cases n s <;> simp [h]

theorem exists_active_of_ne_idle {h : Hctx} (hne : h ≠ .idle) : ∃ k0 m, h = .active k0 m := by
  cases h with
  | idle => exact absurd rfl hne
  | active k0 m => exact ⟨k0, m, rfl⟩

/-- What a command that got past its checks leaves in HCTX. -/
def LeavesHctx (i : Instr) (s t : State) : Prop :=
  match i with
  | .hmacInit => t.hctx = .active (keyBlock (s.dbuf.readBytes s.argL.a0.toNat s.argL.a2.toNat)) []
  | .hmacUpdate =>
    ∃ k0 m, s.hctx = .active k0 m ∧ t.hctx = .active k0 (m ++ s.dbuf.readBytes s.argL.a0.toNat s.argL.a2.toNat)
  | .hmacFinal => s.hctx ≠ .idle ∧ t.hctx = .idle
  | .hkdfExtract => t.hctx = .idle
  | .hkdfExpand => t.hctx = .idle
  | .sealPayload _ => t.hctx = .idle
  | .openPayload _ => t.hctx = .idle
  | _ => t.hctx = s.hctx

theorem Ran.leavesHctx {i : Instr} {s t : State} (h : Ran i s t) : LeavesHctx i s t := by
  cases i with
  | bcInit =>
    obtain ⟨-, rfl⟩ | ⟨-, rfl⟩ := h
    · exact s.complete_hctx .ok
    · exact bcInitRequest_hctx s
  | bcEncryptBlock n => exact h ▸ bcEncryptRun_hctx _ s
  | ctrEncrypt n | ctrDecrypt n =>
    obtain ⟨-, rfl⟩ | ⟨-, rfl⟩ := h
    · exact s.complete_hctx .ok
    · exact ctrRun_hctx n s
  | hmacUpdate =>
    obtain ⟨hne, rfl⟩ := h
    obtain ⟨k0, m, hctx⟩ := exists_active_of_ne_idle hne
    exact ⟨k0, m, hctx, congrArg State.hctx (hmacUpdateRun_of_active hctx)⟩
  | hmacFinal =>
    obtain ⟨hne, rfl⟩ := h
    obtain ⟨k0, m, hctx⟩ := exists_active_of_ne_idle hne
    exact ⟨hne, by simp [hmacFinalRun_of_active hctx]⟩
  | sealPayload n => exact h ▸ sealRun_hctx n s
  | openPayload n => exact h ▸ openRun_hctx n s
  | nop | ctrSetKey _ | ctrSetIv _ | ctrSetCounter _ | ctrGetState _ | hmacInit | hkdfExtract | hkdfExpand
  | sessionLoad _ | sessionClear _ =>
    simp only [Ran] at h
    simp [LeavesHctx, h, State.readBuf, State.srcBuf, State.srcOff, State.len]

/-- Without a context HMAC_UPDATE and HMAC_FINAL fail at a check, and no length is too long (R218, R219). -/
theorem exec_err_of_idle {i : Instr} {s t : State} (hexec : exec i s = .next t) (hctx : s.hctx = .idle)
    (hi : i = .hmacUpdate ∨ i = .hmacFinal) : t.err = .badBuffer ∨ t.err = .badState := by
  have hwf : i.wellFormed s.cfg = true := by obtain rfl | rfl := hi <;> rfl
  have hzero : ¬ZeroLengthCtr i s := by obtain rfl | rfl := hi <;> exact id
  have hlen : ¬LengthCause i s := by obtain rfl | rfl := hi <;> simp [LengthCause, hctx]
  have hstate : StateCause i s := by obtain rfl | rfl := hi <;> exact hctx
  by_cases hbuf : BufferCause i s
  · obtain rfl := Host.Outcome.next.inj ((exec_of_bufferCause hwf hzero hlen hbuf).symm.trans hexec)
    exact .inl rfl
  · obtain rfl := Host.Outcome.next.inj ((exec_of_stateCause hwf hzero hlen hbuf hstate).symm.trans hexec)
    exact .inr rfl

/-- Settles O49: a command that ends with a validation error only completes, and one that does not ran. -/
theorem hmacContextLifecycle : Obligations.HmacContextLifecycle := by
  unfold Obligations.HmacContextLifecycle
  refine ⟨fun i s t hexec => ⟨fun hcode => ?check, fun hillegal hlength hbuffer hstate => ?ran,
    fun hctx hi => exec_err_of_idle hexec hctx hi⟩, fun s draw rest => ⟨_, step_reset s draw rest, rfl⟩⟩
  case check => rw [exec_err_checkCode hexec hcode, State.complete_hctx]
  case ran =>
    have hran : LeavesHctx i s t := by
      obtain ⟨e, hfirst, hfail⟩ | ⟨u, -, hrun, hran⟩ := exec_cases i s
      · obtain rfl := Host.Outcome.next.inj (hfail.symm.trans hexec)
        obtain rfl | rfl | rfl | rfl := checkCode_of_firstFailure hfirst
        · exact absurd rfl hillegal
        · exact absurd rfl hlength
        · exact absurd rfl hbuffer
        · exact absurd rfl hstate
      · obtain rfl := Host.Outcome.next.inj (hrun.symm.trans hexec)
        exact hran.leavesHctx
    exact hran

/-! ### HKDF_EXTRACT and HKDF_EXPAND (R237 to R244) -/

/-- Settles O50: the PRK is written to the 32 output bytes. -/
theorem hkdfExtractWritesThePrk : Obligations.HkdfExtractWritesThePrk := by
  unfold Obligations.HkdfExtractWritesThePrk
  intro s hs salt ikm dst hbuf
  obtain ⟨t, hexec, hran⟩ := exec_of_no_cause rfl id id hbuf id
  obtain rfl : t = _ := hran
  have hlen : (hkdfExtract (s.readBuf s.srcBuf) (s.readBuf s.auxBuf)).length = (s.dstFixed 32).len :=
    length_hkdfExtract ..
  have hempty : (s.readBuf s.srcBuf).length = 0 ↔ s.argL.a2 = 0 := by
    rw [State.length_readBuf]
    exact BitVec.toNat_inj (y := 0)
  have hprk : hkdfExtract (s.readBuf s.srcBuf) (s.readBuf s.auxBuf) =
      hmac (if s.argL.a2 = 0 then List.replicate 32 0 else salt) ikm := by
    simp only [hkdfExtract, hempty]
    rfl
  refine ⟨_, hexec, ⟨rfl, rfl, rfl⟩, ?output, sameDbufOutside_of_writeBuf (s.dstFixed 32) hlen (by simp), by simp,
    by simp, by simp, by simp, exec_sameHostSide hexec⟩
  case output =>
    exact (readBytes_of_writeBuf hs (s.dstFixed 32) hlen (output_le_bufBytes hbuf rfl) (by simp)).trans hprk

/-- Byte `32 i + j` of the expand sequence is byte `j` of block `i + 1` of the chain (R242). -/
theorem getElem?_expandBlocks {prk info : List Byte} {chain : Nat → List Byte}
    (hchain : ∀ i, chain (i + 1) = hmac prk (chain i ++ info ++ [BitVec.ofNat 8 (i + 1)])) {n i j : Nat} (k : Nat)
    (hi : i < n) (hj : j < 32) :
    (expandBlocks prk info n (k + 1) (chain k))[32 * i + j]? = (chain (k + i + 1))[j]? := by
  have hlen (i : Nat) : (chain (i + 1)).length = 32 := by rw [hchain, length_hmac]
  induction n generalizing i k with
  | zero => omega
  | succ n ih =>
    have hblock := hlen k
    simp only [expandBlocks, ← hchain]
    cases i with
    | zero => rw [List.getElem?_append_left (by omega), Nat.mul_zero, Nat.zero_add, Nat.add_zero]
    | succ i =>
      have hidx : 32 * (i + 1) + j - (chain (k + 1)).length = 32 * i + j := by omega
      rw [List.getElem?_append_right (by omega), hidx, ih (k + 1) (by omega), Nat.add_right_comm k 1 i]
      rfl

theorem getElem?_hkdfExpand {prk info : List Byte} {chain : Nat → List Byte} (hzero : chain 0 = [])
    (hchain : ∀ i, chain (i + 1) = hmac prk (chain i ++ info ++ [BitVec.ofNat 8 (i + 1)])) {len i j : Nat}
    (hj : j < 32) (hlen : 32 * i + j < len) : (hkdfExpand prk info len)[32 * i + j]? = (chain (i + 1))[j]? := by
  have hi : i < (len + 31) / 32 := by omega
  rw [hkdfExpand, List.getElem?_take_of_lt hlen, ← hzero, getElem?_expandBlocks hchain 0 hi hj, Nat.zero_add]

/-- Settles O51: the expansion is written byte by byte, and its bytes are those of the chain. -/
theorem hkdfExpandWritesTheChain : Obligations.HkdfExpandWritesTheChain := by
  unfold Obligations.HkdfExpandWritesTheChain
  intro s hs prk info dst len hceiling hbuf
  have hlength : ¬LengthCause .hkdfExpand s := Nat.not_lt.2 hceiling
  obtain ⟨t, hexec, hran⟩ := exec_of_no_cause rfl id hlength hbuf id
  obtain rfl : t = _ := hran
  have hout : (hkdfExpand (s.readBuf (s.srcFixed 32)) (s.readBuf s.auxBuf) s.len).length = s.dstBuf.len :=
    length_hkdfExpand ..
  have hrange := output_le_bufBytes hbuf (o := s.dstBuf) rfl
  refine ⟨_, hexec, ⟨rfl, rfl, rfl⟩, fun chain hzero hchain i j hj hij => ?bytes,
    sameDbufOutside_of_writeBuf s.dstBuf hout (by simp), by simp, by simp, by simp, by simp, exec_sameHostSide hexec⟩
  case bytes =>
    have hk : 32 * i + j < (hkdfExpand (s.readBuf (s.srcFixed 32)) (s.readBuf s.auxBuf) s.len).length := hout ▸ hij
    have hread := Memory.read_writeBytes_inside hs.dbuf_wf (hout.symm ▸ hrange) hk
    rw [← getElem?_hkdfExpand hzero hchain hj hij, State.complete_dbuf, State.writeBuf_dbuf]
    exact (List.getElem?_eq_getElem hk).trans (congrArg some hread.symm)

end Sys2Proof.Machine

/-! SUPPORT. What the session and codec commands leave when they succeed (46_codec.md R256 to R270): the slot a session
image fills, the payload SEAL writes, the plaintext OPEN writes. -/

namespace Sys2Proof.Machine

/-! ### SESSION_LOAD and SESSION_CLEAR (R260, R261) -/

/-- Settles O53: the image is cut at bytes 16 and 48. -/
theorem sessionLoadFillsAnEmptySlot : Obligations.SessionLoadFillsAnEmptySlot := by
  unfold Obligations.SessionLoadFillsAnEmptySlot
  intro n s hs hn hsrc hkey hauth
  have hbuf : ¬BufferCause (.sessionLoad n) s := not_bufferCause_of_input rfl rfl hsrc
  have hstate : ¬StateCause (.sessionLoad n) s := by simp [StateCause, hkey, hauth]
  obtain ⟨t, hexec, hran⟩ := exec_of_no_cause (wellFormed_of_lt rfl hn) id id hbuf hstate
  obtain rfl : t = (s.setSlot n _).complete .ok := hran
  have hslot := State.setSlot_slot_same (s := s) (Slot.ofImage (s.readBuf (s.srcFixed 64))) (hs.lt_length_slots hn)
  have hread : s.readBuf (s.srcFixed 64) = s.dbuf.readBytes s.argL.a0.toNat 64 := rfl
  rw [hread] at hslot hexec
  have htake (k j : Nat) (h : k + j ≤ 64) : ((s.dbuf.readBytes s.argL.a0.toNat 64).drop k).take j =
      s.dbuf.readBytes (s.argL.a0.toNat + k) j := by
    obtain ⟨d, hd⟩ := Nat.exists_eq_add_of_le (show k ≤ 64 by omega)
    rw [hd, Memory.drop_readBytes, Memory.take_readBytes _ _ (by omega)]
  refine ⟨_, hexec, ⟨rfl, rfl, rfl⟩, ?enc, ?auth, ?cb, ?ks, ?encValid, ?authValid, s.setSlot_sameSlotsBut n _,
    fun _ => rfl, rfl, rfl, rfl, exec_sameHostSide hexec⟩
  all_goals rw [State.complete_slot, hslot, Slot.ofImage]
  case enc =>
    rw [Memory.take_readBytes _ _ (by decide)]
    exact toBytes_ofBytes (Memory.length_readBytes ..) rfl
  case auth =>
    rw [htake 16 32 (by decide)]
    exact toBytes_ofBytes (Memory.length_readBytes ..) rfl
  case cb =>
    rw [htake 48 16 (by decide)]
    exact toBytes_ofBytes (Memory.length_readBytes ..) rfl

/-- Settles O54: the slot written is the empty one. -/
theorem sessionClearEmptiesASlot : Obligations.SessionClearEmptiesASlot := by
  unfold Obligations.SessionClearEmptiesASlot
  intro n s hs hn
  have hbuf : ¬BufferCause (.sessionClear n) s := not_bufferCause_of_no_buffers rfl rfl
  obtain ⟨t, hexec, hran⟩ := exec_of_no_cause (wellFormed_of_lt rfl hn) id id hbuf id
  obtain rfl : t = (s.setSlot n Slot.empty).complete .ok := hran
  exact ⟨_, hexec, ⟨rfl, rfl, rfl⟩, State.setSlot_slot_same _ (hs.lt_length_slots hn), s.setSlot_sameSlotsBut n _,
    fun _ => rfl, rfl, rfl, rfl, exec_sameHostSide hexec⟩

/-! ### SEAL and OPEN (R263, R268) -/

theorem not_stateCause_of_codec {i : Instr} {n : BitVec 4} {s : State} (hi : i = .sealPayload n ∨ i = .openPayload n)
    (hkey : (s.slot n).encValid = true) (hauth : (s.slot n).authValid = true)
    (harmed : 0 < s.argL.a2.toNat → s.bcArmed = true) : ¬StateCause i s := by
  obtain rfl | rfl := hi <;> simpa [StateCause, hkey, hauth] using harmed

/-- The stream of SEAL and OPEN when every request is answered (R262). -/
theorem codecStream_of_okFor {n : BitVec 4} {s : State} (h : s.prim.okFor (blockCount s.len)) :
    let x := s.slot n
    let cb := setCtr x.cb s.counter
    codecStream n s = .done (ctrOf x.encKey cb (s.readBuf s.srcBuf)) (incBy cb (blockCount s.len))
      (lastBlock x.encKey cb (blockCount s.len)) (s.prim.afterBlocks x.encKey cb (blockCount s.len)) := by
  intro x cb
  have hlen : (s.readBuf s.srcBuf).length = s.len := s.length_readBuf s.srcBuf
  have hstream := ctrStream_of_okFor (key := x.encKey) (cb := cb) (hlen.symm ▸ h)
  rwa [hlen] at hstream

theorem sealRun_of_okFor {n : BitVec 4} {s : State} (h : s.prim.okFor (blockCount s.len)) :
    let x := s.slot n
    let cb := setCtr x.cb s.counter
    sealRun n s =
      (({ s with prim := s.prim.afterBlocks x.encKey cb (blockCount s.len), hctx := .idle }.writeBuf s.payloadBuf
        (payload s.cfg x.authKey (ctrOf x.encKey cb (s.readBuf s.srcBuf)) s.counter)).setSlot n
          (x.afterCtr cb s.len)).complete .ok := by
  intro x cb
  rw [sealRun, codecStream_of_okFor h]
  simp only [Slot.advance_eq, x, cb]

theorem payload_eq (p : Params) (k : AuthKey) (ct : List Byte) (c : Word) :
    payload p k ct c =
      ct ++ wireCounter p c ++ (hmac (toBytes 32 k) (ct ++ wireCounter p c)).take p.tagLen := by
  rw [payload, payloadTag_eq_take_hmac, wireCounter_eq_encCtr]

/-- Settles O55: with every request answered SEAL writes the payload of the whole stream. -/
theorem sealWritesThePayload : Obligations.SealWritesThePayload := by
  unfold Obligations.SealWritesThePayload
  intro n s hs hn src dst len key cb ct wire hbuf hkey hauth harmed hport
  have hstate := not_stateCause_of_codec (.inl rfl) hkey hauth harmed
  obtain ⟨t, hexec, hran⟩ := exec_of_no_cause (wellFormed_of_lt rfl hn) id id hbuf hstate
  obtain rfl : t = _ := Eq.trans hran (sealRun_of_okFor hport)
  have hlen := length_payload_srcBuf s hs.tagLen_le (s.slot n).authKey (s.slot n).encKey
    (setCtr (s.slot n).cb s.counter) s.counter
  have hrange := output_le_bufBytes hbuf (o := s.payloadBuf) rfl
  refine ⟨_, hexec, ⟨rfl, rfl, rfl⟩, ?output, sameDbufOutside_of_writeBuf s.payloadBuf hlen (by simp),
    State.setSlot_slot_same _ (hs.lt_length_slots hn), State.setSlot_sameSlotsBut _ n _, rfl, rfl, by simp,
    exec_sameHostSide hexec⟩
  case output => exact (readBytes_of_writeBuf hs s.payloadBuf hlen hrange (by simp)).trans (payload_eq ..)

/-- Settles O56: with tags that match and every request answered OPEN writes the whole stream. -/
theorem openWritesThePlaintext : Obligations.OpenWritesThePlaintext := by
  unfold Obligations.OpenWritesThePlaintext
  intro n s hs hn src dst len key cb ct hbuf hkey hauth harmed htag hport
  have hstate := not_stateCause_of_codec (.inr rfl) hkey hauth harmed
  have hmatch : tagMatches n s = true := (tagMatches_eq_true_iff_not_tagCause hs.tagLen_le).2 fun hne => hne htag
  obtain ⟨t, hexec, hran⟩ := exec_of_no_cause (wellFormed_of_lt rfl hn) id id hbuf hstate
  obtain rfl : t = _ := Eq.trans hran (openRun_of_okFor hmatch hport)
  have hlen := length_ctrOf_srcBuf s (s.slot n).encKey (setCtr (s.slot n).cb s.counter)
  have hrange := output_le_bufBytes hbuf (o := s.dstBuf) rfl
  refine ⟨_, hexec, ⟨rfl, rfl, rfl⟩, ?output, sameDbufOutside_of_writeBuf s.dstBuf hlen (by simp),
    State.setSlot_slot_same _ (hs.lt_length_slots hn), State.setSlot_sameSlotsBut _ n _, rfl, rfl, by simp,
    exec_sameHostSide hexec⟩
  case output => exact (readBytes_of_writeBuf hs s.dstBuf hlen hrange (by simp)).trans rfl

/-- Settles O58: no byte difference is ever dropped from the accumulator. -/
theorem tagComparisonIsEquality : Obligations.TagComparisonIsEquality := by
  unfold Obligations.TagComparisonIsEquality
  exact fun t r => ctEq_eq_true_iff

end Sys2Proof.Machine
